-- ==== Sys2Proof/Word.lean ====
section
/-! DEFINITION. The word types of the block: bytes, 32-bit words, binary64 patterns, and Points. -/

namespace Sys2Proof

/-- One byte of a buffer (R45). -/
abbrev Byte := BitVec 8

/-- A 32-bit register or buffer word (R28). -/
abbrev Word := BitVec 32

/-- A binary64 value, held as its 64-bit IEEE 754 pattern (R17, R28). -/
abbrev F64 := BitVec 64

/-- A Point `(x, y)` of binary64 values: time in seconds, and level, voltage, amplitude or symbol code (R15). -/
structure Point where
  x : F64
  y : F64
deriving DecidableEq, Repr, Inhabited

end Sys2Proof
end

