-- ==== Sys2Proof/Syntax.lean ====
section
/-! DEFINITION. The 25 commands of the opcode table, one constructor per row, in the table's order. A command
has no operand field: its operands are registers and buffers (R74, R76). -/

namespace Sys2Proof

/-- The commands (R2, R77 to R81). -/
inductive Instr where
  | lineNrzL            -- LINE.NRZ_L, R112
  | lineNrzI            -- LINE.NRZ_I, R113
  | lineManchester      -- LINE.MANCHESTER, R114
  | lineDiffManchester  -- LINE.DIFF_MANCHESTER, R115
  | lineAmi             -- LINE.AMI, R116
  | linePseudoternary   -- LINE.PSEUDOTERNARY, R117
  | lineB8zs            -- LINE.B8ZS, R118
  | lineHdb3            -- LINE.HDB3, R120
  | dmodAsk             -- DMOD.ASK, R132
  | dmodFsk             -- DMOD.FSK, R133
  | dmodPsk             -- DMOD.PSK, R135
  | dmodBfsk            -- DMOD.BFSK, R134
  | dmodMfsk            -- DMOD.MFSK, R142
  | dmodBpsk            -- DMOD.BPSK, R136
  | dmodDpsk            -- DMOD.DPSK, R137
  | dmodQpsk            -- DMOD.QPSK, R138
  | dmodOqpsk           -- DMOD.OQPSK, R139
  | dmodMpsk            -- DMOD.MPSK, R140
  | dmodQam             -- DMOD.QAM, R141
  | a2dPcm              -- A2D.PCM, R151
  | a2dDelta            -- A2D.DELTA, R154
  | amodAm              -- AMOD.AM, R160
  | amodFm              -- AMOD.FM, R161
  | amodPm              -- AMOD.PM, R162
  | interpLinear        -- INTERP.LINEAR, R106
deriving DecidableEq, Repr

/-- The family of a command, the FAMILY field's meaning (R75). -/
inductive Family where
  | line | dmod | a2d | amod | interp
deriving DecidableEq, Repr

end Sys2Proof
end

