-- ==== Sys2Proof/WellFormed.lean ====
section
/-! DEFINITION. Well-formed command words. An instruction itself has no operand that could be ill-formed
(R74, R76), so every term of `Instr` is well-formed; what can be ill-formed is a 32-bit word offered as a
command, and each of the three checks of R82 stands here by itself. -/

namespace Sys2Proof

/-- How many schemes each FAMILY value defines (R77 to R81): 8, 11, 2, 3, 1, and none for 5 to 15. -/
def schemeCount : Nat → Nat
  | 0 => 8
  | 1 => 11
  | 2 => 2
  | 3 => 3
  | 4 => 1
  | _ => 0

/-- RSVD, bits [31:8], is 0 (R75). -/
def rsvdClear (w : Word) : Bool := w.toNat / 256 == 0

/-- FAMILY, bits [7:4], is a defined family (R75). -/
def familyDefined (w : Word) : Bool := decide (w.toNat / 16 % 16 ≤ 4)

/-- SCHEME, bits [3:0], is a defined scheme of its FAMILY (R77 to R81). -/
def schemeDefined (w : Word) : Bool := decide (w.toNat % 16 < schemeCount (w.toNat / 16 % 16))

/-- A word that is one of the 25 commands (R82, R83). -/
def wellFormedWord (w : Word) : Bool := rsvdClear w && familyDefined w && schemeDefined w

/-- Every instruction is well-formed: it has no operand (R74, R76). -/
def Instr.wellFormed (_ : Instr) : Bool := true

end Sys2Proof
end

