-- ==== Sys2Proof/Decode.lean ====
section
/-! DEFINITION. The decoder of a command word (R74, R75, R82), which rejects by name, and the encoder, written
from the command-word column of R77 to R81. -/

namespace Sys2Proof

/-- Why a word selects no command (R82). All three end in UnsupportedScheme (R166). -/
inductive DecodeReject where
  /-- RSVD, bits [31:8], is not 0. -/
  | reservedBits
  /-- FAMILY is 5 to 15. -/
  | reservedFamily
  /-- SCHEME is reserved in a defined FAMILY. -/
  | reservedScheme
deriving DecidableEq, Repr

/-- SCHEME = CMD[3:0] (R75). -/
def schemeField (w : Word) : Nat := (w.extractLsb' 0 4).toNat

/-- FAMILY = CMD[7:4] (R75). -/
def familyField (w : Word) : Nat := (w.extractLsb' 4 4).toNat

/-- RSVD = CMD[31:8] (R75). -/
def rsvdField (w : Word) : Nat := (w.extractLsb' 8 24).toNat

/-- The schemes of each FAMILY in SCHEME order, from 0 up (R77 to R81). -/
def schemeTable : Nat → List Instr
  | 0 => [.lineNrzL, .lineNrzI, .lineManchester, .lineDiffManchester, .lineAmi, .linePseudoternary,
          .lineB8zs, .lineHdb3]
  | 1 => [.dmodAsk, .dmodFsk, .dmodPsk, .dmodBfsk, .dmodMfsk, .dmodBpsk, .dmodDpsk, .dmodQpsk,
          .dmodOqpsk, .dmodMpsk, .dmodQam]
  | 2 => [.a2dPcm, .a2dDelta]
  | 3 => [.amodAm, .amodFm, .amodPm]
  | 4 => [.interpLinear]
  | _ => []

/-- Decoding (R82): total on all 2^32 words. -/
def decode (w : Word) : Except DecodeReject Instr :=
  if rsvdField w ≠ 0 then .error .reservedBits
  else if 4 < familyField w then .error .reservedFamily
  else
    match (schemeTable (familyField w))[schemeField w]? with
    | some i => .ok i
    | none => .error .reservedScheme

/-- The command word of each mnemonic (R77 to R81). -/
def encode : Instr → Word
  | .lineNrzL => 0x00000000
  | .lineNrzI => 0x00000001
  | .lineManchester => 0x00000002
  | .lineDiffManchester => 0x00000003
  | .lineAmi => 0x00000004
  | .linePseudoternary => 0x00000005
  | .lineB8zs => 0x00000006
  | .lineHdb3 => 0x00000007
  | .dmodAsk => 0x00000010
  | .dmodFsk => 0x00000011
  | .dmodPsk => 0x00000012
  | .dmodBfsk => 0x00000013
  | .dmodMfsk => 0x00000014
  | .dmodBpsk => 0x00000015
  | .dmodDpsk => 0x00000016
  | .dmodQpsk => 0x00000017
  | .dmodOqpsk => 0x00000018
  | .dmodMpsk => 0x00000019
  | .dmodQam => 0x0000001A
  | .a2dPcm => 0x00000020
  | .a2dDelta => 0x00000021
  | .amodAm => 0x00000030
  | .amodFm => 0x00000031
  | .amodPm => 0x00000032
  | .interpLinear => 0x00000040

/-- The family of each command (R77 to R81). -/
def Instr.family : Instr → Family
  | .lineNrzL | .lineNrzI | .lineManchester | .lineDiffManchester | .lineAmi | .linePseudoternary
  | .lineB8zs | .lineHdb3 => .line
  | .dmodAsk | .dmodFsk | .dmodPsk | .dmodBfsk | .dmodMfsk | .dmodBpsk | .dmodDpsk | .dmodQpsk
  | .dmodOqpsk | .dmodMpsk | .dmodQam => .dmod
  | .a2dPcm | .a2dDelta => .a2d
  | .amodAm | .amodFm | .amodPm => .amod
  | .interpLinear => .interp

/-- The instruction the decoder reads from a row's bits `w`, `nbits` wide: a command is one 32-bit word, the
value written to CMD (R74). -/
def decodeTableWord (nbits w : Nat) : Option Instr :=
  match decode (BitVec.ofNat 32 (w % 2 ^ nbits)) with
  | .ok i => some i
  | .error _ => none

end Sys2Proof
end

