-- ==== Sys2Proof/Config.lean ====
section
/-! DEFINITION. What the spec leaves to the implementation (R9, R25): the capacities, the sine and cosine,
and the free values. Every `opaque` constant here has no body: no proof can learn what it is. -/

namespace Sys2Proof

/-- The four rounded operations of binary64 arithmetic (R17); a NaN result may depend on which one made it. -/
inductive F64Op where
  | add | sub | mul | div
deriving DecidableEq, Repr

/-- Selects MAX_BITS among its legal values; see `Config.maxBits`. -/
opaque Config.maxBitsSeed : Nat

/-- Selects MAX_POINTS among its legal values; see `Config.maxPoints`. -/
opaque Config.maxPointsSeed : Nat

/-- The largest MAX_BITS that the two constraints of R9 admit together. -/
def Config.maxBitsLimit : Nat := 167769

/-- MAX_BITS, the bit-count ceiling (R9, D13): some value in 1 .. 167 769, and any of them. -/
def Config.maxBits : Nat := 1 + Config.maxBitsSeed % Config.maxBitsLimit

/-- The lower bound of MAX_POINTS for a given MAX_BITS (R9). -/
def Config.minPoints (maxBits : Nat) : Nat :=
  max (4 * maxBits) (max (100 * (maxBits + 3) + 1) 401)

/-- MAX_POINTS, the capacity of each point buffer (R9, D14): some value from `minPoints maxBits` to 2^24,
and any of them. -/
def Config.maxPoints : Nat :=
  Config.minPoints Config.maxBits + Config.maxPointsSeed % (2 ^ 24 - Config.minPoints Config.maxBits + 1)

/-- The implementation's sine away from +0.0 (R19, D46); `Machine.fsin` adds the one value R19 fixes. -/
opaque Config.sineAway : F64 → F64

/-- The implementation's cosine away from +0.0 (R19, D46); `Machine.fcos` adds the one value R19 fixes. -/
opaque Config.cosineAway : F64 → F64

/-- The pattern of a NaN result, which neither R17 nor IEEE 754 fixes: a free value of the operation and its
operands (log 5). `Machine.nanResult` keeps it a NaN. -/
opaque Config.nanPattern : F64Op → F64 → F64 → F64

/-- The clamp of a NaN to `[lo, hi]`, which the spec does not state: a free value of the three arguments
(log 6). `Machine.fclamp` keeps it within the bounds. -/
opaque Config.clampNaN : F64 → F64 → F64 → F64

/-- The n-th draw for CALC_TIME (R89). `Machine.calcTimeDraw` keeps it non-negative. -/
opaque Config.calcTime : Nat → F64

/-- The n-th draw for a host read during BUSY (R63). -/
opaque Config.busyRead : Nat → Word

/-- The n-th draw for the time from acceptance to completion, counted in host inputs (R88, R193; log 2). -/
opaque Config.busyDelay : Nat → Nat

end Sys2Proof
end

