-- ==== Sys2Proof/Machine/State.lean ====
section
/-! DEFINITION. The state of the block (R24), its value after reset (R50), the host's inputs, and the reasons a
step can stop. -/

namespace Sys2Proof.Machine

/-- The four buffers, as (window offset, byte) pairs (R45, R46, R52). A byte that is not listed has never been
written since reset: it has no value (R47, R50). -/
abbrev Memory := List Host.Cell

/-- The canonical form: addresses strictly rising. An unlisted address has no value, so no listed entry can equal
what an unlisted address reads as. -/
abbrev Memory.wf (m : Memory) : Prop := m.Pairwise (fun a b => a.1 < b.1)

/-- What comes to the block from outside: the host's accesses (R60, R63, R64) and the reset event (R183). `width`
is the access width in bits, `off` the byte offset in the window (R52). -/
inductive HostInput where
  /-- MemRead at a window offset (R63). -/
  | read (width : Nat) (off : Word)
  /-- MemWrite of a value at a window offset (R64). -/
  | write (width : Nat) (off : Word) (v : Word)
  /-- Assertion of the reset input (R183). -/
  | reset
deriving DecidableEq, Repr

/-- Why a step stops with a fault. -/
inductive Fault where
  /-- Raised by `step` in a state whose fault mark is set, unless the next input is a reset (R49, R168: no claim may
  reach beyond it). Safe: the model stops where a real block would go on in some way the spec does not give. -/
  | faultMarkSet
deriving DecidableEq, Repr

/-- Why a step is refused. -/
inductive Refusal where
  /-- An instruction that has no meaning yet, by its mnemonic. No arm of `exec` raises it. Safe. -/
  | notModelled (mnemonic : String)
deriving DecidableEq, Repr

/-- The state of the block (R24): the registers of R28 by name, the buffers with their written marks (R45 to R47), the fault
mark (R49), and four fields of the model's own (log 1, log 2, log 14). CAP_BITS and CAP_POINTS are constants (R43): no field. -/
structure State where
  /-- CMD (R29). -/
  cmd : Word
  /-- STATUS (R30). -/
  status : Word
  /-- BIT_LEN (R31). -/
  bitLen : Word
  /-- CFG_INIT (R32). -/
  cfgInit : Word
  /-- FREQ (R33). -/
  freq : F64
  /-- AMPL (R34). -/
  ampl : F64
  /-- SRATE (R35). -/
  srate : F64
  /-- QLEVELS (R36). -/
  qlevels : Word
  /-- DELTA_RATIO (R37). -/
  deltaRatio : F64
  /-- T_QUERY (R38). -/
  tQuery : F64
  /-- RESULT (R39). -/
  result : F64
  /-- IN_COUNT (R40). -/
  inCount : Word
  /-- TX_COUNT (R41). -/
  txCount : Word
  /-- OUT_COUNT (R41). -/
  outCount : Word
  /-- CALC_TIME (R42). -/
  calcTime : F64
  /-- BITBUF, INBUF, TXBUF and OUTBUF with their written marks (R45 to R47). -/
  mem : Memory
  /-- The fault mark (R49). -/
  faultMark : Bool
  /-- Model's own: the inputs still to be served, in order (log 1). -/
  inputs : List HostInput
  /-- Model's own: how many inputs are served before the pending completion step (log 2). -/
  busyLeft : Nat
  /-- Model's own: the words host reads have returned, newest first (log 1). -/
  hostReads : List Word
  /-- Model's own: how many free values have been drawn (log 14). -/
  draws : Nat
deriving DecidableEq, Repr

/-- The block right after reset (R50): idle, every parameter zero, CFG_INIT = 4, no buffer word written. -/
def State.reset : State where
  cmd := 0
  status := 0
  bitLen := 0
  cfgInit := 0x00000004
  freq := 0
  ampl := 0
  srate := 0
  qlevels := 0
  deltaRatio := 0
  tQuery := 0
  result := 0
  inCount := 0
  txCount := 0
  outCount := 0
  calcTime := 0
  mem := []
  faultMark := false
  inputs := []
  busyLeft := 0
  hostReads := []
  draws := 0

end Sys2Proof.Machine
end

