-- ==== Sys2Proof/Machine/Flags.lean ====
section
/-! DEFINITION. The status bits (R30, R44), the error codes (R163) and the fields of CFG_INIT (R32). The block has no
arithmetic flags (R44). -/

namespace Sys2Proof.Machine

/-- The errors of R163. -/
inductive ErrorCode where
  | invalidParameter | invalidInput | unsupportedScheme | capacityExceeded
deriving DecidableEq, Repr

/-- The number of an error (R163). -/
def errorNumber : ErrorCode → Word
  | .invalidParameter => 1
  | .invalidInput => 2
  | .unsupportedScheme => 3
  | .capacityExceeded => 4

/-- STATUS at acceptance: BUSY (R87). -/
def statusBusy : Word := 0x00000001

/-- STATUS after a successful completion: DONE (R88). -/
def statusDone : Word := 0x00000002

/-- STATUS after a failed completion: DONE, ERR and ERRCODE (R88, R171). -/
def statusError (e : ErrorCode) : Word := 0x00000006 ||| (errorNumber e <<< 8)

/-- STATUS.BUSY (R30). -/
def busyBit (status : Word) : Bool := status.getLsbD 0

/-- STATUS.DONE (R30). -/
def doneBit (status : Word) : Bool := status.getLsbD 1

/-- STATUS.ERR (R30). -/
def errBit (status : Word) : Bool := status.getLsbD 2

/-- STATUS.ERRCODE (R30). -/
def errCodeField (status : Word) : Nat := (status.extractLsb' 8 3).toNat

/-- The legal values of STATUS (R30): reserved bits 0, and the three implications between the fields. -/
def statusLegal (status : Word) : Bool :=
  (status &&& 0xFFFFF8F8 == 0) &&
  (!busyBit status || (!doneBit status && !errBit status && errCodeField status == 0)) &&
  (errBit status || errCodeField status == 0) &&
  (!errBit status || doneBit status)

/-- CFG_INIT stores v[2:0] (R64) and reads bits [31:3] as 0 (R28). -/
def cfgInitMask (v : Word) : Word := v &&& 0x00000007

/-- CFG_INIT.NRZI_INIT (R32). -/
def nrziInit (cfg : Word) : Bool := cfg.getLsbD 0

/-- CFG_INIT.DMAN_INIT (R32). -/
def dmanInit (cfg : Word) : Bool := cfg.getLsbD 1

/-- CFG_INIT.POL_INIT (R32). -/
def polInit (cfg : Word) : Bool := cfg.getLsbD 2

end Sys2Proof.Machine
end

