-- ==== Sys2Proof/Machine/Float.lean ====
section
/-! DEFINITION. Binary64 arithmetic on bit patterns (R17, R18, R20, R21), exact then rounded once: a finite magnitude is a
natural number of units of 2^-1074, the smallest positive binary64. -/

namespace Sys2Proof.Machine

/-- The sign bit. -/
def fsign (x : F64) : Bool := x.getLsbD 63

/-- The biased exponent, bits [62:52]. -/
def fexp (x : F64) : Nat := (x.extractLsb' 52 11).toNat

/-- The fraction, bits [51:0]. -/
def ffrac (x : F64) : Nat := (x.extractLsb' 0 52).toNat

/-- `x` is a NaN. -/
def isNaN (x : F64) : Bool := fexp x == 2047 && ffrac x != 0

/-- `x` is +∞ or −∞. -/
def isInf (x : F64) : Bool := fexp x == 2047 && ffrac x == 0

/-- `x` is neither infinite nor NaN (R18). -/
def isFinite (x : F64) : Bool := fexp x != 2047

/-- `x` is +0.0 or −0.0. -/
def isZero (x : F64) : Bool := fexp x == 0 && ffrac x == 0

/-- 1.0 in units of 2^-1074. -/
@[irreducible] def oneUnits : Nat := 2 ^ 1074

/-- The magnitude of a finite value, in units of 2^-1074. -/
def fmag (x : F64) : Nat :=
  if fexp x = 0 then ffrac x else (2 ^ 52 + ffrac x) * 2 ^ (fexp x - 1)

/-- A finite value as an exact integer number of units of 2^-1074. -/
def fscaled (x : F64) : Int := if fsign x then -(fmag x : Int) else (fmag x : Int)

/-- +0.0. -/
def fzero : F64 := 0x0000000000000000

/-- −0.0. -/
def fnegZero : F64 := 0x8000000000000000

/-- A pattern from its sign and its low 63 bits. -/
def fpack (neg : Bool) (bits : Nat) : F64 := BitVec.ofNat 64 (if neg then 2 ^ 63 + bits else bits)

/-- The infinity of a sign. -/
def finf (neg : Bool) : F64 := fpack neg 0x7FF0000000000000

/-- `num / den` rounded to the nearest natural number, ties to even. -/
def rneDiv (num den : Nat) : Nat :=
  let q := num / den
  let r := num % den
  if 2 * r < den then q else if den < 2 * r then q + 1 else q + q % 2

/-- The low 63 bits of the binary64 nearest `num / den` units of 2^-1074, ties to even, overflow to infinity (R17): the quotient is
rounded to a multiple of 2^e, where e leaves it 53 significant bits, or to a multiple of 1 if it is that small. -/
def roundBits (num den : Nat) : Nat :=
  let e := Nat.log2 (num / den) - 52
  min (e * 2 ^ 52 + rneDiv num (den * 2 ^ e)) 0x7FF0000000000000

/-- The binary64 nearest `± num / den` units of 2^-1074 (R17). -/
def fround (neg : Bool) (num den : Nat) : F64 := fpack neg (roundBits num den)

/-- A NaN result: some NaN, which one the spec does not say (log 5). -/
def nanResult (op : F64Op) (x y : F64) : F64 :=
  if isNaN (Config.nanPattern op x y) then Config.nanPattern op x y else 0x7FF8000000000000

/-- −x: the sign bit flipped. -/
def fneg (x : F64) : F64 := x ^^^ 0x8000000000000000

/-- x + y, answering `nan` where IEEE 754 makes a NaN. -/
def sumOr (nan x y : F64) : F64 :=
  if isNaN x || isNaN y then nan
  else if isInf x then (if isInf y && fsign x != fsign y then nan else x)
  else if isInf y then y
  else if fscaled x + fscaled y = 0 then (if fsign x && fsign y then fnegZero else fzero)
  else fround (decide (fscaled x + fscaled y < 0)) (fscaled x + fscaled y).natAbs 1

/-- x + y (R17). -/
def fadd (x y : F64) : F64 := sumOr (nanResult .add x y) x y

/-- x − y (R17). -/
def fsub (x y : F64) : F64 := sumOr (nanResult .sub x y) x (fneg y)

/-- x × y (R17). -/
def fmul (x y : F64) : F64 :=
  if isNaN x || isNaN y || (isInf x && isZero y) || (isZero x && isInf y) then nanResult .mul x y
  else if isInf x || isInf y then finf (fsign x != fsign y)
  else fround (fsign x != fsign y) (fmag x * fmag y) oneUnits

/-- x ÷ y (R17). -/
def fdiv (x y : F64) : F64 :=
  if isNaN x || isNaN y || (isInf x && isInf y) || (isZero x && isZero y) then nanResult .div x y
  else if isInf x || isZero y then finf (fsign x != fsign y)
  else if isInf y then fpack (fsign x != fsign y) 0
  else fround (fsign x != fsign y) (fmag x * oneUnits) (fmag y)

/-- The order of non-NaN values as an order of integers: the signed low 63 bits, both zeros 0. -/
def fkey (x : F64) : Int :=
  if fsign x then -((x.toNat % 2 ^ 63 : Nat) : Int) else ((x.toNat % 2 ^ 63 : Nat) : Int)

/-- x < y, false with a NaN (R18). -/
def flt (x y : F64) : Bool := !isNaN x && !isNaN y && decide (fkey x < fkey y)

/-- x ≤ y, false with a NaN (R18). -/
def fle (x y : F64) : Bool := !isNaN x && !isNaN y && decide (fkey x ≤ fkey y)

/-- x = y as an IEEE comparison, false with a NaN (R18). -/
def feq (x y : F64) : Bool := !isNaN x && !isNaN y && decide (fkey x = fkey y)

/-- max(x, y) (R14); of equal values, x (log 25). -/
def fmax (x y : F64) : F64 := if flt x y then y else x

/-- min(x, y) (R14); of equal values, x (log 25). -/
def fmin (x y : F64) : F64 := if flt y x then y else x

/-- clamp(v, lo, hi) = min(max(v, lo), hi) (R14); of a NaN, some value within the bounds (log 6). -/
def fclamp (v lo hi : F64) : F64 :=
  if isNaN v then
    if fle lo (Config.clampNaN v lo hi) && fle (Config.clampNaN v lo hi) hi then Config.clampNaN v lo hi else lo
  else fmin (fmax v lo) hi

/-- f64(n) (R18). -/
def f64 (n : Nat) : F64 := fround false (n * oneUnits) 1

/-- The binary64 nearest an integer. -/
def f64Int (n : Int) : F64 := fround (decide (n < 0)) (n.natAbs * oneUnits) 1

/-- The binary64 nearest the decimal `num / den` (R20). -/
def fdec (num den : Nat) : F64 := fround false (num * oneUnits) den

/-- floor(v) (R18), exact on a finite value; of an infinity or a NaN, the value itself (log 7). -/
def ffloor (v : F64) : F64 := if isFinite v then f64Int (fscaled v / (oneUnits : Int)) else v

/-- rhu(v) = floor(v + 0.5) (R18). -/
def rhu (v : F64) : F64 := ffloor (fadd v (fdec 1 2))

/-- round6(v) = rhu(v × 1e6) ÷ 1e6 (R21). -/
def round6 (v : F64) : F64 := fdiv (rhu (fmul v (f64 1000000))) (f64 1000000)

/-- +1.0. -/
def fone : F64 := f64 1

/-- PI (R20). -/
def fpi : F64 := 0x400921FB54442D18

/-- TWO_PI = 2 × PI (R20). -/
def twoPi : F64 := fmul (f64 2) fpi

/-- HALF_PI = PI ÷ 2 (R20). -/
def halfPi : F64 := fdiv fpi (f64 2)

/-- QUARTER_PI = PI ÷ 4 (R20). -/
def quarterPi : F64 := fdiv fpi (f64 4)

/-- SQRT1_2 (R20). -/
def sqrt12 : F64 := 0x3FE6A09E667F3BCD

/-- fsin (R19): the implementation's sine, with fsin(0) = 0. -/
def fsin (x : F64) : F64 := if x = fzero then fzero else Config.sineAway x

/-- fcos (R19): the implementation's cosine, with fcos(0) = 1. -/
def fcos (x : F64) : F64 := if x = fzero then fone else Config.cosineAway x

/-- The draw for CALC_TIME (R89): some binary64 value ≥ +0.0 (log 10). -/
def calcTimeDraw (n : Nat) : F64 := if fle fzero (Config.calcTime n) then Config.calcTime n else fzero

/-- The low word of a binary64, bits [31:0] (R28, R57). -/
def lo32 (x : F64) : Word := x.extractLsb' 0 32

/-- The high word of a binary64, bits [63:32] (R28, R57). -/
def hi32 (x : F64) : Word := x.extractLsb' 32 32

/-- The binary64 with pattern {hi, lo} (R57, R86). -/
def ofHalves (hi lo : Word) : F64 := hi ++ lo

end Sys2Proof.Machine
end

