-- ==== Sys2Proof/Machine/Ops.lean ====
section
/-! DEFINITION. The named operations over memory and registers: bytes, words and Points of the buffers, acceptance, the
commit of a result, the completion of an error, the fault mark, and reset. -/

namespace Sys2Proof.Machine

/-! ### Buffer memory -/

/-- The byte at a window offset; none where nothing has been written since reset (R47). -/
def memRead : Memory → Nat → Option Byte
  | [], _ => none
  | c :: m, a => if c.1 = a then some c.2 else memRead m a

/-- Bytes laid out at rising addresses from `a`. -/
def cellsFrom (a : Nat) : List Byte → Memory
  | [] => []
  | b :: bs => (a, b) :: cellsFrom (a + 1) bs

/-- The bytes `bs` stored from offset `a` up; every other byte keeps its content and its mark. The one write of the model. -/
def memWrite (m : Memory) (a : Nat) (bs : List Byte) : Memory :=
  m.filter (fun c => decide (c.1 < a)) ++ cellsFrom a bs ++ m.filter (fun c => decide (a + bs.length ≤ c.1))

/-- A word's bytes, lowest offset first: little-endian (R57). -/
def wordBytes (v : Word) : List Byte :=
  [v.extractLsb' 0 8, v.extractLsb' 8 8, v.extractLsb' 16 8, v.extractLsb' 24 8]

/-- The word at an offset; none if its written mark is clear (R47, R57). -/
def readWord (m : Memory) (a : Nat) : Option Word :=
  match memRead m a, memRead m (a + 1), memRead m (a + 2), memRead m (a + 3) with
  | some b0, some b1, some b2, some b3 => some (b3 ++ b2 ++ b1 ++ b0)
  | _, _, _, _ => none

/-- MemWrite of one buffer word, which sets its mark (R47, R64). -/
def writeWord (m : Memory) (a : Nat) (v : Word) : Memory := memWrite m a (wordBytes v)

/-- The 16 bytes of a Point: x, then y, each low word first (R57, R58). -/
def pointBytes (p : Point) : List Byte :=
  wordBytes (lo32 p.x) ++ wordBytes (hi32 p.x) ++ wordBytes (lo32 p.y) ++ wordBytes (hi32 p.y)

/-- The binary64 at an offset; none if the mark of one of its words is clear (R57). -/
def readF64 (m : Memory) (a : Nat) : Option F64 :=
  match readWord m a, readWord m (a + 4) with
  | some lo, some hi => some (ofHalves hi lo)
  | _, _ => none

/-- The Point at an offset; none if the mark of one of its four words is clear (R58, R105). -/
def readPoint (m : Memory) (a : Nat) : Option Point :=
  match readF64 m a, readF64 m (a + 8) with
  | some x, some y => some ⟨x, y⟩
  | _, _ => none

/-- Points stored from index 0 of the buffer at `base`, Point k at byte 16·k (R58, R94); the marks of their words are set (R88). -/
def writePoints (m : Memory) (base : Nat) (ps : List Point) : Memory := memWrite m base (ps.flatMap pointBytes)

/-! ### The address map (R52) -/

/-- The first window offset of space BIT. -/
def bitBase : Nat := 0x10000000

/-- The first window offset of space IN. -/
def inBase : Nat := 0x20000000

/-- The first window offset of space TX. -/
def txBase : Nat := 0x30000000

/-- The first window offset of space OUT. -/
def outBase : Nat := 0x40000000

/-- The size of BITBUF in bytes: 4 × ceil(MAX_BITS / 4) (R45). -/
def bitBytes : Nat := 4 * ((Config.maxBits + 3) / 4)

/-- The size of a point buffer in bytes: 16 × MAX_POINTS (R46, R54). -/
def pointBufferBytes : Nat := 16 * Config.maxPoints

/-! ### Completion (R88) -/

/-- The result of a LINE, DMOD, A2D or AMOD command (R16, the outcome Ok3 of R88). -/
structure Signal where
  input : List Point
  transmitted : List Point
  output : List Point
deriving DecidableEq, Repr

/-- Why a command does not succeed: an error, or the read of an unwritten word (the outcomes Err and Fault of R88). -/
inductive Stop where
  | error (e : ErrorCode)
  | unwritten
deriving DecidableEq, Repr

/-- STATUS.BUSY of a state. -/
def State.busy (s : State) : Bool := busyBit s.status

/-- Setting the fault mark; nothing else changes (R49, R88). -/
def setFaultMark (s : State) : State := { s with faultMark := true }

/-- The commit of Ok3 (R88): the three sequences to their buffers from index 0, the counts, a draw to CALC_TIME (R89), DONE. -/
def commitSignal (s : State) (r : Signal) : State :=
  { s with
    mem := writePoints (writePoints (writePoints s.mem inBase r.input) txBase r.transmitted) outBase r.output
    inCount := BitVec.ofNat 32 r.input.length
    txCount := BitVec.ofNat 32 r.transmitted.length
    outCount := BitVec.ofNat 32 r.output.length
    calcTime := calcTimeDraw s.draws
    draws := s.draws + 1
    status := statusDone }

/-- The commit of Ok1 (R88): RESULT and DONE. -/
def commitResult (s : State) (v : F64) : State := { s with result := v, status := statusDone }

/-- Error completion, the block's analogue of trap entry (R88, R171): the counts to 0 for every family but INTERP and for a
word that is no command (`fam = none`), then DONE, ERR and ERRCODE. Buffers, RESULT and CALC_TIME keep their values. -/
def errorCompletion (s : State) (fam : Option Family) (e : ErrorCode) : State :=
  if fam = some .interp then { s with status := statusError e }
  else { s with inCount := 0, txCount := 0, outCount := 0, status := statusError e }

/-- Acceptance (R87): CMD holds the word and STATUS is BUSY. It is also the only return from an error: it clears ERR and
ERRCODE (R173). The delay to completion is drawn here (log 2). -/
def acceptCommand (s : State) (w : Word) : State :=
  { s with cmd := w, status := statusBusy, busyLeft := Config.busyDelay s.draws, draws := s.draws + 1 }

/-- What completion does with the outcome of a LINE, DMOD, A2D or AMOD command (R88). -/
def finishSignal (s : State) (fam : Family) : Except Stop Signal → State
  | .ok r => commitSignal s r
  | .error (.error e) => errorCompletion s (some fam) e
  | .error .unwritten => setFaultMark s

/-- What completion does with the outcome of an INTERP command (R88). -/
def finishResult (s : State) : Except Stop F64 → State
  | .ok v => commitResult s v
  | .error (.error e) => errorCompletion s (some .interp) e
  | .error .unwritten => setFaultMark s

/-- The reset event (R183): every register and buffer mark to its reset value (R50), a busy command abandoned. The fault
mark stays (R49), and so do the model's own record of the host and of the draws (log 22). -/
def resetBlock (s : State) : State :=
  { State.reset with faultMark := s.faultMark, inputs := s.inputs, hostReads := s.hostReads, draws := s.draws }

end Sys2Proof.Machine
end

