-- ==== Sys2Proof/Machine/Operands.lean ====
section
/-! DEFINITION. The operand forms of the commands: the bit string of BITBUF (R91), the Points of INBUF (R105), and the checked
parameter registers (R92, R148). A command word has no operand field (R76). -/

namespace Sys2Proof.Machine

/-- BITBUF byte i: bits [8·(i mod 4)+7 : 8·(i mod 4)] of the BIT word at 4 × (i div 4); none if the mark of that word is
clear (R47, R59). -/
def readBitByte (m : Memory) (i : Nat) : Option Byte :=
  (readWord m (bitBase + 4 * (i / 4))).map fun w => w.extractLsb' (8 * (i % 4)) 8

/-- The loop of ReadBits (R91) over `n` bytes from byte `i`, in ascending order. -/
def readBitsFrom (m : Memory) : Nat → Nat → Except Stop (List Bool)
  | 0, _ => .ok []
  | n + 1, i =>
    match readBitByte m i with
    | none => .error .unwritten
    | some c =>
      if c = 0x30 then (readBitsFrom m n (i + 1)).map (false :: ·)
      else if c = 0x31 then (readBitsFrom m n (i + 1)).map (true :: ·)
      else .error (.error .invalidInput)

/-- ReadBits (R91). -/
def readBits (s : State) : Except Stop (List Bool) :=
  if s.bitLen.toNat = 0 ∨ Config.maxBits < s.bitLen.toNat then .error (.error .invalidInput)
  else readBitsFrom s.mem s.bitLen.toNat 0

/-- The loop of ReadPoints (R105) over `n` Points from Point `k`. -/
def readPointsFrom (m : Memory) : Nat → Nat → Except Stop (List Point)
  | 0, _ => .ok []
  | n + 1, k =>
    match readPoint m (inBase + 16 * k) with
    | none => .error .unwritten
    | some p => (readPointsFrom m n (k + 1)).map (p :: ·)

/-- ReadPoints (R105). -/
def readPoints (s : State) : Except Stop (List Point) :=
  if s.inCount.toNat = 0 ∨ Config.maxPoints < s.inCount.toNat then .error (.error .invalidInput)
  else readPointsFrom s.mem s.inCount.toNat 0

/-- Finite and > 0: the legal values of FREQ, AMPL and SRATE (R33 to R35). -/
def isPositiveFinite (x : F64) : Bool := isFinite x && flt fzero x

/-- A check that raises InvalidParameter. -/
def checkParameter (legal : Bool) : Except Stop Unit :=
  if legal then .ok () else .error (.error .invalidParameter)

/-- CheckAnalog (R92): FREQ, then AMPL. -/
def checkAnalog (s : State) : Except Stop Unit := do
  checkParameter (isPositiveFinite s.freq)
  checkParameter (isPositiveFinite s.ampl)

/-- CheckA2DConfig for PCM (R148): SRATE, then QLEVELS. -/
def checkPcmConfig (s : State) : Except Stop Unit := do
  checkParameter (isPositiveFinite s.srate)
  checkParameter (decide (2 ≤ s.qlevels.toNat))

/-- CheckA2DConfig for DELTA (R148): SRATE, then DELTA_RATIO. -/
def checkDeltaConfig (s : State) : Except Stop Unit := do
  checkParameter (isPositiveFinite s.srate)
  checkParameter (flt fzero s.deltaRatio && fle s.deltaRatio fone)

/-- A check that raises CapacityExceeded (R149): a sequence of `n` Points must fit a buffer. -/
def checkCapacity (n : Nat) : Except Stop Unit :=
  if Config.maxPoints < n then .error (.error .capacityExceeded) else .ok ()

end Sys2Proof.Machine
end

