-- ==== Sys2Proof/Machine/Sampler.lean ====
section
/-! DEFINITION. The waveform sampler (R99, R100), the flat segments of a step function (R108), and the interpolation helper
(R101) with its command INTERP.LINEAR (R106). -/

namespace Sys2Proof.Machine

/-- The time of sample i at a rate of `sps` samples per second: f64(i) ÷ f64(sps) (R99). -/
def sampleTime (sps i : Nat) : F64 := fdiv (f64 i) (f64 sps)

/-- AnalogInput(f, A, sps) (R99): 2·sps + 1 samples of A × fsin((TWO_PI × f) × x). -/
def analogInput (f amp : F64) (sps : Nat) : List Point :=
  (List.range (2 * sps + 1)).map fun i =>
    ⟨sampleTime sps i, fmul amp (fsin (fmul (fmul twoPi f) (sampleTime sps i)))⟩

/-- Seg(i, v) (R108): bit i as a flat segment of value v. -/
def seg (i : Nat) (v : F64) : List Point := [⟨f64 i, v⟩, ⟨f64 (i + 1), v⟩]

/-- The flat segments of a list of values, the first in slot `i`. -/
def flatSegs : Nat → List F64 → List Point
  | _, [] => []
  | i, v :: vs => seg i v ++ flatSegs (i + 1) vs

/-- f64(b[i]) of a bit. -/
def bitLevel (b : Bool) : F64 := if b then f64 1 else f64 0

/-- DigitalInput(b) (R100): bit i is the points (i, b[i]) and (i + 1, b[i]). -/
def digitalInput (b : List Bool) : List Point := flatSegs 0 (b.map bitLevel)

/-- The result of a LINE or DMOD command: input and output are both DigitalInput(b) (R97, R107, R126). -/
def digitalSignal (b : List Bool) (tx : List Point) : Signal := ⟨digitalInput b, tx, digitalInput b⟩

/-- Element k of a Point sequence; the value past its end is never used by a command. -/
def pointAt (ps : List Point) (k : Nat) : Point := ps.getD k ⟨fzero, fzero⟩

/-- The binary search of R101, with as many rounds as `fuel`; hi − lo rounds always suffice. -/
def interpSearch (ps : List Point) (t : F64) : Nat → Nat → Nat → Nat × Nat
  | 0, lo, hi => (lo, hi)
  | fuel + 1, lo, hi =>
    if 1 < hi - lo then
      if fle (pointAt ps ((lo + hi) / 2)).x t then interpSearch ps t fuel ((lo + hi) / 2) hi
      else interpSearch ps t fuel lo ((lo + hi) / 2)
    else (lo, hi)

/-- The last two lines of R101: y at t on the line through two Points. -/
def interpBetween (p q : Point) (t : F64) : F64 :=
  fadd p.y (fmul (fdiv (fsub t p.x) (fsub q.x p.x)) (fsub q.y p.y))

/-- Interp(P, t) (R101), for a sequence of length ≥ 1 (the empty one is never interpolated: R105, log 18). -/
def interp (ps : List Point) (t : F64) : F64 :=
  if fle t (pointAt ps 0).x then (pointAt ps 0).y
  else if fle (pointAt ps (ps.length - 1)).x t then (pointAt ps (ps.length - 1)).y
  else
    let r := interpSearch ps t ps.length 0 (ps.length - 1)
    interpBetween (pointAt ps r.1) (pointAt ps r.2) t

/-- INTERP of R90: ReadPoints, the check of T_QUERY, Interp. -/
def interpOutcome (s : State) : Except Stop F64 := do
  let ps ← readPoints s
  checkParameter (!isNaN s.tQuery)
  .ok (interp ps s.tQuery)

/-- INTERP.LINEAR (R106). -/
def execInterpLinear (s : State) : Host.Outcome State Fault Refusal := .next (finishResult s (interpOutcome s))

end Sys2Proof.Machine
end

