-- ==== Sys2Proof/Machine/A2d.lean ====
section
/-! DEFINITION. The two analog-to-digital commands (R145 to R156). -/

namespace Sys2Proof.Machine

/-- tEnd, the x of the last Point of the 100-samples-per-second input, 2.0 (R145). -/
def tEnd : F64 := sampleTime 100 200

/-- T[k] = round6(f64(k) ÷ fs) (R146). -/
def sampleInstant (fs : F64) (k : Nat) : F64 := round6 (fdiv (f64 k) fs)

/-- The count of R146 from instant `k`, over at most `fuel` instants: it stops at the first T[k] > tEnd, because T is
non-decreasing (log 19). -/
def countInstants (fs : F64) : Nat → Nat → Nat
  | 0, k => k
  | fuel + 1, k => if fle (sampleInstant fs k) tEnd then countInstants fs fuel (k + 1) else k

/-- K (R146), counted to MAX_POINTS + 1 at most (R149). -/
def instantCount (fs : F64) : Nat := countInstants fs (Config.maxPoints + 1) 0

/-- The quantisation level q of R151 for the interpolated value v. -/
def pcmLevel (amp d v : F64) : F64 :=
  rhu (fmul (fclamp (fdiv (fadd v amp) (fmul (f64 2) amp)) fzero fone) d)

/-- The reconstruction r of R151: ((q ÷ D) × (2.0 × A)) − A. -/
def pcmReconstruct (amp d q : F64) : F64 := fsub (fmul (fdiv q d) (fmul (f64 2) amp)) amp

/-- A2D.PCM over its K instants (R151). -/
def pcmSignal (f amp fs : F64) (levels k : Nat) : Signal :=
  let inp := analogInput f amp 100
  let d := f64 (levels - 1)
  let q := fun j => pcmLevel amp d (interp inp (sampleInstant fs j))
  ⟨inp,
   (List.range k).map fun j => ⟨sampleInstant fs j, q j⟩,
   (List.range k).map fun j => ⟨sampleInstant fs j, pcmReconstruct amp d (q j)⟩⟩

/-- The bit of R154: 1 if v > a, strictly. -/
def deltaBit (v a : F64) : Bool := flt a v

/-- The update of R154: a ± δ, clamped to ±1.5 A. -/
def deltaNext (amp ratio v a : F64) : F64 :=
  fclamp (if deltaBit v a then fadd a (fmul amp ratio) else fsub a (fmul amp ratio))
    (fneg (fmul (fdec 3 2) amp)) (fmul (fdec 3 2) amp)

/-- The approximation a before instant k (R154): +0.0 before the first. -/
def deltaApprox (f amp fs ratio : F64) : Nat → F64
  | 0 => fzero
  | k + 1 => deltaNext amp ratio (interp (analogInput f amp 100) (sampleInstant fs k)) (deltaApprox f amp fs ratio k)

/-- The output Points of instant k (R154): the hold Point at max(t − 0.001, T[k−1]) and the step, or for k = 0 the step alone. -/
def deltaOutput (f amp fs ratio : F64) (k : Nat) : List Point :=
  let step : Point := ⟨sampleInstant fs k, deltaApprox f amp fs ratio (k + 1)⟩
  if k = 0 then [step]
  else [⟨fmax (fsub (sampleInstant fs k) (fdec 1 1000)) (sampleInstant fs (k - 1)), deltaApprox f amp fs ratio k⟩, step]

/-- A2D.DELTA over its K instants (R154). -/
def deltaSignal (f amp fs ratio : F64) (k : Nat) : Signal :=
  ⟨analogInput f amp 100,
   (List.range k).map fun j =>
     ⟨sampleInstant fs j,
      bitLevel (deltaBit (interp (analogInput f amp 100) (sampleInstant fs j)) (deltaApprox f amp fs ratio j))⟩,
   (List.range k).flatMap (deltaOutput f amp fs ratio) ++ [⟨tEnd, deltaApprox f amp fs ratio k⟩]⟩

/-- A2D.PCM of R90: the checks in the order of R150, then the signal. -/
def pcmOutcome (s : State) : Except Stop Signal := do
  checkAnalog s
  checkPcmConfig s
  checkCapacity (instantCount s.srate)
  .ok (pcmSignal s.freq s.ampl s.srate s.qlevels.toNat (instantCount s.srate))

/-- A2D.DELTA of R90: the checks in the order of R150, then the signal. -/
def deltaOutcome (s : State) : Except Stop Signal := do
  checkAnalog s
  checkDeltaConfig s
  checkCapacity (2 * instantCount s.srate)
  .ok (deltaSignal s.freq s.ampl s.srate s.deltaRatio (instantCount s.srate))

/-- A2D.PCM (R151). -/
def execA2dPcm (s : State) : Host.Outcome State Fault Refusal := .next (finishSignal s .a2d (pcmOutcome s))

/-- A2D.DELTA (R154). -/
def execA2dDelta (s : State) : Host.Outcome State Fault Refusal := .next (finishSignal s .a2d (deltaOutcome s))

end Sys2Proof.Machine
end

