-- ==== Sys2Proof/Machine/Amod.lean ====
section
/-! DEFINITION. The three analog modulation commands (R157 to R162). -/

namespace Sys2Proof.Machine

/-- fc = 5.0 × fm (R157). -/
def amodCarrier (fm : F64) : F64 := fmul (f64 5) fm

/-- y of AM (R160): (1.0 + 0.8 × (m ÷ A)) × fsin((TWO_PI × fc) × t). -/
def amSample (fm amp t m : F64) : F64 :=
  fmul (fadd (f64 1) (fmul (fdec 4 5) (fdiv m amp))) (fsin (fmul (fmul twoPi (amodCarrier fm)) t))

/-- y of FM (R161), by the literal formula: fsin(((TWO_PI × fc) × t) + ((((TWO_PI × df) × (m ÷ A)) × t) ÷ fm)), df = 0.5 × fc. -/
def fmSample (fm amp t m : F64) : F64 :=
  fsin (fadd (fmul (fmul twoPi (amodCarrier fm)) t)
    (fdiv (fmul (fmul (fmul twoPi (fmul (fdec 1 2) (amodCarrier fm))) (fdiv m amp)) t) fm))

/-- y of PM (R162): fsin(((TWO_PI × fc) × t) + (HALF_PI × (m ÷ A))). -/
def pmSample (fm amp t m : F64) : F64 :=
  fsin (fadd (fmul (fmul twoPi (amodCarrier fm)) t) (fmul halfPi (fdiv m amp)))

/-- AnalogModulate (R157): one transmitted Point for each of the 401 input Points, at the same x. -/
def amodSignal (fm amp : F64) (sample : F64 → F64 → F64 → F64 → F64) : Signal :=
  let inp := analogInput fm amp 200
  ⟨inp, inp.map fun p => ⟨p.x, sample fm amp p.x p.y⟩, inp⟩

/-- An AMOD command (R90): CheckAnalog, then the signal. -/
def amodOutcome (s : State) (sample : F64 → F64 → F64 → F64 → F64) : Except Stop Signal := do
  checkAnalog s
  .ok (amodSignal s.freq s.ampl sample)

/-- AMOD.AM (R160). -/
def execAmodAm (s : State) : Host.Outcome State Fault Refusal := .next (finishSignal s .amod (amodOutcome s amSample))

/-- AMOD.FM (R161). -/
def execAmodFm (s : State) : Host.Outcome State Fault Refusal := .next (finishSignal s .amod (amodOutcome s fmSample))

/-- AMOD.PM (R162). -/
def execAmodPm (s : State) : Host.Outcome State Fault Refusal := .next (finishSignal s .amod (amodOutcome s pmSample))

end Sys2Proof.Machine
end

