-- ==== Sys2Proof/Machine/Dmod.lean ====
section
/-! DEFINITION. The eleven digital modulation commands (R126 to R144). -/

namespace Sys2Proof.Machine

/-- SAMPLES_PER_BIT (R8). -/
def samplesPerBit : Nat := 100

/-- FC = 5.0 (R127). -/
def carrierHz : F64 := f64 5

/-- arg(f, t) = (TWO_PI × f) × t (R127). -/
def carrierArg (f t : F64) : F64 := fmul (fmul twoPi f) t

/-- t = f64(j) ÷ 100.0, the time of grid sample j (R128, R129). -/
def gridTime (j : Nat) : F64 := fdiv (f64 j) (f64 100)

/-- Bit k of a sequence; the value past its end is never used. -/
def bitAt (b : List Bool) (k : Nat) : Bool := b.getD k false

/-- BinaryGrid(b, sample) (R128): 100·N + 1 Points; the bit index comes from j, and the last sample belongs to the last bit. -/
def binaryGrid (b : List Bool) (sample : Nat → F64 → F64) : List Point :=
  (List.range (b.length * samplesPerBit + 1)).map fun j =>
    ⟨gridTime j, sample (min (j / samplesPerBit) (b.length - 1)) (gridTime j)⟩

/-- The number of symbols of width k: ceil(N / k) (R129). -/
def symbolCount (n k : Nat) : Nat := (n + k - 1) / k

/-- The padded bits of Pad(b, k) (R129): zeros on the right to a multiple of k. -/
def padBits (b : List Bool) (k : Nat) : List Bool :=
  b ++ List.replicate (k * symbolCount b.length k - b.length) false

/-- SymbolGrid(b, k, sample) (R129): 100·Np + 1 Points; `sample` gets the symbol's bits, the first the most significant, and the time. -/
def symbolGrid (b : List Bool) (k : Nat) (sample : List Bool → F64 → F64) : List Point :=
  let bp := padBits b k
  (List.range (bp.length * samplesPerBit + 1)).map fun j =>
    let sym := min (j / (k * samplesPerBit)) (symbolCount b.length k - 1)
    ⟨gridTime j, sample ((bp.drop (k * sym)).take k) (gridTime j)⟩

/-- The natural number of a symbol's bits, the first the most significant. -/
def bitsValue (cs : List Bool) : Nat := cs.foldl (fun v c => 2 * v + c.toNat) 0

/-- amp(b) of ASK: 1.0 and 0.2 (R132). -/
def askAmp (b : Bool) : F64 := if b then f64 1 else fdec 1 5

/-- fq(b) of FSK: 7.0 and 3.0 Hz (R133). -/
def fskHz (b : Bool) : F64 := if b then f64 7 else f64 3

/-- ph(b) of PSK: +0.0 and PI (R135). -/
def pskPhase (b : Bool) : F64 := if b then fzero else fpi

/-- The phases of DPSK (R137): θ toggles between +0.0 and PI at each 0 bit, before that bit's samples. -/
def dpskPhases : F64 → List Bool → List F64
  | _, [] => []
  | θ, true :: bs => θ :: dpskPhases θ bs
  | θ, false :: bs =>
    (if feq θ fzero then fpi else fzero) :: dpskPhases (if feq θ fzero then fpi else fzero) bs

/-- qph(cs), the QPSK constellation (R138). -/
def qpskPhase (c0 c1 : Bool) : F64 :=
  match c0, c1 with
  | true, true => quarterPi
  | false, true => fmul (f64 3) quarterPi
  | false, false => fmul (f64 5) quarterPi
  | true, false => fmul (f64 7) quarterPi

/-- +1.0 for 1 and −1.0 for 0, the I and Q levels of OQPSK (R139). -/
def iqSign (b : Bool) : F64 := if b then fone else fneg fone

/-- The I or Q level of 16-QAM of a bit pair: −3, −1, +1, +3 (R141). -/
def qamLevel (c0 c1 : Bool) : F64 := f64Int (2 * ((2 * c0.toNat + c1.toNat : Nat) : Int) - 3)

/-- ASK samples (R132). -/
def askTx (b : List Bool) : List Point :=
  binaryGrid b fun m t => fmul (askAmp (bitAt b m)) (fsin (carrierArg carrierHz t))

/-- FSK samples (R133). -/
def fskTx (b : List Bool) : List Point := binaryGrid b fun m t => fsin (carrierArg (fskHz (bitAt b m)) t)

/-- PSK samples (R135). -/
def pskTx (b : List Bool) : List Point :=
  binaryGrid b fun m t => fsin (fadd (carrierArg carrierHz t) (pskPhase (bitAt b m)))

/-- DPSK samples (R137). -/
def dpskTx (b : List Bool) : List Point :=
  binaryGrid b fun m t => fsin (fadd (carrierArg carrierHz t) ((dpskPhases fzero b).getD m fzero))

/-- QPSK samples (R138). -/
def qpskTx (b : List Bool) : List Point :=
  symbolGrid b 2 fun cs t => fsin (fadd (carrierArg carrierHz t) (qpskPhase (bitAt cs 0) (bitAt cs 1)))

/-- The in-phase symbol index of OQPSK at sample j of S symbols (R139). -/
def oqpskI (j count : Nat) : Nat := min (j / 200) (count - 1)

/-- The quadrature symbol index of OQPSK, delayed by half a symbol (R139). -/
def oqpskQ (j count : Nat) : Nat := if j < 100 then 0 else min ((j - 100) / 200) (count - 1)

/-- OQPSK samples (R139). -/
def oqpskTx (b : List Bool) : List Point :=
  let bp := padBits b 2
  let count := symbolCount b.length 2
  (List.range (bp.length * 100 + 1)).map fun j =>
    let t := gridTime j
    ⟨t, fmul (fadd (fmul (iqSign (bitAt bp (2 * oqpskI j count))) (fsin (carrierArg carrierHz t)))
                   (fmul (iqSign (bitAt bp (2 * oqpskQ j count + 1))) (fcos (carrierArg carrierHz t)))) sqrt12⟩

/-- 8-PSK samples (R140): phase v·π/4. -/
def mpskTx (b : List Bool) : List Point :=
  symbolGrid b 3 fun cs t => fsin (fadd (carrierArg carrierHz t) (fmul (f64 (bitsValue cs)) quarterPi))

/-- 16-QAM samples (R141). -/
def qamTx (b : List Bool) : List Point :=
  symbolGrid b 4 fun cs t =>
    fdiv (fadd (fmul (qamLevel (bitAt cs 0) (bitAt cs 1)) (fsin (carrierArg carrierHz t)))
               (fmul (qamLevel (bitAt cs 2) (bitAt cs 3)) (fcos (carrierArg carrierHz t)))) (f64 3)

/-- 4-FSK samples (R142): 3 + 2·v Hz. -/
def mfskTx (b : List Bool) : List Point :=
  symbolGrid b 2 fun cs t => fsin (carrierArg (f64 (3 + 2 * bitsValue cs)) t)

/-- A DMOD command (R90, R126): ReadBits, then the transmitted sequence of the scheme. -/
def dmodOutcome (s : State) (tx : List Bool → List Point) : Except Stop Signal := do
  let b ← readBits s
  .ok (digitalSignal b (tx b))

/-- DMOD.ASK (R132). -/
def execDmodAsk (s : State) : Host.Outcome State Fault Refusal := .next (finishSignal s .dmod (dmodOutcome s askTx))

/-- DMOD.FSK (R133). -/
def execDmodFsk (s : State) : Host.Outcome State Fault Refusal := .next (finishSignal s .dmod (dmodOutcome s fskTx))

/-- DMOD.PSK (R135). -/
def execDmodPsk (s : State) : Host.Outcome State Fault Refusal := .next (finishSignal s .dmod (dmodOutcome s pskTx))

/-- DMOD.BFSK (R134): every output as DMOD.FSK. -/
def execDmodBfsk (s : State) : Host.Outcome State Fault Refusal := .next (finishSignal s .dmod (dmodOutcome s fskTx))

/-- DMOD.MFSK (R142). -/
def execDmodMfsk (s : State) : Host.Outcome State Fault Refusal := .next (finishSignal s .dmod (dmodOutcome s mfskTx))

/-- DMOD.BPSK (R136): every output as DMOD.PSK. -/
def execDmodBpsk (s : State) : Host.Outcome State Fault Refusal := .next (finishSignal s .dmod (dmodOutcome s pskTx))

/-- DMOD.DPSK (R137). -/
def execDmodDpsk (s : State) : Host.Outcome State Fault Refusal := .next (finishSignal s .dmod (dmodOutcome s dpskTx))

/-- DMOD.QPSK (R138). -/
def execDmodQpsk (s : State) : Host.Outcome State Fault Refusal := .next (finishSignal s .dmod (dmodOutcome s qpskTx))

/-- DMOD.OQPSK (R139). -/
def execDmodOqpsk (s : State) : Host.Outcome State Fault Refusal := .next (finishSignal s .dmod (dmodOutcome s oqpskTx))

/-- DMOD.MPSK (R140). -/
def execDmodMpsk (s : State) : Host.Outcome State Fault Refusal := .next (finishSignal s .dmod (dmodOutcome s mpskTx))

/-- DMOD.QAM (R141). -/
def execDmodQam (s : State) : Host.Outcome State Fault Refusal := .next (finishSignal s .dmod (dmodOutcome s qamTx))

end Sys2Proof.Machine
end

