-- ==== Sys2Proof/Machine/Line.lean ====
section
/-! DEFINITION. The eight line codes (R107 to R125). The working state of a scheme (R48) is the arguments of its recursion, created
at each command and dropped at its end; the scan index i is the position in the list. -/

namespace Sys2Proof.Machine

/-- lvl(b): +1.0 for 0 and −1.0 for 1 (R32). -/
def lvl (b : Bool) : F64 := if b then fneg fone else fone

/-- MSeg(i, h, l) (R108): bit i with a transition at mid-bit. -/
def mseg (i : Nat) (h l : F64) : List Point :=
  [⟨f64 i, h⟩, ⟨fadd (f64 i) (fdec 1 2), h⟩, ⟨fadd (f64 i) (fdec 1 2), l⟩, ⟨f64 (i + 1), l⟩]

/-- The split segments of a list of (first half, second half) levels, the first in slot `i`. -/
def splitSegs : Nat → List (F64 × F64) → List Point
  | _, [] => []
  | i, v :: vs => mseg i v.1 v.2 ++ splitSegs (i + 1) vs

/-- NRZ-L voltages (R112). -/
def nrzLVolts (b : List Bool) : List F64 := b.map lvl

/-- NRZ-I voltages (R113); L is the current level. -/
def nrzIVolts : F64 → List Bool → List F64
  | _, [] => []
  | l, true :: bs => fneg l :: nrzIVolts (fneg l) bs
  | l, false :: bs => l :: nrzIVolts l bs

/-- Manchester levels (R114): high-to-low for 0, low-to-high for 1. -/
def manchesterHalves (b : List Bool) : List (F64 × F64) :=
  b.map fun bit => if bit then (fneg fone, fone) else (fone, fneg fone)

/-- Differential Manchester levels (R115); L is the level at the end of the bit before. -/
def diffManchesterHalves : F64 → List Bool → List (F64 × F64)
  | _, [] => []
  | l, false :: bs => (fneg l, fneg (fneg l)) :: diffManchesterHalves (fneg (fneg l)) bs
  | l, true :: bs => (l, fneg l) :: diffManchesterHalves (fneg l) bs

/-- AMI voltages (R116); P is the last-mark polarity. -/
def amiVolts : F64 → List Bool → List F64
  | _, [] => []
  | p, false :: bs => fzero :: amiVolts p bs
  | p, true :: bs => fneg p :: amiVolts (fneg p) bs

/-- Pseudoternary voltages (R117); P is the last-mark polarity. -/
def pseudoternaryVolts : F64 → List Bool → List F64
  | _, [] => []
  | p, true :: bs => fzero :: pseudoternaryVolts p bs
  | p, false :: bs => fneg p :: pseudoternaryVolts (fneg p) bs

/-- B8ZS voltages (R118, R119): eight zeros from the scan index send 0, 0, 0, V, B, 0, V, B with V = P and B = −V, and P becomes B. -/
def b8zsVolts : F64 → List Bool → List F64
  | _, [] => []
  | p, false :: false :: false :: false :: false :: false :: false :: false :: bs =>
    [fzero, fzero, fzero, p, fneg p, fzero, p, fneg p] ++ b8zsVolts (fneg p) bs
  | p, false :: bs => fzero :: b8zsVolts p bs
  | p, true :: bs => fneg p :: b8zsVolts (fneg p) bs

/-- HDB3 voltages (R120, R121); P is the last-mark polarity and c the marks since the last substitution. Four zeros from the scan index send
0, 0, 0, V with V = P when c is even, and B, 0, 0, V with V = B = −P when it is odd; then P is V and c is 0. -/
def hdb3Volts : F64 → Nat → List Bool → List F64
  | _, _, [] => []
  | p, c, false :: false :: false :: false :: bs =>
    if c % 2 = 0 then [fzero, fzero, fzero, p] ++ hdb3Volts p 0 bs
    else [fneg p, fzero, fzero, fneg p] ++ hdb3Volts (fneg p) 0 bs
  | p, c, false :: bs => fzero :: hdb3Volts p c bs
  | p, c, true :: bs => fneg p :: hdb3Volts (fneg p) (c + 1) bs

/-- A LINE command (R90, R107): ReadBits, then the transmitted sequence of the scheme from the bits and CFG_INIT. -/
def lineOutcome (s : State) (tx : Word → List Bool → List Point) : Except Stop Signal := do
  let b ← readBits s
  .ok (digitalSignal b (tx s.cfgInit b))

/-- LINE.NRZ_L's transmitted sequence (R112). -/
def nrzLTx (_cfg : Word) (b : List Bool) : List Point := flatSegs 0 (nrzLVolts b)

/-- LINE.NRZ_I's transmitted sequence (R113). -/
def nrzITx (cfg : Word) (b : List Bool) : List Point := flatSegs 0 (nrzIVolts (lvl (nrziInit cfg)) b)

/-- LINE.MANCHESTER's transmitted sequence (R114). -/
def manchesterTx (_cfg : Word) (b : List Bool) : List Point := splitSegs 0 (manchesterHalves b)

/-- LINE.DIFF_MANCHESTER's transmitted sequence (R115). -/
def diffManchesterTx (cfg : Word) (b : List Bool) : List Point :=
  splitSegs 0 (diffManchesterHalves (lvl (dmanInit cfg)) b)

/-- LINE.AMI's transmitted sequence (R116). -/
def amiTx (cfg : Word) (b : List Bool) : List Point := flatSegs 0 (amiVolts (lvl (polInit cfg)) b)

/-- LINE.PSEUDOTERNARY's transmitted sequence (R117). -/
def pseudoternaryTx (cfg : Word) (b : List Bool) : List Point :=
  flatSegs 0 (pseudoternaryVolts (lvl (polInit cfg)) b)

/-- LINE.B8ZS's transmitted sequence (R109, R118). -/
def b8zsTx (cfg : Word) (b : List Bool) : List Point := flatSegs 0 (b8zsVolts (lvl (polInit cfg)) b)

/-- LINE.HDB3's transmitted sequence (R109, R120). -/
def hdb3Tx (cfg : Word) (b : List Bool) : List Point := flatSegs 0 (hdb3Volts (lvl (polInit cfg)) 0 b)

/-- LINE.NRZ_L (R112). -/
def execLineNrzL (s : State) : Host.Outcome State Fault Refusal := .next (finishSignal s .line (lineOutcome s nrzLTx))

/-- LINE.NRZ_I (R113). -/
def execLineNrzI (s : State) : Host.Outcome State Fault Refusal := .next (finishSignal s .line (lineOutcome s nrzITx))

/-- LINE.MANCHESTER (R114). -/
def execLineManchester (s : State) : Host.Outcome State Fault Refusal :=
  .next (finishSignal s .line (lineOutcome s manchesterTx))

/-- LINE.DIFF_MANCHESTER (R115). -/
def execLineDiffManchester (s : State) : Host.Outcome State Fault Refusal :=
  .next (finishSignal s .line (lineOutcome s diffManchesterTx))

/-- LINE.AMI (R116). -/
def execLineAmi (s : State) : Host.Outcome State Fault Refusal := .next (finishSignal s .line (lineOutcome s amiTx))

/-- LINE.PSEUDOTERNARY (R117). -/
def execLinePseudoternary (s : State) : Host.Outcome State Fault Refusal :=
  .next (finishSignal s .line (lineOutcome s pseudoternaryTx))

/-- LINE.B8ZS (R118). -/
def execLineB8zs (s : State) : Host.Outcome State Fault Refusal := .next (finishSignal s .line (lineOutcome s b8zsTx))

/-- LINE.HDB3 (R120). -/
def execLineHdb3 (s : State) : Host.Outcome State Fault Refusal := .next (finishSignal s .line (lineOutcome s hdb3Tx))

end Sys2Proof.Machine
end

