-- ==== Sys2Proof/Machine/Dispatch.lean ====
section
/-! DEFINITION. The completion step of each command (R88, R90): one arm per row of the opcode table. -/

namespace Sys2Proof.Machine

def exec (i : Instr) (s : State) : Host.Outcome State Fault Refusal :=
  match i with
  | .lineNrzL => Sys2Proof.Machine.execLineNrzL s
  | .lineNrzI => Sys2Proof.Machine.execLineNrzI s
  | .lineManchester => Sys2Proof.Machine.execLineManchester s
  | .lineDiffManchester => Sys2Proof.Machine.execLineDiffManchester s
  | .lineAmi => Sys2Proof.Machine.execLineAmi s
  | .linePseudoternary => Sys2Proof.Machine.execLinePseudoternary s
  | .lineB8zs => Sys2Proof.Machine.execLineB8zs s
  | .lineHdb3 => Sys2Proof.Machine.execLineHdb3 s
  | .dmodAsk => Sys2Proof.Machine.execDmodAsk s
  | .dmodFsk => Sys2Proof.Machine.execDmodFsk s
  | .dmodPsk => Sys2Proof.Machine.execDmodPsk s
  | .dmodBfsk => Sys2Proof.Machine.execDmodBfsk s
  | .dmodMfsk => Sys2Proof.Machine.execDmodMfsk s
  | .dmodBpsk => Sys2Proof.Machine.execDmodBpsk s
  | .dmodDpsk => Sys2Proof.Machine.execDmodDpsk s
  | .dmodQpsk => Sys2Proof.Machine.execDmodQpsk s
  | .dmodOqpsk => Sys2Proof.Machine.execDmodOqpsk s
  | .dmodMpsk => Sys2Proof.Machine.execDmodMpsk s
  | .dmodQam => Sys2Proof.Machine.execDmodQam s
  | .a2dPcm => Sys2Proof.Machine.execA2dPcm s
  | .a2dDelta => Sys2Proof.Machine.execA2dDelta s
  | .amodAm => Sys2Proof.Machine.execAmodAm s
  | .amodFm => Sys2Proof.Machine.execAmodFm s
  | .amodPm => Sys2Proof.Machine.execAmodPm s
  | .interpLinear => Sys2Proof.Machine.execInterpLinear s

end Sys2Proof.Machine
end

