-- ==== Sys2Proof/Machine/HostBus.lean ====
section
/-! DEFINITION. The host's accesses to the window (R52 to R64, R187), the register map (R28), and the service of one input. -/

namespace Sys2Proof.Machine

/-- A 32-bit word of the register map (R28); a binary64 register is two words, low first. -/
inductive RegWord where
  | cmd | status | bitLen | cfgInit
  | freqLo | freqHi | amplLo | amplHi | srateLo | srateHi | qlevels
  | deltaRatioLo | deltaRatioHi | tQueryLo | tQueryHi | resultLo | resultHi
  | inCount | txCount | outCount | calcTimeLo | calcTimeHi | capBits | capPoints
  | reserved
deriving DecidableEq, Repr

/-- The map of R28: the word at an offset of space REG. -/
def regWordAt : Nat → RegWord
  | 0x000 => .cmd
  | 0x004 => .status
  | 0x008 => .bitLen
  | 0x00C => .cfgInit
  | 0x010 => .freqLo
  | 0x014 => .freqHi
  | 0x018 => .amplLo
  | 0x01C => .amplHi
  | 0x020 => .srateLo
  | 0x024 => .srateHi
  | 0x028 => .qlevels
  | 0x030 => .deltaRatioLo
  | 0x034 => .deltaRatioHi
  | 0x038 => .tQueryLo
  | 0x03C => .tQueryHi
  | 0x040 => .resultLo
  | 0x044 => .resultHi
  | 0x048 => .inCount
  | 0x04C => .txCount
  | 0x050 => .outCount
  | 0x058 => .calcTimeLo
  | 0x05C => .calcTimeHi
  | 0x060 => .capBits
  | 0x064 => .capPoints
  | _ => .reserved

/-- The word a register read returns (R28); CAP_BITS and CAP_POINTS are the parameters (R43), a reserved word is 0 (R53). -/
def readReg (s : State) : RegWord → Word
  | .cmd => s.cmd
  | .status => s.status
  | .bitLen => s.bitLen
  | .cfgInit => cfgInitMask s.cfgInit
  | .freqLo => lo32 s.freq
  | .freqHi => hi32 s.freq
  | .amplLo => lo32 s.ampl
  | .amplHi => hi32 s.ampl
  | .srateLo => lo32 s.srate
  | .srateHi => hi32 s.srate
  | .qlevels => s.qlevels
  | .deltaRatioLo => lo32 s.deltaRatio
  | .deltaRatioHi => hi32 s.deltaRatio
  | .tQueryLo => lo32 s.tQuery
  | .tQueryHi => hi32 s.tQuery
  | .resultLo => lo32 s.result
  | .resultHi => hi32 s.result
  | .inCount => s.inCount
  | .txCount => s.txCount
  | .outCount => s.outCount
  | .calcTimeLo => lo32 s.calcTime
  | .calcTimeHi => hi32 s.calcTime
  | .capBits => BitVec.ofNat 32 Config.maxBits
  | .capPoints => BitVec.ofNat 32 Config.maxPoints
  | .reserved => 0

/-- A binary64 with its low word replaced (R186). -/
def withLo (x : F64) (v : Word) : F64 := ofHalves (hi32 x) v

/-- A binary64 with its high word replaced (R186). -/
def withHi (x : F64) (v : Word) : F64 := ofHalves v (lo32 x)

/-- A register write while idle (R28, R64): CMD starts a command (R87), a read/write register stores, a read-only or reserved word
ignores the value. -/
def writeReg (s : State) (r : RegWord) (v : Word) : State :=
  match r with
  | .cmd => acceptCommand s v
  | .status => s
  | .bitLen => { s with bitLen := v }
  | .cfgInit => { s with cfgInit := cfgInitMask v }
  | .freqLo => { s with freq := withLo s.freq v }
  | .freqHi => { s with freq := withHi s.freq v }
  | .amplLo => { s with ampl := withLo s.ampl v }
  | .amplHi => { s with ampl := withHi s.ampl v }
  | .srateLo => { s with srate := withLo s.srate v }
  | .srateHi => { s with srate := withHi s.srate v }
  | .qlevels => { s with qlevels := v }
  | .deltaRatioLo => { s with deltaRatio := withLo s.deltaRatio v }
  | .deltaRatioHi => { s with deltaRatio := withHi s.deltaRatio v }
  | .tQueryLo => { s with tQuery := withLo s.tQuery v }
  | .tQueryHi => { s with tQuery := withHi s.tQuery v }
  | .resultLo => s
  | .resultHi => s
  | .inCount => { s with inCount := v }
  | .txCount => s
  | .outCount => s
  | .calcTimeLo => s
  | .calcTimeHi => s
  | .capBits => s
  | .capPoints => s
  | .reserved => s

/-- The registers whose read while BUSY returns a draw (R63): IN_COUNT, TX_COUNT, OUT_COUNT, RESULT, CALC_TIME. -/
def drawnWhileBusy : RegWord → Bool
  | .inCount | .txCount | .outCount | .resultLo | .resultHi | .calcTimeLo | .calcTimeHi => true
  | _ => false

/-- The words whose write is ignored even while BUSY: STATUS and the reserved words (R187, C13). -/
def ignoredWhileBusy : RegWord → Bool
  | .status | .reserved => true
  | _ => false

/-- What an access reaches (R52 to R55, R60). -/
inductive Target where
  /-- A register word. -/
  | reg (r : RegWord)
  /-- A buffer word at this window offset; `writable` for BIT and IN (R64). -/
  | buffer (a : Nat) (writable : Bool)
  /-- No legal access: another width, misaligned, unmapped, or past the end of a buffer. -/
  | refused
deriving DecidableEq, Repr

/-- A buffer word of space `base` if its offset is inside the space (R54). -/
def bufferTarget (base off size : Nat) (writable : Bool) : Target :=
  if off < size then .buffer (base + off) writable else .refused

/-- What a host access of `width` bits at window offset `off` reaches (R52 to R55, R60). -/
def target (width : Nat) (off : Word) : Target :=
  if width ≠ 32 ∨ off.toNat % 4 ≠ 0 then .refused
  else
    let o := off.toNat % 2 ^ 28
    match off.toNat / 2 ^ 28 with
    | 0 => .reg (regWordAt o)
    | 1 => bufferTarget bitBase o bitBytes true
    | 2 => bufferTarget inBase o pointBufferBytes true
    | 3 => bufferTarget txBase o pointBufferBytes false
    | 4 => bufferTarget outBase o pointBufferBytes false
    | _ => .refused

/-- A word handed to the host. -/
def answerRead (s : State) (v : Word) : State := { s with hostReads := v :: s.hostReads }

/-- A draw handed to the host (R63). -/
def answerDraw (s : State) : State :=
  { s with hostReads := Config.busyRead s.draws :: s.hostReads, draws := s.draws + 1 }

/-- MemRead (R47, R63). A buffer word with a clear mark sets the fault mark, BUSY or not (log 4). -/
def hostRead (s : State) (width : Nat) (off : Word) : State :=
  match target width off with
  | .refused => setFaultMark s
  | .reg r => if s.busy && drawnWhileBusy r then answerDraw s else answerRead s (readReg s r)
  | .buffer a _ =>
    match readWord s.mem a with
    | none => setFaultMark s
    | some v => if s.busy then answerDraw s else answerRead s v

/-- MemWrite (R64, R187): while BUSY every register write but those to STATUS and reserved words, and every buffer write, is refused. -/
def hostWrite (s : State) (width : Nat) (off v : Word) : State :=
  match target width off with
  | .refused => setFaultMark s
  | .reg r =>
    if ignoredWhileBusy r then s else if s.busy then setFaultMark s else writeReg s r v
  | .buffer a writable =>
    if s.busy then setFaultMark s else if writable then { s with mem := writeWord s.mem a v } else s

/-- The service of one input. -/
def serveInput (s : State) : HostInput → State
  | .read width off => hostRead s width off
  | .write width off v => hostWrite s width off v
  | .reset => resetBlock s

/-- The state once its first input has been taken from the queue; while BUSY it also counts towards completion (log 2). -/
def takeInput (s : State) (rest : List HostInput) : State :=
  { s with inputs := rest, busyLeft := if s.busy then s.busyLeft - 1 else s.busyLeft }

/-- The completion step is the next thing to happen: BUSY, and the drawn number of inputs has been served or no input is left
(R88; log 2). -/
def completionDue (s : State) : Bool := s.busy && (s.busyLeft == 0 || s.inputs.isEmpty)

/-- A step from a marked state: only a reset is served (R49, R183), and it leaves the mark set; anything else faults (log 3). -/
def markedStep (s : State) : Host.Outcome State Fault Refusal :=
  match s.inputs with
  | .reset :: rest => .next (serveInput (takeInput s rest) .reset)
  | _ => .fault .faultMarkSet

/-- A step of the host: its next input is served, or, with none left, the idle block holds its state (R182). -/
def hostStep (s : State) : Host.Outcome State Fault Refusal :=
  match s.inputs with
  | [] => .next s
  | i :: rest => .next (serveInput (takeInput s rest) i)

end Sys2Proof.Machine
end

