-- ==== Sys2Proof/Machine/Complete.lean ====
section
/-! DEFINITION. The completion step of the block (R88): the command word in CMD is decoded and its command executed. -/

namespace Sys2Proof.Machine

/-- Execute(CMD) and its commit (R88, R90). A word that selects no command ends with UnsupportedScheme, the counts zeroed (R83). -/
def completeCommand (s : State) : Host.Outcome State Fault Refusal :=
  match decode s.cmd with
  | .ok i => exec i s
  | .error _ => .next (errorCompletion s none .unsupportedScheme)

/-- One step of the whole: of a marked state, of the block, or of the host (R67). -/
def stepBlock (s : State) : Host.Outcome State Fault Refusal :=
  if s.faultMark then markedStep s
  else if completionDue s then completeCommand s
  else hostStep s

/-- CMD holds a table row's bits and the block is BUSY with completion due, so that the next step runs that command (log 15). -/
def loadCommand (s : State) (w : Word) : State :=
  { s with cmd := w, status := statusBusy, busyLeft := 0, faultMark := false }

end Sys2Proof.Machine
end

