-- ==== Sys2Proof/Machine/Step.lean ====
section
/-! DEFINITION. One step of the machine, and the placing of a command where the next step runs it. -/

namespace Sys2Proof.Machine

/-- One step (R67): a host input or a completion step of the block. -/
def step (s : State) : Host.Outcome State Fault Refusal := stepBlock s

/-- `s` with the command of the table row's bits `w` accepted and about to complete. The block fetches no program (R56, R71): a
command runs because the host wrote it to CMD, and this stands for that accepted write (log 15). -/
def State.withFetchWord (s : State) (nbits w : Nat) : State := loadCommand s (BitVec.ofNat 32 (w % 2 ^ nbits))

end Sys2Proof.Machine
end

