-- ==== Sys2Proof/Machine/HostProgram.lean ====
section
/-! DEFINITION. The host-program syntax of R85 and R86 as lists of host accesses. -/

namespace Sys2Proof.Machine

/-- `WR32 <offset>, <value>` (R85). -/
def wr32 (off : Nat) (v : Word) : List HostInput := [.write 32 (BitVec.ofNat 32 off) v]

/-- `RD32 <offset>` (R85). -/
def rd32 (off : Nat) : List HostInput := [.read 32 (BitVec.ofNat 32 off)]

/-- `CMD <mnemonic>` (R85). -/
def cmdWrite (i : Instr) : List HostInput := wr32 0x000 (encode i)

/-- `WRF64 REG:<reg>, <real>` for the register at `off` (R86). -/
def wrf64 (off : Nat) (x : F64) : List HostInput := wr32 off (lo32 x) ++ wr32 (off + 4) (hi32 x)

/-- The ASCII code of bit k, or of '0' past the end (R86). -/
def bitChar (b : List Bool) (k : Nat) : Byte := if b.getD k false then 0x31 else 0x30

/-- The BIT word w_k of a bit string (R86). -/
def bitWord (b : List Bool) (k : Nat) : Word :=
  bitChar b (4 * k + 3) ++ bitChar b (4 * k + 2) ++ bitChar b (4 * k + 1) ++ bitChar b (4 * k)

/-- `WRBITS "<s>"` (R86). -/
def wrbits (b : List Bool) : List HostInput :=
  (List.range ((b.length + 3) / 4)).flatMap (fun k => wr32 (bitBase + 4 * k) (bitWord b k))
    ++ wr32 0x008 (BitVec.ofNat 32 b.length)

/-- `WAIT` (R86) as `polls` reads of STATUS. -/
def waitPolls (polls : Nat) : List HostInput := (List.replicate polls (rd32 0x004)).flatten

/-- `RUN <mnemonic>` (R86). -/
def runCommand (i : Instr) (polls : Nat) : List HostInput := cmdWrite i ++ waitPolls polls

/-- `RDF64 <space>:<o>` (R86). -/
def rdf64 (off : Nat) : List HostInput := rd32 off ++ rd32 (off + 4)

/-- `RDPT <space>:<k>` for the space at `base` (R86). -/
def rdpt (base k : Nat) : List HostInput := rdf64 (base + 16 * k) ++ rdf64 (base + 16 * k + 8)

end Sys2Proof.Machine
end

