-- ==== Sys2Proof/Safety.lean ====
section
/-! DEFINITION. The terms claims are stated in: the invariant of the block, loaded operands, what a completion leaves behind, and the
transmitted sequences written out as the rules give them, by index and without the model's recursions. -/

namespace Sys2Proof.Machine

/-! ### The invariant -/

/-- The written mark of the word that holds offset `a` is set (R47): all four of its bytes are listed (log 11). -/
def WordMarked (m : Memory) (a : Nat) : Prop := ∀ k < 4, (memRead m (a / 4 * 4 + k)).isSome

/-- Offset `a` lies inside one of the four buffers (R45, R46, R54). -/
def InBuffers (a : Nat) : Prop :=
  (bitBase ≤ a ∧ a < bitBase + bitBytes) ∨ (inBase ≤ a ∧ a < inBase + pointBufferBytes) ∨
  (txBase ≤ a ∧ a < txBase + pointBufferBytes) ∨ (outBase ≤ a ∧ a < outBase + pointBufferBytes)

/-- What holds of the block in every state a run reaches: memory is canonical, lies in the buffers and is marked by whole words
(R47); STATUS is legal (R30); CFG_INIT's reserved bits are 0 (R32); TX_COUNT and OUT_COUNT fit their buffers (R41, R46); CALC_TIME is
not negative (R42). -/
structure Inv (s : State) : Prop where
  memCanonical : Memory.wf s.mem
  memInBuffers : ∀ a, (memRead s.mem a).isSome → InBuffers a
  memByWords : ∀ a, (memRead s.mem a).isSome → WordMarked s.mem a
  status : statusLegal s.status = true
  cfgInit : s.cfgInit &&& 0xFFFFFFF8 = 0
  txCount : s.txCount.toNat ≤ Config.maxPoints
  outCount : s.outCount.toNat ≤ Config.maxPoints
  calcTime : fle fzero s.calcTime = true

/-! ### Loaded operands -/

/-- The ASCII code of a bit (R45). -/
def bitCode (b : Bool) : Byte := if b then 0x31 else 0x30

/-- BITBUF byte `i` is written and holds `c`. -/
def BitByteIs (m : Memory) (i : Nat) (c : Byte) : Prop :=
  WordMarked m (bitBase + i) ∧ memRead m (bitBase + i) = some c

/-- BIT_LEN is legal and the first BIT_LEN bytes of BITBUF are the bit string `b` (R31, R45). -/
structure BitsLoaded (s : State) (b : List Bool) : Prop where
  length : b.length = s.bitLen.toNat
  positive : 0 < b.length
  fits : b.length ≤ Config.maxBits
  bytes : ∀ i, (h : i < b.length) → BitByteIs s.mem i (bitCode b[i])

/-- IN_COUNT is legal and the first IN_COUNT Points of INBUF are `ps` (R40, R46). -/
structure PointsLoaded (s : State) (ps : List Point) : Prop where
  length : ps.length = s.inCount.toNat
  positive : 0 < ps.length
  fits : ps.length ≤ Config.maxPoints
  points : ∀ k, (h : k < ps.length) → readPoint s.mem (inBase + 16 * k) = some ps[k]

/-- K is the number of sample instants not after t = 2.0 at rate `fs` (R146). -/
structure InstantsAre (fs : F64) (k : Nat) : Prop where
  before : ∀ j < k, fle (sampleInstant fs j) (f64 2) = true
  after : fle (sampleInstant fs k) (f64 2) = false

/-! ### What a step leaves behind -/

/-- The registers no command writes, and the model's record of the host, are the same. -/
structure SameParameters (s t : State) : Prop where
  cmd : t.cmd = s.cmd
  bitLen : t.bitLen = s.bitLen
  cfgInit : t.cfgInit = s.cfgInit
  freq : t.freq = s.freq
  ampl : t.ampl = s.ampl
  srate : t.srate = s.srate
  qlevels : t.qlevels = s.qlevels
  deltaRatio : t.deltaRatio = s.deltaRatio
  tQuery : t.tQuery = s.tQuery
  inputs : t.inputs = s.inputs
  busyLeft : t.busyLeft = s.busyLeft
  hostReads : t.hostReads = s.hostReads

/-- The sequence `ps` stands in the buffer at `base`, and the bytes of the buffer past it are as before (R88, R190). -/
def BufferHolds (s t : State) (base : Nat) (ps : List Point) : Prop :=
  (∀ k, (h : k < ps.length) → readPoint t.mem (base + 16 * k) = some ps[k]) ∧
  ∀ a, base + 16 * ps.length ≤ a → a < base + 2 ^ 28 → memRead t.mem a = memRead s.mem a

/-- The success of a LINE, DMOD, A2D or AMOD command (R88): the three sequences in their buffers, their lengths in the counts, a
non-negative draw in CALC_TIME, STATUS = DONE, and nothing else changed. -/
structure SignalCommitted (s t : State) (inp tx out : List Point) : Prop where
  status : t.status = 0x00000002
  inCount : t.inCount.toNat = inp.length
  txCount : t.txCount.toNat = tx.length
  outCount : t.outCount.toNat = out.length
  inBuffer : BufferHolds s t inBase inp
  txBuffer : BufferHolds s t txBase tx
  outBuffer : BufferHolds s t outBase out
  elsewhere : ∀ a, a < inBase ∨ outBase + 2 ^ 28 ≤ a → memRead t.mem a = memRead s.mem a
  calcTime : fle fzero t.calcTime = true
  result : t.result = s.result
  faultMark : t.faultMark = s.faultMark
  parameters : SameParameters s t

/-- An error completion with the counts zeroed (R171). -/
def zeroedError (s : State) (status : Word) : State :=
  { s with inCount := 0, txCount := 0, outCount := 0, status := status }

/-- Finite and > 0: the legal values of FREQ, AMPL and SRATE (R33 to R35). -/
def PositiveFinite (x : F64) : Prop := isFinite x = true ∧ flt fzero x = true

/-- How a LINE or DMOD command fails (R91, R111, R130): InvalidInput for an illegal BIT_LEN; and at the first byte that is not a written
'0' or '1', the fault mark if it is unwritten, InvalidInput if it is written. -/
def BitInputErrors (i : Instr) : Prop :=
  ∀ s : State,
    (s.bitLen.toNat = 0 ∨ Config.maxBits < s.bitLen.toNat → exec i s = .next (zeroedError s 0x00000206)) ∧
    (s.bitLen.toNat ≤ Config.maxBits → ∀ k < s.bitLen.toNat,
      (∀ j < k, BitByteIs s.mem j 0x30 ∨ BitByteIs s.mem j 0x31) →
        (¬ WordMarked s.mem (bitBase + k) → exec i s = .next { s with faultMark := true }) ∧
        (∀ c, BitByteIs s.mem k c → c ≠ 0x30 → c ≠ 0x31 → exec i s = .next (zeroedError s 0x00000206)))

/-! ### The register map written out -/

/-- The word at an offset of space REG (R28, R53). -/
def registerWord (s : State) (o : Nat) : Word :=
  if o = 0x000 then s.cmd
  else if o = 0x004 then s.status
  else if o = 0x008 then s.bitLen
  else if o = 0x00C then s.cfgInit &&& 7
  else if o = 0x010 then s.freq.extractLsb' 0 32
  else if o = 0x014 then s.freq.extractLsb' 32 32
  else if o = 0x018 then s.ampl.extractLsb' 0 32
  else if o = 0x01C then s.ampl.extractLsb' 32 32
  else if o = 0x020 then s.srate.extractLsb' 0 32
  else if o = 0x024 then s.srate.extractLsb' 32 32
  else if o = 0x028 then s.qlevels
  else if o = 0x030 then s.deltaRatio.extractLsb' 0 32
  else if o = 0x034 then s.deltaRatio.extractLsb' 32 32
  else if o = 0x038 then s.tQuery.extractLsb' 0 32
  else if o = 0x03C then s.tQuery.extractLsb' 32 32
  else if o = 0x040 then s.result.extractLsb' 0 32
  else if o = 0x044 then s.result.extractLsb' 32 32
  else if o = 0x048 then s.inCount
  else if o = 0x04C then s.txCount
  else if o = 0x050 then s.outCount
  else if o = 0x058 then s.calcTime.extractLsb' 0 32
  else if o = 0x05C then s.calcTime.extractLsb' 32 32
  else if o = 0x060 then BitVec.ofNat 32 Config.maxBits
  else if o = 0x064 then BitVec.ofNat 32 Config.maxPoints
  else 0

/-- A binary64 register after a write of its low or its high word (R28, R57). -/
def lowReplaced (x : F64) (v : Word) : F64 := x.extractLsb' 32 32 ++ v
def highReplaced (x : F64) (v : Word) : F64 := v ++ x.extractLsb' 0 32

/-- The block after an idle write at an offset of space REG other than CMD (R28, R64): the read/write registers store, the rest ignore. -/
def registerWritten (s : State) (o : Nat) (v : Word) : State :=
  if o = 0x008 then { s with bitLen := v }
  else if o = 0x00C then { s with cfgInit := v &&& 7 }
  else if o = 0x010 then { s with freq := lowReplaced s.freq v }
  else if o = 0x014 then { s with freq := highReplaced s.freq v }
  else if o = 0x018 then { s with ampl := lowReplaced s.ampl v }
  else if o = 0x01C then { s with ampl := highReplaced s.ampl v }
  else if o = 0x020 then { s with srate := lowReplaced s.srate v }
  else if o = 0x024 then { s with srate := highReplaced s.srate v }
  else if o = 0x028 then { s with qlevels := v }
  else if o = 0x030 then { s with deltaRatio := lowReplaced s.deltaRatio v }
  else if o = 0x034 then { s with deltaRatio := highReplaced s.deltaRatio v }
  else if o = 0x038 then { s with tQuery := lowReplaced s.tQuery v }
  else if o = 0x03C then { s with tQuery := highReplaced s.tQuery v }
  else if o = 0x048 then { s with inCount := v }
  else s

/-- The registers whose read while BUSY is a draw (R63): RESULT, IN_COUNT, TX_COUNT, OUT_COUNT, CALC_TIME. -/
def drawnOffsets : List Nat := [0x040, 0x044, 0x048, 0x04C, 0x050, 0x058, 0x05C]

/-- A host read answered with a word, and one answered with a draw. -/
def answered (s : State) (v : Word) : State := { s with hostReads := v :: s.hostReads }
def answeredByDraw (s : State) : State :=
  { s with hostReads := Config.busyRead s.draws :: s.hostReads, draws := s.draws + 1 }

/-! ### Sequences written out -/

/-- The 0 V level, +1 and −1 (R108). -/
def voltZero : F64 := 0x0000000000000000
def voltPlus : F64 := 0x3FF0000000000000
def voltMinus : F64 := 0xBFF0000000000000

/-- +1 where `minus` is false, −1 where it is true. -/
def volt (minus : Bool) : F64 := if minus then voltMinus else voltPlus

/-- Bit i of a bit string. -/
def bit (b : List Bool) (i : Nat) : Bool := b.getD i false

/-- The number of 1 bits among the first `n`, odd or not. -/
def oddOnes (b : List Bool) (n : Nat) : Bool := (b.take n).count true % 2 == 1

/-- The number of 0 bits among the first `n`, odd or not. -/
def oddZeros (b : List Bool) (n : Nat) : Bool := (b.take n).count false % 2 == 1

/-- N slots, each a flat segment: points (i, v i) and (i + 1, v i) (R100, R108). -/
def flatSlots (n : Nat) (v : Nat → F64) : List Point :=
  (List.range n).flatMap fun i => [⟨f64 i, v i⟩, ⟨f64 (i + 1), v i⟩]

/-- N slots, each with a transition at mid-bit (R108). -/
def splitSlots (n : Nat) (h l : Nat → F64) : List Point :=
  (List.range n).flatMap fun i =>
    [⟨f64 i, h i⟩, ⟨fadd (f64 i) 0x3FE0000000000000, h i⟩, ⟨fadd (f64 i) 0x3FE0000000000000, l i⟩, ⟨f64 (i + 1), l i⟩]

/-- DigitalInput(b) (R100). -/
def digitalPoints (b : List Bool) : List Point :=
  flatSlots b.length fun i => if bit b i then voltPlus else voltZero

/-- The bits from `i` on for `n` positions exist and are all 0 (R119, R121). -/
def zeroRun (b : List Bool) (i n : Nat) : Bool := decide (i + n ≤ b.length) && (List.range n).all fun j => !bit b (i + j)

/-- The points Seg(i + j, pat[j]) of a substituted group (R109). -/
def patternPoints (i : Nat) (pat : List F64) : List Point :=
  (List.range pat.length).flatMap fun j =>
    [⟨f64 (i + j), pat.getD j voltZero⟩, ⟨f64 (i + j + 1), pat.getD j voltZero⟩]

/-- The while loop of R118 from scan index `i` with last-mark polarity `p`, for at most `fuel` rounds. -/
def b8zsLoop (b : List Bool) : Nat → Nat → F64 → List Point
  | 0, _, _ => []
  | fuel + 1, i, p =>
    if i < b.length then
      if zeroRun b i 8 then
        patternPoints i [voltZero, voltZero, voltZero, p, fneg p, voltZero, p, fneg p] ++ b8zsLoop b fuel (i + 8) (fneg p)
      else if bit b i then patternPoints i [fneg p] ++ b8zsLoop b fuel (i + 1) (fneg p)
      else patternPoints i [voltZero] ++ b8zsLoop b fuel (i + 1) p
    else []

/-- The while loop of R120 from scan index `i` with last-mark polarity `p` and mark count `c`, for at most `fuel` rounds. -/
def hdb3Loop (b : List Bool) : Nat → Nat → F64 → Nat → List Point
  | 0, _, _, _ => []
  | fuel + 1, i, p, c =>
    if i < b.length then
      if zeroRun b i 4 then
        if c % 2 = 0 then patternPoints i [voltZero, voltZero, voltZero, p] ++ hdb3Loop b fuel (i + 4) p 0
        else patternPoints i [fneg p, voltZero, voltZero, fneg p] ++ hdb3Loop b fuel (i + 4) (fneg p) 0
      else if bit b i then patternPoints i [fneg p] ++ hdb3Loop b fuel (i + 1) (fneg p) (c + 1)
      else patternPoints i [voltZero] ++ hdb3Loop b fuel (i + 1) p c
    else []

/-- The time of carrier sample j, and arg(f, t) (R127, R128). -/
def sampleAt (j : Nat) : F64 := fdiv (f64 j) (f64 100)
def phaseArg (f t : F64) : F64 := fmul (fmul twoPi f) t

/-- The binary grid of N bits (R128): `y m t` for samples 0 to 100·N, m = min(j div 100, N − 1). -/
def binarySamples (n : Nat) (y : Nat → F64 → F64) : List Point :=
  (List.range (100 * n + 1)).map fun j => ⟨sampleAt j, y (min (j / 100) (n - 1)) (sampleAt j)⟩

/-- Np = k·ceil(N / k), the padded length (R129). -/
def paddedLength (n k : Nat) : Nat := k * ((n + k - 1) / k)

/-- The symbol grid (R129): `y i t` for samples 0 to 100·Np, where the symbol's bits are b[i], b[i+1], ..., a bit past the end being 0. -/
def symbolSamples (n k : Nat) (y : Nat → F64 → F64) : List Point :=
  (List.range (100 * paddedLength n k + 1)).map fun j =>
    ⟨sampleAt j, y (k * min (j / (100 * k)) (paddedLength n k / k - 1)) (sampleAt j)⟩

/-- AnalogInput(f, A, sps) (R99): samples 0 to 2·sps, at f64(i) ÷ f64(sps). -/
def analogPoints (f amp : F64) (sps : Nat) : List Point :=
  (List.range (2 * sps + 1)).map fun i =>
    ⟨fdiv (f64 i) (f64 sps), fmul amp (fsin (fmul (fmul twoPi f) (fdiv (f64 i) (f64 sps))))⟩

/-- qph of QPSK (R138). -/
def qpskAngle (c0 c1 : Bool) : F64 :=
  if c0 then (if c1 then quarterPi else fmul 0x401C000000000000 quarterPi)
  else (if c1 then fmul 0x4008000000000000 quarterPi else fmul 0x4014000000000000 quarterPi)

/-- The level of a bit pair in 16-QAM: −3, −1, +1, +3 for 00, 01, 10, 11 (R141). -/
def qamAxis (c0 c1 : Bool) : F64 :=
  if c0 then (if c1 then 0x4008000000000000 else 0x3FF0000000000000)
  else (if c1 then 0xBFF0000000000000 else 0xC008000000000000)

/-- The OQPSK sample j of S symbols (R139): the in-phase bit of symbol min(j div 200, S − 1), the quadrature bit half a symbol later. -/
def oqpskSample (b : List Bool) (count j : Nat) : F64 :=
  let a := min (j / 200) (count - 1)
  let q := if j < 100 then 0 else min ((j - 100) / 200) (count - 1)
  fmul (fadd (fmul (volt (!bit b (2 * a))) (fsin (phaseArg 0x4014000000000000 (sampleAt j))))
             (fmul (volt (!bit b (2 * q + 1))) (fcos (phaseArg 0x4014000000000000 (sampleAt j))))) sqrt12

/-- The staircase of A2D.DELTA over K instants T with approximations a (R154). -/
def staircase (k : Nat) (T a : Nat → F64) : List Point :=
  (List.range k).flatMap (fun j =>
    if j = 0 then [⟨T 0, a 1⟩]
    else [⟨fmax (fsub (T j) 0x3F50624DD2F1A9FC) (T (j - 1)), a j⟩, ⟨T j, a (j + 1)⟩])
    ++ [⟨0x4000000000000000, a k⟩]

/-- The value of a binary64 as a rational number; of an infinity or a NaN it means nothing. -/
def fvalue (x : F64) : ℚ := (fscaled x : ℚ) / (oneUnits : ℚ)

/-- The infinity and the zero of a sign. -/
def signedInf (neg : Bool) : F64 := if neg then 0xFFF0000000000000 else 0x7FF0000000000000
def signedZero (neg : Bool) : F64 := if neg then 0x8000000000000000 else 0x0000000000000000

/-- `r` is the finite binary64 nearest `q`, the even one of two that are equally near (R17). -/
def NearestEven (r : F64) (q : ℚ) : Prop :=
  ∀ y, isFinite y = true → |fvalue r - q| ≤ |fvalue y - q| ∧
    (fvalue y ≠ fvalue r → |fvalue r - q| = |fvalue y - q| → r.getLsbD 0 = false)

end Sys2Proof.Machine
end

