-- ==== Sys2Proof/Certificates/Slice0/Obligations.lean ====
section
/-! DEFINITION. The statements for the provers, each about the machine and none about a program. -/

open Sys2Proof Sys2Proof.Machine

/-! ### Decoding -/

/-- One word of each family, and the last schemes, written out from R77 to R81. -/
def Obligations.DecodeSampleWords : Prop :=
  decode 0x00000000 = .ok .lineNrzL ∧ decode 0x00000007 = .ok .lineHdb3 ∧ decode 0x00000014 = .ok .dmodMfsk ∧
  decode 0x0000001A = .ok .dmodQam ∧ decode 0x00000021 = .ok .a2dDelta ∧ decode 0x00000032 = .ok .amodPm ∧
  decode 0x00000040 = .ok .interpLinear

/-- R82: decoding and encoding agree in both directions, every word is a command word or is rejected, and a rejected word ends with
UnsupportedScheme. -/
def Obligations.DecodeExact : Prop :=
  (∀ i, i.wellFormed = true → decode (encode i) = .ok i) ∧
  (∀ w i, decode w = .ok i → w = encode i) ∧
  (∀ w, (∀ i, w ≠ encode i) → (∃ e, decode w = .error e) ∧
    ∀ s : State, s.cmd = w → completeCommand s = .next (zeroedError s 0x00000306))

/-- R166: all words but 25 end with UnsupportedScheme, among them those with a defined FAMILY and SCHEME and a non-zero RSVD, and CMD
still reads as the word. -/
def Obligations.ReservedWordCompletes : Prop :=
  (∃ ws : List Word, ws.Nodup ∧ ws.length = 25 ∧
    ∀ s : State, (s.cmd ∈ ws → ∃ i, decode s.cmd = .ok i) ∧
      (s.cmd ∉ ws → ∃ t, completeCommand s = .next t ∧ errBit t.status = true ∧ errCodeField t.status = 3 ∧
        t.cmd = s.cmd ∧ hostRead t 32 0x00000000 = answered t s.cmd)) ∧
  (∀ s : State, s.cmd.toNat / 256 ≠ 0 → completeCommand s = .next (zeroedError s 0x00000306))

/-! ### The step -/

/-- A step runs the command that CMD decodes to. When completion comes due is the model's choice (log 2); that
`withFetchWord` stands for an accepted write of CMD is log 15. -/
def Obligations.StepRunsDecodedCommand : Prop :=
  (∀ (s : State) (i : Instr), s.faultMark = false → s.busy = true → (s.busyLeft = 0 ∨ s.inputs = []) →
    i.wellFormed = true → decode s.cmd = .ok i → step s = exec i s) ∧
  (∀ (s : State) (nbits w : Nat) (i : Instr), decodeTableWord nbits w = some i →
    step (s.withFetchWord nbits w) = exec i (s.withFetchWord nbits w))

/-- What else a step is: the service of the next input, the idle block holding its state (R182), the fault of a marked state (R49).
The queue of inputs, the countdown and the stop in a marked state are the model's (logs 1, 2 and 3). -/
def Obligations.StepServesInputs : Prop :=
  (∀ (s : State) (i : HostInput) (rest : List HostInput), s.faultMark = false → s.inputs = i :: rest →
    (s.busy = false → step s = .next (serveInput { s with inputs := rest } i)) ∧
    (s.busy = true → s.busyLeft ≠ 0 →
      step s = .next (serveInput { s with inputs := rest, busyLeft := s.busyLeft - 1 } i))) ∧
  (∀ s : State, s.faultMark = false → s.busy = false → s.inputs = [] → step s = .next s) ∧
  (∀ s : State, s.faultMark = true → (∀ rest, s.inputs ≠ .reset :: rest) → step s = .fault .faultMarkSet)

/-- R50: the state after reset. -/
def Obligations.ResetValues : Prop :=
  State.reset.cmd = 0 ∧ State.reset.status = 0 ∧ State.reset.bitLen = 0 ∧ State.reset.cfgInit = 0x00000004 ∧
  State.reset.freq = 0 ∧ State.reset.ampl = 0 ∧ State.reset.srate = 0 ∧ State.reset.deltaRatio = 0 ∧
  State.reset.tQuery = 0 ∧ State.reset.result = 0 ∧ State.reset.calcTime = 0 ∧ State.reset.qlevels = 0 ∧
  State.reset.inCount = 0 ∧ State.reset.txCount = 0 ∧ State.reset.outCount = 0 ∧
  readReg State.reset .capBits = BitVec.ofNat 32 Config.maxBits ∧
  readReg State.reset .capPoints = BitVec.ofNat 32 Config.maxPoints ∧
  (∀ a, ¬ WordMarked State.reset.mem a) ∧ State.reset.faultMark = false

/-- R183: the reset event, in any state: registers and marks as in R50, the fault mark kept, a busy command gone without a
completion step. -/
def Obligations.ResetEvent : Prop :=
  ∀ s t : State, serveInput s .reset = t →
    t.cmd = 0 ∧ t.status = 0 ∧ t.bitLen = 0 ∧ t.cfgInit = 0x00000004 ∧ t.freq = 0 ∧ t.ampl = 0 ∧ t.srate = 0 ∧
    t.deltaRatio = 0 ∧ t.tQuery = 0 ∧ t.result = 0 ∧ t.calcTime = 0 ∧ t.qlevels = 0 ∧ t.inCount = 0 ∧
    t.txCount = 0 ∧ t.outCount = 0 ∧ (∀ a, ¬ WordMarked t.mem a) ∧ t.faultMark = s.faultMark ∧
    registerWord t 0x004 = 0 ∧ t.busy = false ∧ completionDue t = false

/-- R51: the first command after reset, with no parameter written, fails with its family's error. -/
def Obligations.FirstCommandAfterResetFails : Prop :=
  ∀ i : Instr, ∃ t, completeCommand (hostWrite State.reset 32 0x00000000 (encode i)) = .next t ∧
    ((i.family = .line ∨ i.family = .dmod) → t.status = 0x00000206) ∧
    ((i.family = .a2d ∨ i.family = .amod) → t.status = 0x00000106) ∧
    (i.family = .interp → t.status = 0x00000206)

/-- R87: an idle write of CMD stores the word and sets STATUS to BUSY; nothing else changes but the model's own countdown and count of
draws (logs 2 and 14). -/
def Obligations.AcceptanceOnCmdWrite : Prop :=
  ∀ (s : State) (w : Word), s.busy = false → ∃ delay,
    hostWrite s 32 0x00000000 w =
      { s with cmd := w, status := 0x00000001, busyLeft := delay, draws := s.draws + 1 }

/-- Weak fairness of R88 and R193, as log 2 models it: a BUSY block stops being BUSY, or the fault mark is set, within
busyLeft + 1 steps. -/
def Obligations.BusyBlockStopsBeingBusy : Prop :=
  ∀ s : State, s.busy = true → s.faultMark = false →
    ∃ k ≤ s.busyLeft + 1, ∃ t : State, Host.Core.run core k s = .next t ∧ (t.faultMark = true ∨ t.busy = false)

/-- R44, R173 and R183: in a step STATUS stays as it is, or a reset clears it, or an idle write of CMD is accepted, or the
completion of a BUSY block ends it with DONE. -/
def Obligations.StatusWriters : Prop :=
  ∀ s t : State, step s = .next t →
    t.status = s.status ∨
    (t.status = 0 ∧ ∃ rest, s.inputs = .reset :: rest) ∨
    (s.busy = false ∧ t.status = 0x00000001 ∧ ∃ rest, s.inputs = .write 32 0x00000000 t.cmd :: rest) ∨
    (s.busy = true ∧ completionDue s = true ∧ busyBit t.status = false ∧ doneBit t.status = true)

/-! ### The host's accesses -/

/-- R63 and R28: what a host read of a legal word answers. That an unwritten word sets the fault mark even while BUSY is log 4. -/
def Obligations.HostReadRule : Prop :=
  ∀ (s : State) (off : Word), off.toNat % 4 = 0 →
    (off.toNat < 0x10000000 →
      ((s.busy = true ∧ off.toNat ∈ drawnOffsets) → hostRead s 32 off = answeredByDraw s) ∧
      (¬(s.busy = true ∧ off.toNat ∈ drawnOffsets) → hostRead s 32 off = answered s (registerWord s off.toNat))) ∧
    (InBuffers off.toNat →
      (readWord s.mem off.toNat = none → hostRead s 32 off = { s with faultMark := true }) ∧
      (∀ v, readWord s.mem off.toNat = some v →
        (s.busy = true → hostRead s 32 off = answeredByDraw s) ∧
        (s.busy = false → hostRead s 32 off = answered s v)))

/-- R64 and R28, the idle block: a read/write register stores, a read-only or reserved one ignores, a BIT or IN word stores and nothing
else of memory changes, a TX or OUT word ignores. -/
def Obligations.HostWriteIdle : Prop :=
  ∀ (s : State) (off v : Word), s.busy = false → off.toNat % 4 = 0 →
    (off.toNat ≠ 0 → off.toNat < 0x10000000 → hostWrite s 32 off v = registerWritten s off.toNat v) ∧
    (InBuffers off.toNat → off.toNat < txBase →
      ∃ t, hostWrite s 32 off v = t ∧ t = { s with mem := t.mem } ∧ readWord t.mem off.toNat = some v ∧
        ∀ a, a < off.toNat ∨ off.toNat + 4 ≤ a → memRead t.mem a = memRead s.mem a) ∧
    (InBuffers off.toNat → txBase ≤ off.toNat → hostWrite s 32 off v = s)

/-- R54, R55 and R60: an access of another width, off alignment, to an unmapped space or past the end of a buffer sets the fault mark. That
it does nothing else is the model's choice (log 20), and so is that a refused read answers no word (log 16). -/
def Obligations.RefusedAccessesMark : Prop :=
  ∀ (s : State) (width : Nat) (off v : Word),
    (width ≠ 32 ∨ off.toNat % 4 ≠ 0 ∨ 5 ≤ off.toNat / 0x10000000 ∨
      (off.toNat / 0x10000000 = 1 ∧ 4 * ((Config.maxBits + 3) / 4) ≤ off.toNat % 0x10000000) ∨
      (2 ≤ off.toNat / 0x10000000 ∧ off.toNat / 0x10000000 ≤ 4 ∧ 16 * Config.maxPoints ≤ off.toNat % 0x10000000)) →
    hostRead s width off = { s with faultMark := true } ∧ hostWrite s width off v = { s with faultMark := true }

/-- R187: while BUSY, a write of STATUS or of a reserved word of REG is ignored; a write of any other register and of any buffer word
sets the fault mark. That such a write changes nothing else is the model's choice (log 20). -/
def Obligations.BusyWritesRefused : Prop :=
  ∀ (s : State) (off v : Word), s.busy = true → off.toNat % 4 = 0 →
    ((off.toNat = 0x004 ∨ off.toNat = 0x02C ∨ off.toNat = 0x054 ∨ (0x068 ≤ off.toNat ∧ off.toNat < 0x10000000)) →
      hostWrite s 32 off v = s) ∧
    ((off.toNat < 0x068 ∧ off.toNat ≠ 0x004 ∧ off.toNat ≠ 0x02C ∧ off.toNat ≠ 0x054) →
      hostWrite s 32 off v = { s with faultMark := true }) ∧
    (InBuffers off.toNat → hostWrite s 32 off v = { s with faultMark := true })

/-- R57: words are little-endian, and a binary64 in memory or in a register has its low half in the lower word. -/
def Obligations.LittleEndian : Prop :=
  (∀ (m : Memory) (o : Nat) (w : Word), readWord m o = some w ↔
    memRead m o = some (w.extractLsb' 0 8) ∧ memRead m (o + 1) = some (w.extractLsb' 8 8) ∧
    memRead m (o + 2) = some (w.extractLsb' 16 8) ∧ memRead m (o + 3) = some (w.extractLsb' 24 8)) ∧
  (∀ (m : Memory) (o : Nat) (x : F64), readF64 m o = some x ↔
    readWord m o = some (x.extractLsb' 0 32) ∧ readWord m (o + 4) = some (x.extractLsb' 32 32)) ∧
  (∀ (s : State) (o : Nat) (x : F64),
    (o, x) ∈ [(0x010, s.freq), (0x018, s.ampl), (0x020, s.srate), (0x030, s.deltaRatio), (0x038, s.tQuery),
      (0x040, s.result), (0x058, s.calcTime)] →
    readReg s (regWordAt o) = x.extractLsb' 0 32 ∧ readReg s (regWordAt (o + 4)) = x.extractLsb' 32 32)

/-- R58: where the block stores Point k of a buffer, and that it stores nothing else. -/
def Obligations.PointLayout : Prop :=
  ∀ (m : Memory) (base : Nat) (ps : List Point),
    (∀ k, (h : k < ps.length) →
      readWord (writePoints m base ps) (base + 16 * k) = some (ps[k].x.extractLsb' 0 32) ∧
      readWord (writePoints m base ps) (base + 16 * k + 4) = some (ps[k].x.extractLsb' 32 32) ∧
      readWord (writePoints m base ps) (base + 16 * k + 8) = some (ps[k].y.extractLsb' 0 32) ∧
      readWord (writePoints m base ps) (base + 16 * k + 12) = some (ps[k].y.extractLsb' 32 32) ∧
      readPoint (writePoints m base ps) (base + 16 * k) = some ps[k]) ∧
    ∀ a, a < base ∨ base + 16 * ps.length ≤ a → memRead (writePoints m base ps) a = memRead m a

/-- R86 with R64: the host's WRBITS on an idle block loads the bit string and touches nothing but its words and BIT_LEN. -/
def Obligations.WritingBitsLoadsThem : Prop :=
  ∀ (s : State) (b : List Bool), s.busy = false → 0 < b.length → b.length ≤ Config.maxBits →
    ∃ t, (wrbits b).foldl serveInput s = t ∧ BitsLoaded t b ∧ t = { s with mem := t.mem, bitLen := t.bitLen } ∧
      ∀ a, a < bitBase ∨ bitBase + 4 * ((b.length + 3) / 4) ≤ a → memRead t.mem a = memRead s.mem a

/-- R71 and R64: between acceptance and completion no register and no buffer changes, unless a reset comes or the fault mark is set. -/
def Obligations.OperandsStableWhileBusy : Prop :=
  ∀ s t : State, s.busy = true → completionDue s = false → step s = .next t → t.faultMark = false →
    (∃ rest, s.inputs = .reset :: rest) ∨
    t = { s with inputs := t.inputs, busyLeft := t.busyLeft, hostReads := t.hostReads, draws := t.draws }

/-- R47: what sets and clears a written mark, and that a read of an unmarked word, by the host or by a command, sets the fault mark.
That a host read of an unmarked word does so even while BUSY is the model's choice (log 4), and that it changes nothing else is log 20. -/
def Obligations.WrittenMarks : Prop :=
  (∀ a, ¬ WordMarked State.reset.mem a) ∧
  (∀ s a, ¬ WordMarked (serveInput s .reset).mem a) ∧
  (∀ (s : State) (off v : Word), s.busy = false → off.toNat % 4 = 0 → InBuffers off.toNat → off.toNat < txBase →
    ∀ a, WordMarked (hostWrite s 32 off v).mem a ↔ a / 4 * 4 = off.toNat ∨ WordMarked s.mem a) ∧
  (∀ (i : Instr) (s t : State), s.status = 0x00000001 → exec i s = .next t → t.status = 0x00000002 →
    i ≠ .interpLinear → ∀ a, WordMarked t.mem a ↔ WordMarked s.mem a ∨
      (inBase ≤ a ∧ a < inBase + 16 * t.inCount.toNat) ∨ (txBase ≤ a ∧ a < txBase + 16 * t.txCount.toNat) ∨
      (outBase ≤ a ∧ a < outBase + 16 * t.outCount.toNat)) ∧
  (∀ (s : State) (off : Word), off.toNat % 4 = 0 → InBuffers off.toNat → ¬ WordMarked s.mem off.toNat →
    hostRead s 32 off = { s with faultMark := true }) ∧
  (∀ (i : Instr) (s : State) (k : Nat), i.family = .line ∨ i.family = .dmod → s.bitLen.toNat ≤ Config.maxBits →
    k < s.bitLen.toNat → (∀ j < k, BitByteIs s.mem j 0x30 ∨ BitByteIs s.mem j 0x31) →
    ¬ WordMarked s.mem (bitBase + k) → exec i s = .next { s with faultMark := true }) ∧
  (∀ (s : State) (k : Nat), s.inCount.toNat ≤ Config.maxPoints → k < 4 * s.inCount.toNat →
    ¬ WordMarked s.mem (inBase + 4 * k) → exec .interpLinear s = .next { s with faultMark := true })

/-! ### Every step -/

/-- The invariant of the block is kept by every step, from every state that has it. -/
def Obligations.StepKeepsInvariant : Prop := ∀ s t : State, Inv s → step s = .next t → Inv t

/-- The state after reset has the invariant. -/
def Obligations.ResetSatisfiesInvariant : Prop := Inv State.reset

/-- R49: nothing clears the fault mark, not even a reset, which is all a marked state still serves (log 3); it is false after
the first reset, and no register shows it. -/
def Obligations.FaultMarkIsSticky : Prop :=
  (∀ s t : State, s.faultMark = true → step s = .next t → t.faultMark = true ∧ ∃ rest, s.inputs = .reset :: rest) ∧
  (∀ (i : Instr) (s t : State), s.faultMark = true → exec i s = .next t → t.faultMark = true) ∧
  State.reset.faultMark = false ∧
  (∀ (s : State) (mark : Bool) (r : RegWord), readReg { s with faultMark := mark } r = readReg s r)

/-- R39: RESULT is at offset 0x040, is 0 after reset, and is written only by a successful INTERP command, with the interpolated value
(and by a reset, R183). -/
def Obligations.OnlyInterpWritesResult : Prop :=
  (∀ s t : State, step s = .next t →
    t.result = s.result ∨
    (t.result = 0 ∧ ∃ rest, s.inputs = .reset :: rest) ∨
    (completionDue s = true ∧ decode s.cmd = .ok .interpLinear ∧ t.status = 0x00000002 ∧
      ∃ ps, PointsLoaded s ps ∧ t.result = interp ps s.tQuery)) ∧
  (∀ s : State, registerWord s 0x040 = s.result.extractLsb' 0 32 ∧ registerWord s 0x044 = s.result.extractLsb' 32 32) ∧
  State.reset.result = 0

/-- R45 and R94: no command writes BITBUF; a byte of it changes only by a host write of its word to the idle block, or by a reset. -/
def Obligations.BitbufWrittenOnlyByHost : Prop :=
  (∀ (i : Instr) (s t : State) (a : Nat), exec i s = .next t → a < inBase → memRead t.mem a = memRead s.mem a) ∧
  (∀ (s t : State) (a : Nat), bitBase ≤ a → a < inBase → step s = .next t →
    memRead t.mem a = memRead s.mem a ∨ (∃ rest, s.inputs = .reset :: rest) ∨
    (s.busy = false ∧ ∃ off v rest, s.inputs = .write 32 off v :: rest ∧ off.toNat = a / 4 * 4))

/-- The frame of all 25 commands (R88, R94, R106, R171): the parameters and BITBUF never change; INTERP changes only RESULT and STATUS;
the others never change RESULT; on success the bytes that change are those of the Points stored, from index 0 up; otherwise no buffer,
RESULT or CALC_TIME changes. The fields inputs, busyLeft, hostReads and draws are the model's (log 14). -/
def Obligations.CommandFrame : Prop :=
  ∀ (i : Instr) (s t : State), s.status = 0x00000001 → exec i s = .next t →
    SameParameters s t ∧
    (∀ a, a < inBase ∨ outBase + 0x10000000 ≤ a → memRead t.mem a = memRead s.mem a) ∧
    (i = .interpLinear → t = { s with result := t.result, status := t.status, faultMark := t.faultMark }) ∧
    (i ≠ .interpLinear → t.result = s.result) ∧
    (t.status = 0x00000002 → t.faultMark = s.faultMark ∧
      (i ≠ .interpLinear → ∀ a, ¬(inBase ≤ a ∧ a < inBase + 16 * t.inCount.toNat) →
        ¬(txBase ≤ a ∧ a < txBase + 16 * t.txCount.toNat) → ¬(outBase ≤ a ∧ a < outBase + 16 * t.outCount.toNat) →
        memRead t.mem a = memRead s.mem a)) ∧
    (t.status ≠ 0x00000002 → t.mem = s.mem ∧ t.result = s.result ∧ t.calcTime = s.calcTime)

/-- R96: with equal registers and buffers a command has the same outcome and writes the same values, CALC_TIME apart, whatever the
model's own fields and CALC_TIME were. -/
def Obligations.DeterministicUpToDraw : Prop :=
  ∀ (i : Instr) (s t : State) (oldTime : F64) (inputs : List HostInput) (busyLeft : Nat) (hostReads : List Word)
    (draws : Nat), exec i s = .next t →
    ∃ t', exec i { s with
          calcTime := oldTime
          inputs := inputs
          busyLeft := busyLeft
          hostReads := hostReads
          draws := draws } = .next t' ∧
      t'.status = t.status ∧ t'.inCount = t.inCount ∧ t'.txCount = t.txCount ∧ t'.outCount = t.outCount ∧
      t'.result = t.result ∧ t'.mem = t.mem ∧ t'.faultMark = t.faultMark

/-! ### Line coding -/

/-- R112 and R113: the two non-return-to-zero codes, for every loaded bit string, and their errors. -/
def Obligations.LineNrzCompletes : Prop :=
  decode 0x00000000 = .ok .lineNrzL ∧ decode 0x00000001 = .ok .lineNrzI ∧
  BitInputErrors .lineNrzL ∧ BitInputErrors .lineNrzI ∧
  ∀ (s : State) (b : List Bool), BitsLoaded s b →
    (∃ t, exec .lineNrzL s = .next t ∧
      SignalCommitted s t (digitalPoints b) (flatSlots b.length fun i => volt (bit b i)) (digitalPoints b)) ∧
    (∃ t, exec .lineNrzI s = .next t ∧
      SignalCommitted s t (digitalPoints b)
        (flatSlots b.length fun i => volt (s.cfgInit.getLsbD 0 != oddOnes b (i + 1))) (digitalPoints b))

/-- R114 and R115: the two Manchester codes. In the second the level before bit i is DMAN_INIT flipped once for each 1 bit before it,
and a 0 bit starts with the other level. -/
def Obligations.LineManchesterCompletes : Prop :=
  decode 0x00000002 = .ok .lineManchester ∧ decode 0x00000003 = .ok .lineDiffManchester ∧
  BitInputErrors .lineManchester ∧ BitInputErrors .lineDiffManchester ∧
  ∀ (s : State) (b : List Bool), BitsLoaded s b →
    (∃ t, exec .lineManchester s = .next t ∧
      SignalCommitted s t (digitalPoints b)
        (splitSlots b.length (fun i => volt (bit b i)) (fun i => volt (!bit b i))) (digitalPoints b)) ∧
    (∃ t, exec .lineDiffManchester s = .next t ∧
      SignalCommitted s t (digitalPoints b)
        (splitSlots b.length
          (fun i => volt ((s.cfgInit.getLsbD 1 != oddOnes b i) != !bit b i))
          (fun i => volt ((s.cfgInit.getLsbD 1 != oddOnes b i) != bit b i)))
        (digitalPoints b))

/-- R116 and R117: AMI sends a pulse for each 1 bit and pseudoternary for each 0 bit, of alternating polarity from POL_INIT. -/
def Obligations.LineAlternateMarkCompletes : Prop :=
  decode 0x00000004 = .ok .lineAmi ∧ decode 0x00000005 = .ok .linePseudoternary ∧
  BitInputErrors .lineAmi ∧ BitInputErrors .linePseudoternary ∧
  ∀ (s : State) (b : List Bool), BitsLoaded s b →
    (∃ t, exec .lineAmi s = .next t ∧
      SignalCommitted s t (digitalPoints b)
        (flatSlots b.length fun i =>
          if bit b i then volt (s.cfgInit.getLsbD 2 != oddOnes b (i + 1)) else voltZero) (digitalPoints b)) ∧
    (∃ t, exec .linePseudoternary s = .next t ∧
      SignalCommitted s t (digitalPoints b)
        (flatSlots b.length fun i =>
          if bit b i then voltZero else volt (s.cfgInit.getLsbD 2 != oddZeros b (i + 1))) (digitalPoints b))

/-- R118 and R119: B8ZS is the loop of R118 run over the bit string by scan index. -/
def Obligations.LineB8zsCompletes : Prop :=
  decode 0x00000006 = .ok .lineB8zs ∧ BitInputErrors .lineB8zs ∧
  ∀ (s : State) (b : List Bool), BitsLoaded s b → ∃ t, exec .lineB8zs s = .next t ∧
    SignalCommitted s t (digitalPoints b) (b8zsLoop b b.length 0 (volt (s.cfgInit.getLsbD 2))) (digitalPoints b)

/-- R120 and R121: HDB3 is the loop of R120 run over the bit string by scan index, with the mark count from 0. -/
def Obligations.LineHdb3Completes : Prop :=
  decode 0x00000007 = .ok .lineHdb3 ∧ BitInputErrors .lineHdb3 ∧
  ∀ (s : State) (b : List Bool), BitsLoaded s b → ∃ t, exec .lineHdb3 s = .next t ∧
    SignalCommitted s t (digitalPoints b) (hdb3Loop b b.length 0 (volt (s.cfgInit.getLsbD 2)) 0) (digitalPoints b)

/-- R110: the counts of every line code, and that the transmitted sequence runs from 0 to N seconds. -/
def Obligations.LineCounts : Prop :=
  ∀ (i : Instr) (s : State) (b : List Bool), i.family = .line → BitsLoaded s b → ∃ t, exec i s = .next t ∧
    t.inCount.toNat = 2 * b.length ∧ t.outCount.toNat = 2 * b.length ∧
    ((i = .lineManchester ∨ i = .lineDiffManchester) → t.txCount.toNat = 4 * b.length) ∧
    (¬(i = .lineManchester ∨ i = .lineDiffManchester) → t.txCount.toNat = 2 * b.length) ∧
    (∃ p, readPoint t.mem txBase = some p ∧ p.x = f64 0) ∧
    (∃ p, readPoint t.mem (txBase + 16 * (t.txCount.toNat - 1)) = some p ∧ p.x = f64 b.length)

/-- R122: AMI of b and pseudoternary of its complement transmit the same, from the same CFG_INIT. -/
def Obligations.AmiPseudoternaryComplement : Prop :=
  ∀ (s s' : State) (b : List Bool), BitsLoaded s b → BitsLoaded s' (b.map not) → s'.cfgInit = s.cfgInit →
    ∃ t t', exec .lineAmi s = .next t ∧ exec .linePseudoternary s' = .next t' ∧ t'.txCount = t.txCount ∧
      0 < t.txCount.toNat ∧
      ∀ k < t.txCount.toNat, ∃ p, readPoint t.mem (txBase + 16 * k) = some p ∧
        readPoint t'.mem (txBase + 16 * k) = some p

/-- R123: without 8 (or 4) zeros in a row B8ZS (or HDB3) does exactly what AMI does. -/
def Obligations.NoRunSameAsAmi : Prop :=
  ∀ (s : State) (b : List Bool), BitsLoaded s b →
    ((∀ i, zeroRun b i 8 = false) → ∃ t, exec .lineB8zs s = .next t ∧ exec .lineAmi s = .next t ∧ t.status = 0x00000002) ∧
    ((∀ i, zeroRun b i 4 = false) → ∃ t, exec .lineHdb3 s = .next t ∧ exec .lineAmi s = .next t ∧ t.status = 0x00000002)

/-- R124: what B8ZS transmits for eight zeros, for every CFG_INIT, and at its reset value. -/
def Obligations.B8zsEightZeros : Prop :=
  (∀ cfg : Word, b8zsTx cfg (List.replicate 8 false) =
    flatSlots 8 fun i => [voltZero, voltZero, voltZero, volt (cfg.getLsbD 2), fneg (volt (cfg.getLsbD 2)), voltZero,
      volt (cfg.getLsbD 2), fneg (volt (cfg.getLsbD 2))].getD i voltZero) ∧
  b8zsTx State.reset.cfgInit (List.replicate 8 false) =
    flatSlots 8 fun i => [voltZero, voltZero, voltZero, voltMinus, voltPlus, voltZero, voltMinus, voltPlus].getD i voltZero

/-- R125: a LINE command depends on BIT_LEN, the first BIT_LEN bytes of BITBUF and CFG_INIT alone, whatever ran before. -/
def Obligations.LineIndependence : Prop :=
  ∀ (i : Instr) (s s' t : State), i.family = .line → s'.bitLen = s.bitLen → s'.cfgInit = s.cfgInit →
    (∀ k < s.bitLen.toNat, readBitByte s'.mem k = readBitByte s.mem k) →
    s.faultMark = false → s'.faultMark = false → exec i s = .next t →
    ∃ t', exec i s' = .next t' ∧ t'.faultMark = t.faultMark ∧
      (t.faultMark = false → t'.status = t.status ∧ t'.inCount = t.inCount ∧ t'.txCount = t.txCount ∧
        t'.outCount = t.outCount ∧
        ∀ k < t.txCount.toNat, readPoint t'.mem (txBase + 16 * k) = readPoint t.mem (txBase + 16 * k)) ∧
      (t.faultMark = false → ∀ k < t.inCount.toNat,
        readPoint t'.mem (inBase + 16 * k) = readPoint t.mem (inBase + 16 * k) ∧
        readPoint t'.mem (outBase + 16 * k) = readPoint t.mem (outBase + 16 * k))

/-- R111 and R130: the errors of every LINE and DMOD command, that they have no others, and the reserved schemes of the two families. -/
def Obligations.BitCommandErrors : Prop :=
  (∀ i : Instr, i.family = .line ∨ i.family = .dmod → BitInputErrors i ∧
    ∀ s t : State, exec i s = .next t →
      t.status = 0x00000002 ∨ t = zeroedError s 0x00000206 ∨ t = { s with faultMark := true }) ∧
  (∀ s : State, (0x08 ≤ s.cmd.toNat ∧ s.cmd.toNat ≤ 0x0F) ∨ (0x1B ≤ s.cmd.toNat ∧ s.cmd.toNat ≤ 0x1F) →
    completeCommand s = .next (zeroedError s 0x00000306))

/-! ### Digital modulation -/

/-- The six schemes of the binary grid (R128, R132 to R137), for every loaded bit string. -/
def Obligations.DmodBinaryCompletes : Prop :=
  ∀ (s : State) (b : List Bool), BitsLoaded s b →
    ∀ iy ∈ ([(.dmodAsk, fun m t =>
          fmul (if bit b m then 0x3FF0000000000000 else 0x3FC999999999999A) (fsin (phaseArg 0x4014000000000000 t))),
        (.dmodFsk, fun m t => fsin (phaseArg (if bit b m then 0x401C000000000000 else 0x4008000000000000) t)),
        (.dmodBfsk, fun m t => fsin (phaseArg (if bit b m then 0x401C000000000000 else 0x4008000000000000) t)),
        (.dmodPsk, fun m t => fsin (fadd (phaseArg 0x4014000000000000 t) (if bit b m then 0 else 0x400921FB54442D18))),
        (.dmodBpsk, fun m t => fsin (fadd (phaseArg 0x4014000000000000 t) (if bit b m then 0 else 0x400921FB54442D18))),
        (.dmodDpsk, fun m t =>
          fsin (fadd (phaseArg 0x4014000000000000 t) (if oddZeros b (m + 1) then 0x400921FB54442D18 else 0)))] :
        List (Instr × (Nat → F64 → F64))),
      ∃ t, exec iy.1 s = .next t ∧
        SignalCommitted s t (digitalPoints b) (binarySamples b.length iy.2) (digitalPoints b)

/-- The four schemes of the symbol grid (R129, R138, R140 to R142), for every loaded bit string; i is the index of the symbol's first
bit, and a bit past the end is the padding 0. -/
def Obligations.DmodSymbolCompletes : Prop :=
  ∀ (s : State) (b : List Bool), BitsLoaded s b →
    ∀ iky ∈ ([(.dmodQpsk, 2, fun i t =>
          fsin (fadd (phaseArg 0x4014000000000000 t) (qpskAngle (bit b i) (bit b (i + 1))))),
        (.dmodMfsk, 2, fun i t =>
          fsin (phaseArg (f64 (3 + 2 * (2 * (bit b i).toNat + (bit b (i + 1)).toNat))) t)),
        (.dmodMpsk, 3, fun i t =>
          fsin (fadd (phaseArg 0x4014000000000000 t)
            (fmul (f64 (4 * (bit b i).toNat + 2 * (bit b (i + 1)).toNat + (bit b (i + 2)).toNat)) quarterPi))),
        (.dmodQam, 4, fun i t =>
          fdiv (fadd (fmul (qamAxis (bit b i) (bit b (i + 1))) (fsin (phaseArg 0x4014000000000000 t)))
            (fmul (qamAxis (bit b (i + 2)) (bit b (i + 3))) (fcos (phaseArg 0x4014000000000000 t))))
            0x4008000000000000)] :
        List (Instr × Nat × (Nat → F64 → F64))),
      ∃ t, exec iky.1 s = .next t ∧
        SignalCommitted s t (digitalPoints b) (symbolSamples b.length iky.2.1 iky.2.2) (digitalPoints b)

/-- OQPSK (R139): in-phase and quadrature bits tracked half a symbol apart. -/
def Obligations.DmodOqpskCompletes : Prop :=
  ∀ (s : State) (b : List Bool), BitsLoaded s b → ∃ t, exec .dmodOqpsk s = .next t ∧
    SignalCommitted s t (digitalPoints b)
      ((List.range (100 * paddedLength b.length 2 + 1)).map fun j =>
        ⟨sampleAt j, oqpskSample b (paddedLength b.length 2 / 2) j⟩)
      (digitalPoints b)

/-- R143: the counts of every DMOD command, and that they always fit. -/
def Obligations.DmodCounts : Prop :=
  (∀ (i : Instr) (s : State) (b : List Bool), i.family = .dmod → BitsLoaded s b → ∃ t, exec i s = .next t ∧
    t.status = 0x00000002 ∧ t.inCount.toNat = 2 * b.length ∧ t.outCount.toNat = 2 * b.length ∧
    (i ∈ [.dmodAsk, .dmodFsk, .dmodBfsk, .dmodPsk, .dmodBpsk, .dmodDpsk] → t.txCount.toNat = 100 * b.length + 1) ∧
    (i ∈ [.dmodQpsk, .dmodOqpsk, .dmodMfsk] → t.txCount.toNat = 100 * 2 * ((b.length + 1) / 2) + 1) ∧
    (i = .dmodMpsk → t.txCount.toNat = 100 * 3 * ((b.length + 2) / 3) + 1) ∧
    (i = .dmodQam → t.txCount.toNat = 100 * 4 * ((b.length + 3) / 4) + 1) ∧
    t.txCount.toNat ≤ 100 * (Config.maxBits + 3) + 1) ∧
  100 * (Config.maxBits + 3) + 1 ≤ Config.maxPoints

/-- R84 and R144: FSK and BFSK, and PSK and BPSK, have different words and the same effect. -/
def Obligations.AliasedSelectors : Prop :=
  encode .dmodFsk ≠ encode .dmodBfsk ∧ encode .dmodPsk ≠ encode .dmodBpsk ∧
  (∀ s : State, exec .dmodBfsk s = exec .dmodFsk s) ∧ (∀ s : State, exec .dmodBpsk s = exec .dmodPsk s)

/-! ### Analog to digital -/

/-- A2D.PCM (R151) with legal parameters and K instants that fit: the 201 samples of R99, and quantised level and reconstruction at each
instant. What an instant is says `SampleInstants`. -/
def Obligations.PcmCompletes : Prop :=
  ∀ (s : State) (k : Nat), PositiveFinite s.freq → PositiveFinite s.ampl → PositiveFinite s.srate →
    2 ≤ s.qlevels.toNat → InstantsAre s.srate k → k ≤ Config.maxPoints →
    ∃ (v q : Nat → F64) (t : State),
      (∀ j < k, v j = interp (analogPoints s.freq s.ampl 100) (sampleInstant s.srate j)) ∧
      (∀ j < k, q j = rhu (fmul
        (fclamp (fdiv (fadd (v j) s.ampl) (fmul 0x4000000000000000 s.ampl)) 0 0x3FF0000000000000)
        (f64 (s.qlevels.toNat - 1)))) ∧
      exec .a2dPcm s = .next t ∧
      t.inCount = 201 ∧ SignalCommitted s t (analogPoints s.freq s.ampl 100)
        ((List.range k).map fun j => ⟨sampleInstant s.srate j, q j⟩)
        ((List.range k).map fun j => ⟨sampleInstant s.srate j,
          fsub (fmul (fdiv (q j) (f64 (s.qlevels.toNat - 1))) (fmul 0x4000000000000000 s.ampl)) s.ampl⟩)

/-- A2D.DELTA (R154) with legal parameters and 2K output Points that fit: the 201 samples of R99, the
approximations, the bits and the staircase. -/
def Obligations.DeltaCompletes : Prop :=
  ∀ (s : State) (k : Nat), PositiveFinite s.freq → PositiveFinite s.ampl → PositiveFinite s.srate →
    flt 0 s.deltaRatio = true → fle s.deltaRatio 0x3FF0000000000000 = true → InstantsAre s.srate k →
    2 * k ≤ Config.maxPoints →
    ∃ (v a : Nat → F64) (t : State),
      (∀ j < k, v j = interp (analogPoints s.freq s.ampl 100) (sampleInstant s.srate j)) ∧
      a 0 = 0 ∧
      (∀ j < k, a (j + 1) = fclamp
        (if flt (a j) (v j) then fadd (a j) (fmul s.ampl s.deltaRatio) else fsub (a j) (fmul s.ampl s.deltaRatio))
        (fneg (fmul 0x3FF8000000000000 s.ampl)) (fmul 0x3FF8000000000000 s.ampl)) ∧
      exec .a2dDelta s = .next t ∧
      t.inCount = 201 ∧ SignalCommitted s t (analogPoints s.freq s.ampl 100)
        ((List.range k).map fun j =>
          ⟨sampleInstant s.srate j, if flt (a j) (v j) then 0x3FF0000000000000 else 0⟩)
        (staircase k (sampleInstant s.srate) a)

/-- R92 and R148: the parameter errors of A2D and AMOD, in their order, and the parameter each A2D scheme does not read. -/
def Obligations.AnalogParameterErrors : Prop :=
  (∀ i : Instr, i.family = .a2d ∨ i.family = .amod → ∀ s : State,
    ¬ PositiveFinite s.freq ∨ ¬ PositiveFinite s.ampl → exec i s = .next (zeroedError s 0x00000106)) ∧
  (∀ s : State, PositiveFinite s.freq → PositiveFinite s.ampl →
    (¬ PositiveFinite s.srate ∨ s.qlevels.toNat < 2 → exec .a2dPcm s = .next (zeroedError s 0x00000106)) ∧
    (¬ PositiveFinite s.srate ∨ ¬(flt 0 s.deltaRatio = true ∧ fle s.deltaRatio 0x3FF0000000000000 = true) →
      exec .a2dDelta s = .next (zeroedError s 0x00000106))) ∧
  (∀ (s : State) (x : F64) (n : Word), ∃ t u, exec .a2dPcm s = .next t ∧ exec .a2dDelta s = .next u ∧
    exec .a2dPcm { s with deltaRatio := x } = .next { t with deltaRatio := x } ∧
    exec .a2dDelta { s with qlevels := n } = .next { u with qlevels := n })

/-- R149 and R167: CapacityExceeded, when the parameters are legal and K > MAX_POINTS (PCM) or 2K > MAX_POINTS (DELTA), where K > n says
that the instants 0 to n are all sampled; and no other command raises it. -/
def Obligations.CapacityErrors : Prop :=
  (∀ s : State, PositiveFinite s.freq → PositiveFinite s.ampl → PositiveFinite s.srate →
    (2 ≤ s.qlevels.toNat → (∀ j ≤ Config.maxPoints, fle (sampleInstant s.srate j) (f64 2) = true) →
      exec .a2dPcm s = .next (zeroedError s 0x00000406)) ∧
    (flt 0 s.deltaRatio = true → fle s.deltaRatio 0x3FF0000000000000 = true →
      (∀ j ≤ Config.maxPoints / 2, fle (sampleInstant s.srate j) (f64 2) = true) →
      exec .a2dDelta s = .next (zeroedError s 0x00000406))) ∧
  (∀ (i : Instr) (s t : State), i.family ≠ .a2d → s.status = 0x00000001 → exec i s = .next t →
    errCodeField t.status ≠ 4)

/-- The sample instants of R146: T[k] = round6(f64(k) ÷ fs), with round6(v) = floor(v × 1e6 + 0.5) ÷ 1e6 (R18, R21); for a legal rate they
never decrease from +0.0, and K of them are not after t = 2.0. For a quotient that overflows to infinity the latter rests on log 7 (floor of an
infinity). -/
def Obligations.SampleInstants : Prop :=
  (∀ (fs : F64) (k : Nat), sampleInstant fs k =
    fdiv (ffloor (fadd (fmul (fdiv (f64 k) fs) 0x412E848000000000) 0x3FE0000000000000)) 0x412E848000000000) ∧
  ∀ fs : F64, PositiveFinite fs →
    (∀ j k, j ≤ k → fle (sampleInstant fs j) (sampleInstant fs k) = true) ∧ sampleInstant fs 0 = 0 ∧
    ∃ k, 1 ≤ k ∧ InstantsAre fs k ∧ ∀ j, fle (sampleInstant fs j) (f64 2) = true ↔ j < k

/-- R152: every transmitted level of a successful A2D.PCM is an integer in [0, QLEVELS − 1]. Where the quotient of R151 is a NaN this rests on
log 6 (the clamp of a NaN stays within its bounds). -/
def Obligations.PcmLevelsInRange : Prop :=
  ∀ s t : State, s.status = 0x00000001 → exec .a2dPcm s = .next t → t.status = 0x00000002 →
    ∀ k < t.txCount.toNat, ∃ (p : Point) (q : Nat), readPoint t.mem (txBase + 16 * k) = some p ∧
      q ≤ s.qlevels.toNat - 1 ∧ p.y = f64 q ∧ fvalue p.y = q

/-- R155: every output of a successful A2D.DELTA lies in [−1.5·AMPL, 1.5·AMPL]. Where the sum of R154 is a NaN this rests on log 6 (the clamp
of a NaN stays within its bounds). -/
def Obligations.DeltaOutputBounded : Prop :=
  ∀ s t : State, s.status = 0x00000001 → exec .a2dDelta s = .next t → t.status = 0x00000002 →
    ∀ k < t.outCount.toNat, ∃ p, readPoint t.mem (outBase + 16 * k) = some p ∧
      fle (fneg (fmul 0x3FF8000000000000 s.ampl)) p.y = true ∧ fle p.y (fmul 0x3FF8000000000000 s.ampl) = true

/-- R156: the output of a successful A2D.DELTA never goes back in time, and y changes only from an odd index, a hold point (or the last
Point), to the even index after it, the Point at T[k]. -/
def Obligations.DeltaOutputAscending : Prop :=
  ∀ s t : State, s.status = 0x00000001 → exec .a2dDelta s = .next t → t.status = 0x00000002 →
    ∀ k, k + 1 < t.outCount.toNat → ∃ p q, readPoint t.mem (outBase + 16 * k) = some p ∧
      readPoint t.mem (outBase + 16 * (k + 1)) = some q ∧ fle p.x q.x = true ∧
      (k % 2 = 0 → q.y = p.y) ∧ (k % 2 = 1 → q.x = sampleInstant s.srate ((k + 1) / 2))

/-! ### Analog modulation -/

/-- AM, FM and PM (R157, R160 to R162) with legal parameters: the 401 samples of R99 in INBUF and OUTBUF, one transmitted
Point for each of them. -/
def Obligations.AmodCompletes : Prop :=
  ∀ s : State, PositiveFinite s.freq → PositiveFinite s.ampl →
    ∀ iy ∈ ([(.amodAm, fun fc t m =>
          fmul (fadd 0x3FF0000000000000 (fmul 0x3FE999999999999A (fdiv m s.ampl))) (fsin (fmul (fmul twoPi fc) t))),
        (.amodFm, fun fc t m =>
          fsin (fadd (fmul (fmul twoPi fc) t)
            (fdiv (fmul (fmul (fmul twoPi (fmul 0x3FE0000000000000 fc)) (fdiv m s.ampl)) t) s.freq))),
        (.amodPm, fun fc t m => fsin (fadd (fmul (fmul twoPi fc) t) (fmul halfPi (fdiv m s.ampl))))] :
        List (Instr × (F64 → F64 → F64 → F64))),
      ∃ t, exec iy.1 s = .next t ∧ t.inCount = 401 ∧ t.txCount = 401 ∧ t.outCount = 401 ∧
        SignalCommitted s t (analogPoints s.freq s.ampl 200)
          ((analogPoints s.freq s.ampl 200).map fun p => ⟨p.x, iy.2 (fmul 0x4014000000000000 s.freq) p.x p.y⟩)
          (analogPoints s.freq s.ampl 200)

/-! ### Interpolation -/

/-- INTERP.LINEAR (R90, R105, R106): the interpolated value to RESULT, at and beyond the ends the boundary values of R101; and its errors,
in their order. -/
def Obligations.InterpCompletes : Prop :=
  ∀ s : State,
    (∀ ps, PointsLoaded s ps → isNaN s.tQuery = false →
      exec .interpLinear s = .next { s with result := interp ps s.tQuery, status := 0x00000002 } ∧
      (fle s.tQuery (pointAt ps 0).x = true → interp ps s.tQuery = (pointAt ps 0).y) ∧
      (fle s.tQuery (pointAt ps 0).x = false → fle (pointAt ps (ps.length - 1)).x s.tQuery = true →
        interp ps s.tQuery = (pointAt ps (ps.length - 1)).y)) ∧
    (s.inCount.toNat = 0 ∨ Config.maxPoints < s.inCount.toNat →
      exec .interpLinear s = .next { s with status := 0x00000206 }) ∧
    (s.inCount.toNat ≤ Config.maxPoints → (∃ k < s.inCount.toNat, readPoint s.mem (inBase + 16 * k) = none) →
      exec .interpLinear s = .next { s with faultMark := true }) ∧
    (∀ ps, PointsLoaded s ps → isNaN s.tQuery = true → exec .interpLinear s = .next { s with status := 0x00000106 })

/-- R102: between the ends, with no NaN among the times, the search ends at two neighbours that bracket t, the divisor is > 0, and in a
sorted sequence the lower one is the last Point not after t; Interp is then the line through the two (R101). -/
def Obligations.InterpBracket : Prop :=
  ∀ (ps : List Point) (t : F64), 0 < ps.length → isNaN t = false → (∀ k < ps.length, isNaN (pointAt ps k).x = false) →
    fle t (pointAt ps 0).x = false → fle (pointAt ps (ps.length - 1)).x t = false →
    ∃ lo hi, interpSearch ps t ps.length 0 (ps.length - 1) = (lo, hi) ∧ hi = lo + 1 ∧ hi < ps.length ∧
      fle (pointAt ps lo).x t = true ∧ flt t (pointAt ps hi).x = true ∧
      flt 0 (fsub (pointAt ps hi).x (pointAt ps lo).x) = true ∧
      interp ps t = fadd (pointAt ps lo).y (fmul (fdiv (fsub t (pointAt ps lo).x)
        (fsub (pointAt ps hi).x (pointAt ps lo).x)) (fsub (pointAt ps hi).y (pointAt ps lo).y)) ∧
      ((∀ k, k + 1 < ps.length → fle (pointAt ps k).x (pointAt ps (k + 1)).x = true) →
        ∀ k < ps.length, lo < k → fle (pointAt ps k).x t = false)

/-! ### Properties of all families -/

/-- R97: after a successful LINE, DMOD or AMOD command OUTBUF holds what INBUF holds. -/
def Obligations.OutputEqualsInput : Prop :=
  ∀ (i : Instr) (s t : State), i.family = .line ∨ i.family = .dmod ∨ i.family = .amod → s.status = 0x00000001 →
    exec i s = .next t → t.status = 0x00000002 →
    t.outCount = t.inCount ∧ ∀ k < t.inCount.toNat, ∃ p, readPoint t.mem (inBase + 16 * k) = some p ∧
      readPoint t.mem (outBase + 16 * k) = some p

/-- R98: a successful LINE, DMOD, A2D or AMOD command leaves IN_COUNT and TX_COUNT > 0. -/
def Obligations.SuccessCountsPositive : Prop :=
  ∀ (i : Instr) (s t : State), i ≠ .interpLinear → s.status = 0x00000001 → exec i s = .next t →
    t.status = 0x00000002 → 0 < t.inCount.toNat ∧ 0 < t.txCount.toNat

/-- R170 and R171: a failed command reports one error and leaves no partial result: STATUS, and the counts of every family but INTERP and
of every word that is no command, are all that changes. -/
def Obligations.ErrorIsPrecise : Prop :=
  ∀ s t : State, s.status = 0x00000001 → completeCommand s = .next t → errBit t.status = true →
    ∃ code ∈ [1, 2, 3, 4], t.status = 0x00000006 ||| (BitVec.ofNat 32 code <<< 8) ∧ errCodeField t.status = code ∧
      (decode s.cmd = .ok .interpLinear → t = { s with status := t.status }) ∧
      (decode s.cmd ≠ .ok .interpLinear → t = zeroedError s t.status)

/-! ### Arithmetic -/

/-- The four operations of R17: on finite operands they round to nearest, ties to even, and overflow to the infinity of their sign exactly
from 2^1024 − 2^970 up; then NaN operands, infinite operands, zero divisors, the sign of a zero or rounded result, and negation. The reading
of R17 as IEEE 754 in all but the rounding to nearest even is log 17. -/
def Obligations.ArithmeticRoundsToNearest : Prop :=
  (∀ x y : F64, isFinite x = true → isFinite y = true →
    ∀ rq ∈ ([(fadd x y, fvalue x + fvalue y), (fsub x y, fvalue x - fvalue y), (fmul x y, fvalue x * fvalue y)] :
        List (F64 × ℚ)) ++ (if isZero y then [] else [(fdiv x y, fvalue x / fvalue y)]),
      (|rq.2| < 2 ^ 1024 - 2 ^ 970 → isFinite rq.1 = true ∧ NearestEven rq.1 rq.2) ∧
      (2 ^ 1024 - 2 ^ 970 ≤ |rq.2| → rq.1 = signedInf (decide (rq.2 < 0)))) ∧
  (∀ x y : F64, isNaN x = true ∨ isNaN y = true →
    isNaN (fadd x y) = true ∧ isNaN (fsub x y) = true ∧ isNaN (fmul x y) = true ∧ isNaN (fdiv x y) = true) ∧
  (∀ x y : F64, isInf x = true → isFinite y = true →
    fadd x y = x ∧ fadd y x = x ∧ fsub x y = x ∧ fsub y x = fneg x ∧
    (isZero y = true → isNaN (fmul x y) = true ∧ isNaN (fmul y x) = true) ∧
    (isZero y = false → fmul x y = signedInf (fsign x != fsign y) ∧ fmul y x = signedInf (fsign x != fsign y)) ∧
    fdiv x y = signedInf (fsign x != fsign y) ∧ fdiv y x = signedZero (fsign x != fsign y)) ∧
  (∀ x y : F64, isInf x = true → isInf y = true →
    (fsign x = fsign y → fadd x y = x ∧ isNaN (fsub x y) = true) ∧
    (fsign x ≠ fsign y → isNaN (fadd x y) = true ∧ fsub x y = x) ∧
    fmul x y = signedInf (fsign x != fsign y) ∧ isNaN (fdiv x y) = true) ∧
  (∀ x y : F64, isFinite x = true → isZero y = true →
    (isZero x = true → isNaN (fdiv x y) = true) ∧
    (isZero x = false → fdiv x y = signedInf (fsign x != fsign y))) ∧
  (∀ x y : F64, isFinite x = true → isFinite y = true →
    (fvalue x + fvalue y = 0 → fadd x y = signedZero (fsign x && fsign y)) ∧
    (fvalue x - fvalue y = 0 → fsub x y = signedZero (fsign x && !fsign y)) ∧
    fsign (fmul x y) = (fsign x != fsign y) ∧ (isZero y = false → fsign (fdiv x y) = (fsign x != fsign y))) ∧
  (∀ x : F64, fsign (fneg x) = !fsign x ∧ isNaN (fneg x) = isNaN x ∧ isInf (fneg x) = isInf x ∧
    (isFinite x = true → isFinite (fneg x) = true ∧ fvalue (fneg x) = -fvalue x)) ∧
  (∀ v : F64, (isInf v = true ↔ v = signedInf (fsign v)) ∧ (isZero v = true ↔ v = signedZero (fsign v)) ∧
    (isNaN v = true ↔ 0x7FF0000000000000 < v.toNat % 2 ^ 63) ∧ (fsign v = true ↔ 2 ^ 63 ≤ v.toNat))

/-- R18: f64 is exact, floor is exact, rhu is floor(v + 0.5), and comparisons are those of the values, false with a NaN. Then min, max and
clamp of R14 on binary64 values: which of two equal values min and max answer is left open (log 25), and the clamp of a NaN is not stated
here (log 6). -/
def Obligations.ConversionAndComparison : Prop :=
  (∀ n : Nat, n < 2 ^ 53 → isFinite (f64 n) = true ∧ fvalue (f64 n) = n) ∧
  (∀ v : F64, isFinite v = true → isFinite (ffloor v) = true ∧ fvalue (ffloor v) = (⌊fvalue v⌋ : ℤ)) ∧
  (∀ v : F64, rhu v = ffloor (fadd v 0x3FE0000000000000)) ∧
  (∀ x y : F64, isFinite x = true → isFinite y = true →
    (flt x y = true ↔ fvalue x < fvalue y) ∧ (fle x y = true ↔ fvalue x ≤ fvalue y) ∧
    (feq x y = true ↔ fvalue x = fvalue y)) ∧
  (∀ x : F64, isFinite x = true → flt x 0x7FF0000000000000 = true ∧ flt 0xFFF0000000000000 x = true ∧
    flt 0x7FF0000000000000 x = false ∧ flt x 0xFFF0000000000000 = false) ∧
  flt 0xFFF0000000000000 0x7FF0000000000000 = true ∧ flt 0x7FF0000000000000 0xFFF0000000000000 = false ∧
  (∀ x : F64, isInf x = true → flt x x = false ∧ fle x x = true ∧ feq x x = true) ∧
  (∀ x y : F64, fle x y = (flt x y || feq x y)) ∧
  (∀ x y : F64, isNaN x = true ∨ isNaN y = true → flt x y = false ∧ fle x y = false ∧ feq x y = false) ∧
  (∀ v : F64, isFinite v = true ↔ ¬(isInf v = true ∨ isNaN v = true)) ∧
  (∀ x y : F64, flt x y = true → fmax x y = y ∧ fmax y x = y ∧ fmin x y = x ∧ fmin y x = x) ∧
  (∀ x y : F64, feq x y = true → feq (fmax x y) x = true ∧ feq (fmin x y) x = true) ∧
  (∀ v lo hi : F64, fle lo hi = true →
    (flt v lo = true → fclamp v lo hi = lo) ∧ (flt hi v = true → fclamp v lo hi = hi) ∧
    (flt lo v = true → flt v hi = true → fclamp v lo hi = v) ∧
    (fle lo v = true → fle v hi = true → feq (fclamp v lo hi) v = true))

/-- The named constants of R20 and the two values of the sine and cosine that R19 fixes (at +0.0 alone: log 8): PI is the finite binary64
nearest π and its multiples are exact, SQRT1_2 is the one nearest 1/√2, and the patterns that stand for the decimal literals are those nearest
them. -/
def Obligations.NamedConstants : Prop :=
  fpi = 0x400921FB54442D18 ∧ sqrt12 = 0x3FE6A09E667F3BCD ∧
  (∀ y : F64, isFinite y = true → |((fvalue fpi : ℚ) : ℝ) - Real.pi| ≤ |((fvalue y : ℚ) : ℝ) - Real.pi|) ∧
  (∀ y : F64, isFinite y = true → |((fvalue sqrt12 : ℚ) : ℝ) - 1 / √2| ≤ |((fvalue y : ℚ) : ℝ) - 1 / √2|) ∧
  (isFinite twoPi = true ∧ fvalue twoPi = 2 * fvalue fpi) ∧ (isFinite halfPi = true ∧ fvalue halfPi = fvalue fpi / 2) ∧
  (isFinite quarterPi = true ∧ fvalue quarterPi = fvalue fpi / 4) ∧
  (∀ rq ∈ ([(0x3FC999999999999A, 1 / 5), (0x3FE999999999999A, 4 / 5), (0x3F50624DD2F1A9FC, 1 / 1000),
      (0x412E848000000000, 1000000), (0x3FF8000000000000, 3 / 2), (0x3FE0000000000000, 1 / 2), (0x3FF0000000000000, 1),
      (0x4000000000000000, 2), (0x4008000000000000, 3), (0x4014000000000000, 5), (0x401C000000000000, 7)] :
      List (F64 × ℚ)), isFinite rq.1 = true ∧ NearestEven rq.1 rq.2) ∧
  fsin 0x0000000000000000 = 0x0000000000000000 ∧ fcos 0x0000000000000000 = 0x3FF0000000000000
end

