-- ==== Sys2Proof/Laws/Config.lean ====
section
/-! SUPPORT. The bounds of R9 on the capacities, which hold whatever the implementation chose. -/

namespace Sys2Proof

theorem Config.maxBits_pos : 1 ≤ Config.maxBits := Nat.le_add_right 1 _

theorem Config.maxBits_le : Config.maxBits ≤ 167769 := by
  have := Nat.mod_lt Config.maxBitsSeed (show 0 < Config.maxBitsLimit by decide)
  unfold Config.maxBits Config.maxBitsLimit at *
  omega

theorem Config.minPoints_le_limit : Config.minPoints Config.maxBits ≤ 2 ^ 24 := by
  have := Config.maxBits_le
  unfold Config.minPoints
  omega

theorem Config.minPoints_le_maxPoints : Config.minPoints Config.maxBits ≤ Config.maxPoints := Nat.le_add_right _ _

theorem Config.maxPoints_le : Config.maxPoints ≤ 2 ^ 24 := by
  have h := Nat.mod_lt Config.maxPointsSeed (show 0 < 2 ^ 24 - Config.minPoints Config.maxBits + 1 by omega)
  have := Config.minPoints_le_limit
  unfold Config.maxPoints
  omega

/-- Four Points for each bit fit a buffer: every LINE command (R110). -/
theorem Config.four_mul_maxBits_le : 4 * Config.maxBits ≤ Config.maxPoints := by
  have := Config.minPoints_le_maxPoints
  unfold Config.minPoints at this
  omega

/-- The longest DMOD sequence fits a buffer (R143). -/
theorem Config.samples_le : 100 * (Config.maxBits + 3) + 1 ≤ Config.maxPoints := by
  have := Config.minPoints_le_maxPoints
  unfold Config.minPoints at this
  omega

/-- The analog inputs fit a buffer: 201 and 401 Points (R99). -/
theorem Config.analog_le : 401 ≤ Config.maxPoints := by
  have := Config.minPoints_le_maxPoints
  unfold Config.minPoints at this
  omega

namespace Machine

theorem pointBufferBytes_le : pointBufferBytes ≤ 2 ^ 28 := by
  have := Config.maxPoints_le
  unfold pointBufferBytes
  omega

theorem bitBytes_le : bitBytes ≤ 2 ^ 28 := by
  have := Config.maxBits_le
  unfold bitBytes
  omega

/-- BITBUF holds a byte for every legal bit. -/
theorem maxBits_le_bitBytes : Config.maxBits ≤ bitBytes := by
  unfold bitBytes
  omega

end Machine

end Sys2Proof
end

