-- ==== Sys2Proof/Laws/Memory.lean ====
section
/-! SUPPORT. What the memory operations do: a read after a write, the canonical form, and the words and Points a write
leaves behind. -/

namespace Sys2Proof.Machine

@[simp] theorem memRead_nil (a : Nat) : memRead [] a = none := rfl

@[simp] theorem memRead_cons (c : Host.Cell) (m : Memory) (a : Nat) :
    memRead (c :: m) a = if c.1 = a then some c.2 else memRead m a := rfl

theorem memRead_append (m m' : Memory) (a : Nat) :
    memRead (m ++ m') a = (memRead m a).orElse fun _ => memRead m' a := by
  induction m with
  | nil => simp
  | cons c m ih => by_cases h : c.1 = a <;> simp [h, ih]

theorem memRead_filter (p : Nat → Bool) (m : Memory) (a : Nat) :
    memRead (m.filter fun c => p c.1) a = if p a then memRead m a else none := by
  induction m with
  | nil => simp
  | cons c m ih =>
    by_cases hp : p c.1 <;> by_cases h : c.1 = a <;> simp_all

theorem memRead_cellsFrom (a x : Nat) (bs : List Byte) :
    memRead (cellsFrom a bs) x = if a ≤ x then bs[x - a]? else none := by
  induction bs generalizing a with
  | nil => simp [cellsFrom]
  | cons b bs ih =>
    simp only [cellsFrom, memRead_cons, ih]
    rcases Nat.lt_trichotomy a x with h | h | h
    · have h1 : a ≠ x := by omega
      have h2 : x - a = (x - (a + 1)) + 1 := by omega
      simp [h1, h2, show a + 1 ≤ x from h, show a ≤ x by omega]
    · subst h; simp
    · simp [show a ≠ x by omega, show ¬ a + 1 ≤ x by omega, show ¬ a ≤ x by omega]

/-- Everything a write does to one byte: inside the written range the new byte, outside it the old content. -/
theorem memRead_memWrite (m : Memory) (a x : Nat) (bs : List Byte) :
    memRead (memWrite m a bs) x = if a ≤ x ∧ x < a + bs.length then bs[x - a]? else memRead m x := by
  have h1 := memRead_filter (fun n => decide (n < a)) m x
  have h2 := memRead_filter (fun n => decide (a + bs.length ≤ n)) m x
  simp only [memWrite, memRead_append, h1, h2, memRead_cellsFrom]
  rcases Nat.lt_or_ge x a with h | h
  · simp [h, show ¬ a ≤ x by omega, show ¬ a + bs.length ≤ x by omega]
  · rcases Nat.lt_or_ge x (a + bs.length) with h' | h'
    · have : x - a < bs.length := by omega
      simp [h, h', show ¬ x < a by omega, this]
    · have : ¬ x - a < bs.length := by omega
      simp [h, h', show ¬ x < a by omega, show ¬ x < a + bs.length by omega,
        List.getElem?_eq_none (by omega : bs.length ≤ x - a)]

theorem memRead_memWrite_inside (m : Memory) (a k : Nat) (bs : List Byte) (h : k < bs.length) :
    memRead (memWrite m a bs) (a + k) = some bs[k] := by
  rw [memRead_memWrite, if_pos (by omega)]
  simp [h]

theorem memRead_memWrite_outside (m : Memory) (a x : Nat) (bs : List Byte) (h : x < a ∨ a + bs.length ≤ x) :
    memRead (memWrite m a bs) x = memRead m x := by
  rw [memRead_memWrite, if_neg (by omega)]

theorem mem_cellsFrom {a : Nat} {bs : List Byte} {c : Host.Cell} (h : c ∈ cellsFrom a bs) :
    a ≤ c.1 ∧ c.1 < a + bs.length := by
  induction bs generalizing a with
  | nil => simp [cellsFrom] at h
  | cons b bs ih =>
    simp only [cellsFrom, List.mem_cons] at h
    rcases h with rfl | h
    · simp
    · have := ih h; simp only [List.length_cons]; omega

theorem cellsFrom_wf (a : Nat) (bs : List Byte) : Memory.wf (cellsFrom a bs) := by
  induction bs generalizing a with
  | nil => simp [cellsFrom]
  | cons b bs ih =>
    simp only [cellsFrom, Memory.wf, List.pairwise_cons]
    exact ⟨fun c hc => by have := mem_cellsFrom hc; omega, ih _⟩

/-- A write keeps the canonical form. -/
theorem memWrite_wf {m : Memory} (h : Memory.wf m) (a : Nat) (bs : List Byte) : Memory.wf (memWrite m a bs) := by
  simp only [memWrite, Memory.wf, List.pairwise_append]
  refine ⟨⟨h.filter _, cellsFrom_wf a bs, ?_⟩, h.filter _, ?_⟩
  · intro c hc d hd
    have := mem_cellsFrom hd
    simp only [List.mem_filter, decide_eq_true_eq] at hc
    omega
  · intro c hc d hd
    simp only [List.mem_append, List.mem_filter, decide_eq_true_eq] at hc hd
    rcases hc with hc | hc
    · omega
    · have := mem_cellsFrom hc; omega

theorem writeWord_wf {m : Memory} (h : Memory.wf m) (a : Nat) (v : Word) : Memory.wf (writeWord m a v) :=
  memWrite_wf h _ _

theorem writePoints_wf {m : Memory} (h : Memory.wf m) (base : Nat) (ps : List Point) :
    Memory.wf (writePoints m base ps) := memWrite_wf h _ _

/-- Memory after reset has the canonical form. -/
theorem reset_mem_wf : Memory.wf State.reset.mem := List.Pairwise.nil

/-- A byte is listed exactly where a read finds one. -/
theorem exists_mem_iff_isSome (m : Memory) (a : Nat) : (∃ b, (a, b) ∈ m) ↔ (memRead m a).isSome := by
  induction m with
  | nil => simp
  | cons c m ih =>
    by_cases h : c.1 = a
    · simp only [memRead_cons, h, if_true, Option.isSome_some, iff_true]
      exact ⟨c.2, by rw [← h]; simp⟩
    · simp only [memRead_cons, h, if_false, ← ih, List.mem_cons]
      constructor
      · rintro ⟨b, hb | hb⟩
        · exact absurd (by rw [← hb]) h
        · exact ⟨b, hb⟩
      · rintro ⟨b, hb⟩; exact ⟨b, .inr hb⟩

/-! ### Words and Points -/

@[simp] theorem wordBytes_length (v : Word) : (wordBytes v).length = 4 := rfl

@[simp] theorem pointBytes_length (p : Point) : (pointBytes p).length = 16 := rfl

@[simp] theorem flatMap_pointBytes_length (ps : List Point) : (ps.flatMap pointBytes).length = 16 * ps.length := by
  induction ps with
  | nil => rfl
  | cons p ps ih => simp [ih]; omega

/-- A word put together again from its bytes. -/
theorem wordBytes_join (v : Word) :
    v.extractLsb' 24 8 ++ v.extractLsb' 16 8 ++ v.extractLsb' 8 8 ++ v.extractLsb' 0 8 = v := by
  ext i hi
  simp only [BitVec.getElem_append, BitVec.getElem_extractLsb']
  repeat' split
  all_goals (rw [← BitVec.getLsbD_eq_getElem]; congr 1; omega)

theorem ofHalves_halves (x : F64) : ofHalves (hi32 x) (lo32 x) = x := by
  refine BitVec.eq_of_getLsbD_eq fun i hi => ?_
  unfold ofHalves hi32 lo32
  rw [BitVec.getLsbD_append]
  by_cases h : i < 32
  · simp [h]
  · simp [h, show i - 32 < 32 by omega, show 32 + (i - 32) = i by omega]

@[simp] theorem lo32_ofHalves (hi lo : Word) : lo32 (ofHalves hi lo) = lo := by
  refine BitVec.eq_of_getLsbD_eq fun i hi' => ?_
  show ((hi ++ lo : BitVec (32 + 32)).extractLsb' 0 32).getLsbD i = lo.getLsbD i
  rw [BitVec.getLsbD_extractLsb', BitVec.getLsbD_append]
  simp [hi']

@[simp] theorem hi32_ofHalves (hi lo : Word) : hi32 (ofHalves hi lo) = hi := by
  refine BitVec.eq_of_getLsbD_eq fun i hi' => ?_
  show ((hi ++ lo : BitVec (32 + 32)).extractLsb' 32 32).getLsbD i = hi.getLsbD i
  rw [BitVec.getLsbD_extractLsb', BitVec.getLsbD_append]
  simp [hi']

/-- Where the four bytes of a word stand, the word is read. -/
theorem readWord_of_bytes {m : Memory} {a : Nat} {v : Word}
    (h : ∀ k (hk : k < 4), memRead m (a + k) = some ((wordBytes v)[k]'hk)) : readWord m a = some v := by
  have h0 := h 0 (by omega)
  have h1 := h 1 (by omega)
  have h2 := h 2 (by omega)
  have h3 := h 3 (by omega)
  simp only [Nat.add_zero] at h0
  simp only [readWord, h0, h1, h2, h3, wordBytes, List.getElem_cons_zero, List.getElem_cons_succ]
  rw [wordBytes_join]

/-- A word just written is read back, and its mark is set. -/
theorem readWord_writeWord (m : Memory) (a : Nat) (v : Word) : readWord (writeWord m a v) a = some v :=
  readWord_of_bytes fun k hk => memRead_memWrite_inside m a k (wordBytes v) hk

/-- A word's read depends on its four bytes alone. -/
theorem readWord_congr {m m' : Memory} {a : Nat} (h : ∀ k < 4, memRead m (a + k) = memRead m' (a + k)) :
    readWord m a = readWord m' a := by
  simp only [readWord, ← h 1 (by omega), ← h 2 (by omega), ← h 3 (by omega)]
  rw [show memRead m a = memRead m' a from h 0 (by omega)]

/-- A Point's read depends on its sixteen bytes alone. -/
theorem readPoint_congr {m m' : Memory} {a : Nat} (h : ∀ k < 16, memRead m (a + k) = memRead m' (a + k)) :
    readPoint m a = readPoint m' a := by
  have hw : ∀ j, j ≤ 12 → readWord m (a + j) = readWord m' (a + j) := fun j hj =>
    readWord_congr fun k hk => by rw [Nat.add_assoc]; exact h (j + k) (by omega)
  have h0 : readWord m a = readWord m' a := hw 0 (by omega)
  simp only [readPoint, readF64, h0, hw 4 (by omega), hw 8 (by omega), Nat.add_assoc, hw (8 + 4) (by omega)]

/-- A word is read exactly when its four bytes are listed: its written mark is set (R47). -/
theorem readWord_isSome (m : Memory) (a : Nat) :
    (readWord m a).isSome ↔ ∀ k < 4, (memRead m (a + k)).isSome := by
  constructor
  · intro h
    simp only [readWord] at h
    split at h
    · intro k hk
      obtain rfl | rfl | rfl | rfl : k = 0 ∨ k = 1 ∨ k = 2 ∨ k = 3 := by omega
      all_goals simp_all
    · simp at h
  · intro h
    have h0 := h 0 (by omega)
    have h1 := h 1 (by omega)
    have h2 := h 2 (by omega)
    have h3 := h 3 (by omega)
    simp only [Nat.add_zero, Option.isSome_iff_exists] at h0 h1 h2 h3
    obtain ⟨b0, h0⟩ := h0
    obtain ⟨b1, h1⟩ := h1
    obtain ⟨b2, h2⟩ := h2
    obtain ⟨b3, h3⟩ := h3
    simp [readWord, h0, h1, h2, h3]

/-- Where the sixteen bytes of a Point stand, the Point is read. -/
theorem readPoint_of_bytes {m : Memory} {a : Nat} {p : Point}
    (h : ∀ k (hk : k < 16), memRead m (a + k) = some ((pointBytes p)[k]'hk)) : readPoint m a = some p := by
  have w0 : readWord m a = some (lo32 p.x) := readWord_of_bytes fun k hk => by
    have h' := h k (by omega)
    obtain rfl | rfl | rfl | rfl : k = 0 ∨ k = 1 ∨ k = 2 ∨ k = 3 := by omega
    all_goals simpa [pointBytes, wordBytes] using h'
  have w1 : readWord m (a + 4) = some (hi32 p.x) := readWord_of_bytes fun k hk => by
    have h' := h (4 + k) (by omega)
    obtain rfl | rfl | rfl | rfl : k = 0 ∨ k = 1 ∨ k = 2 ∨ k = 3 := by omega
    all_goals simpa [pointBytes, wordBytes, Nat.add_assoc] using h'
  have w2 : readWord m (a + 8) = some (lo32 p.y) := readWord_of_bytes fun k hk => by
    have h' := h (8 + k) (by omega)
    obtain rfl | rfl | rfl | rfl : k = 0 ∨ k = 1 ∨ k = 2 ∨ k = 3 := by omega
    all_goals simpa [pointBytes, wordBytes, Nat.add_assoc] using h'
  have w3 : readWord m (a + 8 + 4) = some (hi32 p.y) := readWord_of_bytes fun k hk => by
    have h' := h (12 + k) (by omega)
    obtain rfl | rfl | rfl | rfl : k = 0 ∨ k = 1 ∨ k = 2 ∨ k = 3 := by omega
    all_goals simpa [pointBytes, wordBytes, Nat.add_assoc] using h'
  simp [readPoint, readF64, w0, w1, w2, w3, ofHalves_halves]

theorem flatMap_pointBytes_getElem (ps : List Point) (k j : Nat) (hk : k < ps.length) (hj : j < 16) :
    (ps.flatMap pointBytes)[16 * k + j]? = (pointBytes ps[k])[j]? := by
  induction ps generalizing k with
  | nil => simp at hk
  | cons p ps ih =>
    simp only [List.flatMap_cons]
    cases k with
    | zero => simpa using List.getElem?_append_left (by simpa using hj)
    | succ k =>
      rw [List.getElem?_append_right (by simp; omega)]
      have : 16 * (k + 1) + j - (pointBytes p).length = 16 * k + j := by simp; omega
      rw [this, ih k (by simpa using hk)]
      simp

/-- Point k of a sequence just written is read back from byte 16·k (R58, R94). -/
theorem readPoint_writePoints (m : Memory) (base : Nat) (ps : List Point) (k : Nat) (hk : k < ps.length) :
    readPoint (writePoints m base ps) (base + 16 * k) = some ps[k] := by
  refine readPoint_of_bytes fun j hj => ?_
  have hin : base ≤ base + 16 * k + j ∧ base + 16 * k + j < base + (ps.flatMap pointBytes).length := by
    rw [flatMap_pointBytes_length]; omega
  rw [writePoints, memRead_memWrite, if_pos hin]
  have : base + 16 * k + j - base = 16 * k + j := by omega
  rw [this, flatMap_pointBytes_getElem ps k j hk hj]
  exact List.getElem?_eq_getElem (by simpa using hj)

/-- A write of Points leaves every byte outside its range alone. -/
theorem memRead_writePoints_outside (m : Memory) (base x : Nat) (ps : List Point)
    (h : x < base ∨ base + 16 * ps.length ≤ x) : memRead (writePoints m base ps) x = memRead m x := by
  rw [writePoints, memRead_memWrite_outside]
  rw [flatMap_pointBytes_length]
  exact h

/-! ### Written marks -/

/-- The marks after a write of whole words: those of the words written, and the old ones (R47). -/
theorem wordMarked_memWrite {m : Memory} {base n : Nat} {bs : List Byte} (hb : base % 4 = 0) (hn : bs.length = 4 * n)
    (a : Nat) : WordMarked (memWrite m base bs) a ↔ (base ≤ a ∧ a < base + 4 * n) ∨ WordMarked m a := by
  unfold WordMarked
  by_cases h : base ≤ a ∧ a < base + 4 * n
  · simp only [h, and_self, true_or, iff_true]
    intro k hk
    have := memRead_memWrite_inside m base (a / 4 * 4 + k - base) bs (by omega)
    rw [show base + (a / 4 * 4 + k - base) = a / 4 * 4 + k by omega] at this
    simp [this]
  · simp only [h, false_or]
    refine forall₂_congr fun k hk => ?_
    rw [memRead_memWrite_outside m base _ bs (by omega)]

/-- The bytes listed after a write: those written, and the old ones. -/
theorem isSome_memRead_memWrite {m : Memory} {base : Nat} {bs : List Byte} (a : Nat) :
    (memRead (memWrite m base bs) a).isSome ↔ (base ≤ a ∧ a < base + bs.length) ∨ (memRead m a).isSome := by
  by_cases h : base ≤ a ∧ a < base + bs.length
  · have := memRead_memWrite_inside m base (a - base) bs (by omega)
    rw [show base + (a - base) = a by omega] at this
    simp [this, h]
  · rw [memRead_memWrite_outside m base a bs (by omega)]
    simp [h]

end Sys2Proof.Machine
end

