-- ==== Sys2Proof/Laws/Operands.lean ====
section
/-! SUPPORT. What the operand readers answer: ReadBits and ReadPoints succeed exactly on loaded operands, and how they stop. -/

namespace Sys2Proof.Machine

/-- A byte of a word that is read is listed in memory (R57, R59). -/
theorem memRead_of_readWord {m : Memory} {a : Nat} {w : Word} (h : readWord m a = some w) (k : Nat) (hk : k < 4) :
    memRead m (a + k) = some (w.extractLsb' (8 * k) 8) := by
  have hs := (readWord_isSome m a).mp (by simp [h])
  have h0 := hs 0 (by omega)
  have h1 := hs 1 (by omega)
  have h2 := hs 2 (by omega)
  have h3 := hs 3 (by omega)
  simp only [Nat.add_zero, Option.isSome_iff_exists] at h0 h1 h2 h3
  obtain ⟨b0, h0⟩ := h0
  obtain ⟨b1, h1⟩ := h1
  obtain ⟨b2, h2⟩ := h2
  obtain ⟨b3, h3⟩ := h3
  simp only [readWord, h0, h1, h2, h3, Option.some.injEq] at h
  subst h
  obtain rfl | rfl | rfl | rfl : k = 0 ∨ k = 1 ∨ k = 2 ∨ k = 3 := by omega
  all_goals
    simp only [Nat.add_zero, h0, h1, h2, h3, Option.some.injEq]
    refine BitVec.eq_of_getLsbD_eq fun i hi => ?_
    rw [BitVec.getLsbD_extractLsb']
    simp only [BitVec.getLsbD_append, hi, decide_true, Bool.true_and]
    obtain rfl | rfl | rfl | rfl | rfl | rfl | rfl | rfl :
      i = 0 ∨ i = 1 ∨ i = 2 ∨ i = 3 ∨ i = 4 ∨ i = 5 ∨ i = 6 ∨ i = 7 := by omega
    all_goals simp

theorem wordMarked_iff (m : Memory) (i : Nat) :
    WordMarked m (bitBase + i) ↔ (readWord m (bitBase + 4 * (i / 4))).isSome := by
  have : (bitBase + i) / 4 * 4 = bitBase + 4 * (i / 4) := by unfold bitBase; omega
  rw [readWord_isSome, WordMarked, this]

/-- BITBUF byte i as a command reads it (R59): exactly a written byte. -/
theorem readBitByte_eq_some (m : Memory) (i : Nat) (c : Byte) : readBitByte m i = some c ↔ BitByteIs m i c := by
  unfold BitByteIs readBitByte
  rw [wordMarked_iff]
  cases h : readWord m (bitBase + 4 * (i / 4)) with
  | none => simp
  | some w =>
    have hb := memRead_of_readWord h (i % 4) (Nat.mod_lt _ (by norm_num))
    rw [show bitBase + 4 * (i / 4) + i % 4 = bitBase + i by omega] at hb
    simp [hb]

theorem readBitByte_eq_none (m : Memory) (i : Nat) : readBitByte m i = none ↔ ¬ WordMarked m (bitBase + i) := by
  rw [wordMarked_iff, readBitByte, Option.map_eq_none_iff, Option.not_isSome_iff_eq_none]

/-- The loop of ReadBits answers the bits of exactly the loaded bytes. -/
theorem readBitsFrom_eq_ok (m : Memory) (n i : Nat) (b : List Bool) :
    readBitsFrom m n i = .ok b ↔ b.length = n ∧ ∀ j, (h : j < b.length) → BitByteIs m (i + j) (bitCode b[j]) := by
  induction n generalizing i b with
  | zero =>
    constructor
    · intro h; cases h; exact ⟨rfl, fun j hj => absurd hj (by simp)⟩
    · rintro ⟨h, -⟩; rw [List.length_eq_zero_iff.mp h]; rfl
  | succ n ih =>
    have key : ∀ c : Bool, readBitByte m i = some (bitCode c) →
        readBitsFrom m (n + 1) i = (readBitsFrom m n (i + 1)).map (c :: ·) := by
      intro c hc
      simp only [readBitsFrom, hc]
      cases c <;> simp [bitCode]
    constructor
    · intro h
      simp only [readBitsFrom] at h
      split at h
      · cases h
      · rename_i c hc
        have : ∃ v, c = bitCode v ∧ (readBitsFrom m n (i + 1)).map (v :: ·) = .ok b := by
          split at h
          · exact ⟨false, by simpa [bitCode], h⟩
          · split at h
            · exact ⟨true, by simpa [bitCode], h⟩
            · cases h
        obtain ⟨v, rfl, hv⟩ := this
        cases hr : readBitsFrom m n (i + 1) with
        | error e => rw [hr] at hv; cases hv
        | ok bs =>
          rw [hr] at hv
          cases hv
          obtain ⟨hl, hb⟩ := (ih (i + 1) bs).mp hr
          refine ⟨by simp [hl], fun j hj => ?_⟩
          cases j with
          | zero => exact (readBitByte_eq_some m i _).mp hc
          | succ j =>
            have := hb j (by simpa using hj)
            rwa [Nat.add_assoc, Nat.add_comm 1 j] at this
    · rintro ⟨hl, hb⟩
      cases b with
      | nil => simp at hl
      | cons v bs =>
        rw [key v ((readBitByte_eq_some m i _).mpr (hb 0 (by simp)))]
        have : readBitsFrom m n (i + 1) = .ok bs := (ih (i + 1) bs).mpr
          ⟨by simpa using hl, fun j hj => by
            have := hb (j + 1) (by simpa using hj)
            rwa [← Nat.add_assoc, Nat.add_right_comm] at this⟩
        rw [this]
        rfl

/-- ReadBits succeeds exactly on a loaded bit string (R91). -/
theorem readBits_eq_ok (s : State) (b : List Bool) : readBits s = .ok b ↔ BitsLoaded s b := by
  unfold readBits
  split
  · rename_i h
    refine ⟨fun h' => (by cases h'), fun h' => ?_⟩
    have := h'.length; have := h'.positive; have := h'.fits
    omega
  · rename_i h
    rw [readBitsFrom_eq_ok]
    constructor
    · rintro ⟨h1, h2⟩
      exact ⟨h1, by omega, by omega, fun j hj => by simpa using h2 j hj⟩
    · intro h'
      exact ⟨h'.length, fun j hj => by simpa using h'.bytes j hj⟩

/-- The loop of ReadBits stops at the first byte that is no bit: with InvalidInput where its word is written, as an unwritten read where it
is not (R91, R169). -/
theorem readBitsFrom_stop (m : Memory) (n i k : Nat) (hk : k < n)
    (hb : ∀ j < k, BitByteIs m (i + j) 0x30 ∨ BitByteIs m (i + j) 0x31) :
    (¬ WordMarked m (bitBase + (i + k)) → readBitsFrom m n i = .error .unwritten) ∧
    (∀ c, BitByteIs m (i + k) c → c ≠ 0x30 → c ≠ 0x31 → readBitsFrom m n i = .error (.error .invalidInput)) := by
  induction k generalizing n i with
  | zero =>
    obtain ⟨n, rfl⟩ : ∃ n', n = n' + 1 := ⟨n - 1, by omega⟩
    refine ⟨fun h => ?_, fun c hc h0 h1 => ?_⟩
    · have := (readBitByte_eq_none m i).mpr (by simpa using h)
      simp [readBitsFrom, this]
    · have := (readBitByte_eq_some m i c).mpr (by simpa using hc)
      simp only [readBitsFrom, this]
      rw [if_neg h0, if_neg h1]
  | succ k ih =>
    obtain ⟨n, rfl⟩ : ∃ n', n = n' + 1 := ⟨n - 1, by omega⟩
    have ih' := ih n (i + 1) (by omega) fun j hj => by
      have := hb (j + 1) (by omega)
      rwa [show i + (j + 1) = i + 1 + j by omega] at this
    rw [show i + 1 + k = i + (k + 1) by omega] at ih'
    rcases hb 0 (by omega) with h | h
    all_goals
      have := (readBitByte_eq_some m i _).mpr (by simpa using h)
      refine ⟨fun hm => ?_, fun c hc h0 h1 => ?_⟩
      · simp [readBitsFrom, this, ih'.1 hm, Except.map]
      · simp [readBitsFrom, this, ih'.2 c hc h0 h1, Except.map]

/-- The loop of ReadPoints answers exactly the loaded Points. -/
theorem readPointsFrom_eq_ok (m : Memory) (n i : Nat) (ps : List Point) :
    readPointsFrom m n i = .ok ps ↔
      ps.length = n ∧ ∀ j, (h : j < ps.length) → readPoint m (inBase + 16 * (i + j)) = some ps[j] := by
  induction n generalizing i ps with
  | zero =>
    constructor
    · intro h; cases h; exact ⟨rfl, fun j hj => absurd hj (by simp)⟩
    · rintro ⟨h, -⟩; rw [List.length_eq_zero_iff.mp h]; rfl
  | succ n ih =>
    constructor
    · intro h
      simp only [readPointsFrom] at h
      split at h
      · cases h
      · rename_i p hp
        cases hr : readPointsFrom m n (i + 1) with
        | error e => rw [hr] at h; cases h
        | ok qs =>
          rw [hr] at h
          cases h
          obtain ⟨hl, hb⟩ := (ih (i + 1) qs).mp hr
          refine ⟨by simp [hl], fun j hj => ?_⟩
          cases j with
          | zero => exact hp
          | succ j =>
            have := hb j (by simpa using hj)
            rwa [Nat.add_assoc, Nat.add_comm 1 j] at this
    · rintro ⟨hl, hb⟩
      cases ps with
      | nil => simp at hl
      | cons p qs =>
        have h0 : readPoint m (inBase + 16 * i) = some p := hb 0 (by simp)
        have : readPointsFrom m n (i + 1) = .ok qs := (ih (i + 1) qs).mpr
          ⟨by simpa using hl, fun j hj => by
            have := hb (j + 1) (by simpa using hj)
            rwa [← Nat.add_assoc, Nat.add_right_comm] at this⟩
        simp only [readPointsFrom, h0, this]
        rfl

/-- ReadPoints succeeds exactly on loaded Points (R105). -/
theorem readPoints_eq_ok (s : State) (ps : List Point) : readPoints s = .ok ps ↔ PointsLoaded s ps := by
  unfold readPoints
  split
  · rename_i h
    refine ⟨fun h' => (by cases h'), fun h' => ?_⟩
    have := h'.length; have := h'.positive; have := h'.fits
    omega
  · rename_i h
    rw [readPointsFrom_eq_ok]
    constructor
    · rintro ⟨h1, h2⟩
      exact ⟨h1, by omega, by omega, fun j hj => by simpa using h2 j hj⟩
    · intro h'
      exact ⟨h'.length, fun j hj => by simpa using h'.points j hj⟩

/-- The only way the loop of ReadPoints stops is an unwritten Point. -/
theorem readPointsFrom_stop (m : Memory) (n i : Nat) (h : ∃ j < n, readPoint m (inBase + 16 * (i + j)) = none) :
    readPointsFrom m n i = .error .unwritten := by
  induction n generalizing i with
  | zero => obtain ⟨j, hj, -⟩ := h; omega
  | succ n ih =>
    obtain ⟨j, hj, hn⟩ := h
    simp only [readPointsFrom]
    cases hp : readPoint m (inBase + 16 * i) with
    | none => rfl
    | some p =>
      cases j with
      | zero => rw [Nat.add_zero, hp] at hn; cases hn
      | succ j =>
        rw [ih (i + 1) ⟨j, by omega, by rwa [show i + 1 + j = i + (j + 1) by omega]⟩]
        rfl

/-- CheckAnalog passes exactly on legal FREQ and AMPL (R92). -/
theorem checkAnalog_eq (s : State) :
    checkAnalog s = if isPositiveFinite s.freq && isPositiveFinite s.ampl then .ok ()
      else .error (.error .invalidParameter) := by
  unfold checkAnalog checkParameter
  cases isPositiveFinite s.freq <;> cases isPositiveFinite s.ampl <;> rfl

/-- CheckA2DConfig of PCM passes exactly on a legal SRATE and QLEVELS (R148). -/
theorem checkPcmConfig_eq (s : State) :
    checkPcmConfig s = if isPositiveFinite s.srate && decide (2 ≤ s.qlevels.toNat) then .ok ()
      else .error (.error .invalidParameter) := by
  unfold checkPcmConfig checkParameter
  cases isPositiveFinite s.srate <;> cases decide (2 ≤ s.qlevels.toNat) <;> rfl

/-- CheckA2DConfig of DELTA passes exactly on a legal SRATE and DELTA_RATIO (R148). -/
theorem checkDeltaConfig_eq (s : State) :
    checkDeltaConfig s =
      if isPositiveFinite s.srate && (flt fzero s.deltaRatio && fle s.deltaRatio fone) then .ok ()
      else .error (.error .invalidParameter) := by
  unfold checkDeltaConfig checkParameter
  cases isPositiveFinite s.srate <;> cases flt fzero s.deltaRatio && fle s.deltaRatio fone <;> rfl

end Sys2Proof.Machine
end

