-- ==== Sys2Proof/Laws/Float.lean ====
section
/-! SUPPORT. Rounding: `rneDiv` picks a nearest natural number and `roundBits` is monotone; patterns taken apart; and what each
operation is on finite values that are not negative. -/

namespace Sys2Proof.Machine

/-! ### Rounding to a natural number -/

/-- `rneDiv num den` is within half of `num / den`, and even on a tie. -/
theorem rneDiv_spec (num den : Nat) (h : 0 < den) :
    2 * num ≤ (2 * rneDiv num den + 1) * den ∧ 2 * rneDiv num den * den ≤ 2 * num + den ∧
    (2 * num = (2 * rneDiv num den + 1) * den ∨ 2 * rneDiv num den * den = 2 * num + den →
      rneDiv num den % 2 = 0) := by
  have hdm : den * (num / den) + num % den = num := Nat.div_add_mod num den
  have hr : num % den < den := Nat.mod_lt _ h
  unfold rneDiv
  generalize num / den = q at hdm ⊢
  generalize num % den = r at hdm hr ⊢
  subst hdm
  dsimp only
  split
  · refine ⟨by nlinarith, by nlinarith, ?_⟩
    rintro (h1 | h1) <;> nlinarith
  · split
    · refine ⟨by nlinarith, by nlinarith, ?_⟩
      rintro (h1 | h1) <;> nlinarith
    · have hr2 : 2 * r = den := by omega
      have hq : q % 2 = 0 ∨ q % 2 = 1 := by omega
      rcases hq with hq | hq <;> rw [hq]
      · refine ⟨by nlinarith, by nlinarith, fun _ => by omega⟩
      · refine ⟨by nlinarith, by nlinarith, fun _ => by omega⟩

/-- Rounding is monotone in the exact quotient. -/
theorem rneDiv_mono {n d n' d' : Nat} (hd : 0 < d) (hd' : 0 < d') (h : n * d' ≤ n' * d) :
    rneDiv n d ≤ rneDiv n' d' := by
  by_contra hlt
  push Not at hlt
  obtain ⟨-, a2, a3⟩ := rneDiv_spec n d hd
  obtain ⟨b1, -, b3⟩ := rneDiv_spec n' d' hd'
  generalize rneDiv n d = r at *
  generalize rneDiv n' d' = r' at *
  have hdd : 0 < d * d' := Nat.mul_pos hd hd'
  have e1 : 2 * r * d * d' ≤ (2 * n + d) * d' := Nat.mul_le_mul_right _ a2
  have e2 : 2 * n' * d ≤ (2 * r' + 1) * d' * d := Nat.mul_le_mul_right _ b1
  have e3 : (2 * r' + 2) * (d * d') ≤ 2 * r * (d * d') := Nat.mul_le_mul_right _ (by omega)
  have e4 : (2 * r' + 2) * (d * d') = (2 * r' + 1) * d' * d + d * d' := by ring
  have e5 : 2 * r * d * d' = 2 * r * (d * d') := by ring
  have e6 : (2 * n + d) * d' = 2 * (n * d') + d * d' := by ring
  have hr : 2 * r * (d * d') = (2 * r' + 2) * (d * d') := by nlinarith
  have hr' : r = r' + 1 := by
    have := Nat.eq_of_mul_eq_mul_right hdd hr
    omega
  have t1 : 2 * r * d = 2 * n + d := by
    have : 2 * r * d * d' = (2 * n + d) * d' := by nlinarith
    exact Nat.eq_of_mul_eq_mul_right hd' this
  have t2 : 2 * n' = (2 * r' + 1) * d' := by
    have : 2 * n' * d = (2 * r' + 1) * d' * d := by nlinarith
    exact Nat.eq_of_mul_eq_mul_right hd this
  have := a3 (.inr t1)
  have := b3 (.inl t2)
  omega

/-- An exact quotient is not changed by rounding. -/
theorem rneDiv_mul (q d : Nat) (hd : 0 < d) : rneDiv (q * d) d = q := by
  simp [rneDiv, Nat.mul_div_cancel _ hd, hd]

theorem rneDiv_le {n d q : Nat} (hd : 0 < d) (h : n ≤ q * d) : rneDiv n d ≤ q := by
  calc rneDiv n d ≤ rneDiv (q * d) d := rneDiv_mono hd hd (Nat.mul_le_mul_right _ h)
    _ = q := rneDiv_mul q d hd

theorem le_rneDiv {n d q : Nat} (hd : 0 < d) (h : q * d ≤ n) : q ≤ rneDiv n d := by
  calc q = rneDiv (q * d) d := (rneDiv_mul q d hd).symm
    _ ≤ rneDiv n d := rneDiv_mono hd hd (Nat.mul_le_mul_right _ h)

/-! ### Rounding to a binary64 -/

/-- The exponent `roundBits` rounds at: the quotient keeps 53 significant bits. -/
theorem log2_window (q : Nat) :
    q < 2 ^ (53 + (Nat.log2 q - 52)) ∧ (1 ≤ Nat.log2 q - 52 → 2 ^ (52 + (Nat.log2 q - 52)) ≤ q) := by
  have hlt : q < 2 ^ (Nat.log2 q + 1) := Nat.lt_log2_self
  refine ⟨lt_of_lt_of_le hlt (Nat.pow_le_pow_right (by norm_num) (by omega)), fun h => ?_⟩
  have hq : q ≠ 0 := by rintro rfl; simp at h
  rw [show 52 + (Nat.log2 q - 52) = Nat.log2 q by omega]
  exact Nat.log2_self_le hq

/-- Rounding to a binary64 is monotone in the exact quotient. -/
theorem roundBits_mono {n d n' d' : Nat} (hd : 0 < d) (hd' : 0 < d') (h : n * d' ≤ n' * d) :
    roundBits n d ≤ roundBits n' d' := by
  have hq : n / d ≤ n' / d' := by
    rw [Nat.le_div_iff_mul_le hd']
    have h1 : n / d * d ≤ n := Nat.div_mul_le_self n d
    have h2 : n / d * d' * d ≤ n' * d := by
      calc n / d * d' * d = n / d * d * d' := by ring
        _ ≤ n * d' := Nat.mul_le_mul_right _ h1
        _ ≤ n' * d := h
    exact Nat.le_of_mul_le_mul_right h2 hd
  have hlog : Nat.log2 (n / d) ≤ Nat.log2 (n' / d') := by
    rw [Nat.log2_eq_log_two, Nat.log2_eq_log_two]; exact Nat.log_mono_right hq
  have hee : Nat.log2 (n / d) - 52 ≤ Nat.log2 (n' / d') - 52 := by omega
  obtain ⟨w1, -⟩ := log2_window (n / d)
  obtain ⟨-, w2⟩ := log2_window (n' / d')
  unfold roundBits
  dsimp only
  generalize Nat.log2 (n / d) - 52 = e at w1 hee ⊢
  generalize Nat.log2 (n' / d') - 52 = e' at w2 hee ⊢
  refine min_le_min_right _ ?_
  rcases Nat.eq_or_lt_of_le hee with rfl | hlt
  · refine Nat.add_le_add_left (rneDiv_mono (by positivity) (by positivity) ?_) _
    calc n * (d' * 2 ^ e) = n * d' * 2 ^ e := by ring
      _ ≤ n' * d * 2 ^ e := Nat.mul_le_mul_right _ h
      _ = n' * (d * 2 ^ e) := by ring
  · have up : rneDiv n (d * 2 ^ e) ≤ 2 ^ 53 := by
      refine rneDiv_le (by positivity) ?_
      have h1 : n < (n / d + 1) * d := by
        have := Nat.lt_mul_div_succ n hd
        rwa [Nat.mul_comm] at this
      have h2 : (n / d + 1) * d ≤ 2 ^ (53 + e) * d := Nat.mul_le_mul_right _ w1
      calc n ≤ 2 ^ (53 + e) * d := by omega
        _ = 2 ^ 53 * (d * 2 ^ e) := by rw [Nat.pow_add]; ring
    have low : 2 ^ 52 ≤ rneDiv n' (d' * 2 ^ e') := by
      refine le_rneDiv (by positivity) ?_
      calc 2 ^ 52 * (d' * 2 ^ e') = 2 ^ (52 + e') * d' := by rw [Nat.pow_add]; ring
        _ ≤ n' / d' * d' := Nat.mul_le_mul_right _ (w2 (by omega))
        _ ≤ n' := Nat.div_mul_le_self n' d'
    omega

theorem roundBits_le_inf (n d : Nat) : roundBits n d ≤ 0x7FF0000000000000 := Nat.min_le_right _ _

/-! ### Patterns taken apart -/

/-- The low 63 bits: of a value that is not negative, the whole pattern. -/
def lowBits (x : F64) : Nat := x.toNat % 2 ^ 63

theorem fsign_eq (x : F64) : fsign x = decide (2 ^ 63 ≤ x.toNat) := by
  simp only [fsign, BitVec.getLsbD, Nat.testBit_eq_decide_div_mod_eq]
  have := x.isLt
  rw [decide_eq_decide]
  omega

theorem fexp_eq (x : F64) : fexp x = lowBits x / 2 ^ 52 := by
  simp only [fexp, lowBits, BitVec.extractLsb'_toNat, Nat.shiftRight_eq_div_pow]
  omega

theorem ffrac_eq (x : F64) : ffrac x = lowBits x % 2 ^ 52 := by
  simp only [ffrac, lowBits, BitVec.extractLsb'_toNat, Nat.shiftRight_eq_div_pow]
  omega

theorem isNaN_iff (x : F64) : isNaN x = true ↔ 0x7FF0000000000000 < lowBits x := by
  have : lowBits x < 2 ^ 63 := Nat.mod_lt _ (by norm_num)
  simp only [isNaN, fexp_eq, ffrac_eq, Bool.and_eq_true, beq_iff_eq, bne_iff_ne]
  omega

theorem isInf_iff (x : F64) : isInf x = true ↔ lowBits x = 0x7FF0000000000000 := by
  have : lowBits x < 2 ^ 63 := Nat.mod_lt _ (by norm_num)
  simp only [isInf, fexp_eq, ffrac_eq, Bool.and_eq_true, beq_iff_eq]
  omega

theorem isFinite_iff (x : F64) : isFinite x = true ↔ lowBits x < 0x7FF0000000000000 := by
  have : lowBits x < 2 ^ 63 := Nat.mod_lt _ (by norm_num)
  simp only [isFinite, fexp_eq, bne_iff_ne]
  omega

theorem isZero_iff (x : F64) : isZero x = true ↔ lowBits x = 0 := by
  simp only [isZero, fexp_eq, ffrac_eq, Bool.and_eq_true, beq_iff_eq]
  omega

theorem fpack_toNat (neg : Bool) {b : Nat} (h : b < 2 ^ 63) :
    (fpack neg b).toNat = (if neg then 2 ^ 63 else 0) + b := by
  cases neg <;> simp [fpack, BitVec.toNat_ofNat] <;> omega

@[simp] theorem lowBits_fpack (neg : Bool) {b : Nat} (h : b < 2 ^ 63) : lowBits (fpack neg b) = b := by
  rw [lowBits, fpack_toNat neg h]; cases neg <;> simp <;> omega

@[simp] theorem fsign_fpack (neg : Bool) {b : Nat} (h : b < 2 ^ 63) : fsign (fpack neg b) = neg := by
  rw [fsign_eq, fpack_toNat neg h]
  cases neg
  · simpa using h
  · simp

/-- The magnitude that the low 63 bits of a finite pattern stand for, in units of 2^-1074. -/
def magBits (b : Nat) : Nat :=
  if b / 2 ^ 52 = 0 then b % 2 ^ 52 else (2 ^ 52 + b % 2 ^ 52) * 2 ^ (b / 2 ^ 52 - 1)

theorem fmag_eq (x : F64) : fmag x = magBits (lowBits x) := by
  simp only [fmag, magBits, fexp_eq, ffrac_eq]

/-- The magnitude grows with the pattern. -/
theorem magBits_mono {a b : Nat} (h : a ≤ b) : magBits a ≤ magBits b := by
  unfold magBits
  have hdiv : a / 2 ^ 52 ≤ b / 2 ^ 52 := Nat.div_le_div_right h
  have ha := Nat.mod_lt a (show 0 < 2 ^ 52 by norm_num)
  rcases Nat.eq_zero_or_pos (a / 2 ^ 52) with h0 | h0
  · rw [if_pos h0]
    split
    · omega
    · have : 1 ≤ 2 ^ (b / 2 ^ 52 - 1) := Nat.one_le_two_pow
      nlinarith [Nat.zero_le (b % 2 ^ 52)]
  · rw [if_neg (by omega), if_neg (by omega)]
    rcases Nat.eq_or_lt_of_le hdiv with he | he
    · rw [he]; exact Nat.mul_le_mul_right _ (by omega)
    · calc (2 ^ 52 + a % 2 ^ 52) * 2 ^ (a / 2 ^ 52 - 1) ≤ 2 ^ 53 * 2 ^ (a / 2 ^ 52 - 1) :=
            Nat.mul_le_mul_right _ (by omega)
        _ = 2 ^ 52 * 2 ^ (a / 2 ^ 52 - 1 + 1) := by rw [Nat.pow_succ 2 (a / 2 ^ 52 - 1)]; ring
        _ ≤ 2 ^ 52 * 2 ^ (b / 2 ^ 52 - 1) :=
            Nat.mul_le_mul_left _ (Nat.pow_le_pow_right (by norm_num) (by omega))
        _ ≤ (2 ^ 52 + b % 2 ^ 52) * 2 ^ (b / 2 ^ 52 - 1) := Nat.mul_le_mul_right _ (by omega)

theorem oneUnits_pos : 0 < oneUnits := by unfold oneUnits; exact Nat.two_pow_pos 1074

/-! ### Values that are not negative -/

/-- A binary64 that is not negative and not a NaN: its pattern orders it. -/
def Nonneg (x : F64) : Prop := x.toNat ≤ 0x7FF0000000000000

/-- A binary64 that is not negative and finite. -/
def NonnegFinite (x : F64) : Prop := x.toNat < 0x7FF0000000000000

theorem NonnegFinite.nonneg {x : F64} (h : NonnegFinite x) : Nonneg x := Nat.le_of_lt h

theorem Nonneg.lowBits {x : F64} (h : Nonneg x) : lowBits x = x.toNat := by
  unfold Nonneg at h; rw [Machine.lowBits]; omega

theorem Nonneg.fsign {x : F64} (h : Nonneg x) : fsign x = false := by
  unfold Nonneg at h; rw [fsign_eq]; simp; omega

theorem Nonneg.isNaN {x : F64} (h : Nonneg x) : isNaN x = false := by
  rw [Bool.eq_false_iff, ne_eq, isNaN_iff, h.lowBits]; unfold Nonneg at h; omega

theorem NonnegFinite.isFinite {x : F64} (h : NonnegFinite x) : isFinite x = true := by
  rw [isFinite_iff, h.nonneg.lowBits]; exact h

theorem NonnegFinite.isInf {x : F64} (h : NonnegFinite x) : isInf x = false := by
  rw [Bool.eq_false_iff, ne_eq, isInf_iff, h.nonneg.lowBits]; unfold NonnegFinite at h; omega

theorem fkey_of_nonneg {x : F64} (h : Nonneg x) : fkey x = x.toNat := by
  have hl : x.toNat % 2 ^ 63 = x.toNat := h.lowBits
  rw [fkey, h.fsign, hl]
  simp

/-- On values that are not negative, ≤ is the order of the patterns. -/
theorem fle_of_nonneg {x y : F64} (hx : Nonneg x) (hy : Nonneg y) : fle x y = decide (x.toNat ≤ y.toNat) := by
  simp [fle, hx.isNaN, hy.isNaN, fkey_of_nonneg hx, fkey_of_nonneg hy]

/-- On values that are not negative, < is the order of the patterns. -/
theorem flt_of_nonneg {x y : F64} (hx : Nonneg x) (hy : Nonneg y) : flt x y = decide (x.toNat < y.toNat) := by
  simp [flt, hx.isNaN, hy.isNaN, fkey_of_nonneg hx, fkey_of_nonneg hy]

theorem fround_toNat (n d : Nat) : (fround false n d).toNat = roundBits n d := by
  have := roundBits_le_inf n d
  rw [fround, fpack_toNat false (by omega)]
  simp

theorem fround_nonneg (n d : Nat) : Nonneg (fround false n d) := by
  unfold Nonneg; rw [fround_toNat]; exact roundBits_le_inf n d

/-- A positive rounded value grows with the exact quotient. -/
theorem fround_mono {n d n' d' : Nat} (hd : 0 < d) (hd' : 0 < d') (h : n * d' ≤ n' * d) :
    (fround false n d).toNat ≤ (fround false n' d').toNat := by
  rw [fround_toNat, fround_toNat]; exact roundBits_mono hd hd' h

theorem fmag_mono {x y : F64} (hx : Nonneg x) (hy : Nonneg y) (h : x.toNat ≤ y.toNat) : fmag x ≤ fmag y := by
  rw [fmag_eq, fmag_eq, hx.lowBits, hy.lowBits]; exact magBits_mono h

theorem fmag_pos {x : F64} (h : NonnegFinite x) (h0 : x.toNat ≠ 0) : 0 < fmag x := by
  rw [fmag_eq, h.nonneg.lowBits, magBits]
  split
  · omega
  · positivity

/-- The sum of finite values that are not negative. -/
theorem fadd_nonneg {x y : F64} (hx : NonnegFinite x) (hy : NonnegFinite y) :
    fadd x y = fround false (fmag x + fmag y) 1 := by
  have e : fscaled x + fscaled y = ((fmag x + fmag y : Nat) : Int) := by
    simp [fscaled, hx.nonneg.fsign, hy.nonneg.fsign]
  simp only [fadd, sumOr, hx.nonneg.isNaN, hy.nonneg.isNaN, hx.isInf, hy.isInf, hx.nonneg.fsign, e]
  rcases Nat.eq_zero_or_pos (fmag x + fmag y) with h | h
  · rw [h]
    simp only [Bool.or_self, Bool.false_and, Bool.false_eq_true, if_false, Int.natCast_zero, if_true]
    decide
  · have hne : ((fmag x + fmag y : Nat) : Int) ≠ 0 := by omega
    have hnn : ¬ ((fmag x + fmag y : Nat) : Int) < 0 := by omega
    simp only [hne, if_false, hnn, decide_false, Int.natAbs_natCast, Bool.or_self, Bool.false_eq_true]

/-- The product of finite values that are not negative. -/
theorem fmul_nonneg {x y : F64} (hx : NonnegFinite x) (hy : NonnegFinite y) :
    fmul x y = fround false (fmag x * fmag y) oneUnits := by
  simp only [fmul, hx.nonneg.isNaN, hy.nonneg.isNaN, hx.isInf, hy.isInf, hx.nonneg.fsign, hy.nonneg.fsign,
    Bool.false_and, Bool.and_false, Bool.or_self, Bool.false_eq_true, if_false, bne_self_eq_false]

/-- The quotient of a finite value that is not negative by a finite positive one. -/
theorem fdiv_nonneg {x y : F64} (hx : NonnegFinite x) (hy : NonnegFinite y) (h0 : y.toNat ≠ 0) :
    fdiv x y = fround false (fmag x * oneUnits) (fmag y) := by
  have hz : isZero y = false := by
    rw [Bool.eq_false_iff, ne_eq, isZero_iff, hy.nonneg.lowBits]; exact h0
  simp only [fdiv, hx.nonneg.isNaN, hy.nonneg.isNaN, hx.isInf, hy.isInf, hz, hx.nonneg.fsign, hy.nonneg.fsign,
    Bool.and_false, Bool.or_self, Bool.false_eq_true, if_false, bne_self_eq_false]

/-- The floor of a finite value that is not negative. -/
theorem ffloor_nonneg {x : F64} (hx : NonnegFinite x) : ffloor x = f64 (fmag x / oneUnits) := by
  have e : fscaled x / (oneUnits : Int) = ((fmag x / oneUnits : Nat) : Int) := by
    rw [fscaled, hx.nonneg.fsign, if_neg (by simp), Int.natCast_div]
  rw [ffloor, if_pos hx.isFinite, e]
  generalize fmag x / oneUnits = n
  rw [f64Int, f64, Int.natAbs_natCast, decide_eq_false (by omega)]

theorem f64_mono {m n : Nat} (h : m ≤ n) : (f64 m).toNat ≤ (f64 n).toNat := by
  refine fround_mono (by norm_num) (by norm_num) ?_
  exact Nat.mul_le_mul_right _ (Nat.mul_le_mul_right _ h)

theorem f64_nonneg (n : Nat) : Nonneg (f64 n) := fround_nonneg _ _

theorem fadd_mono {x x' y : F64} (hx : NonnegFinite x) (hx' : NonnegFinite x') (hy : NonnegFinite y)
    (h : x.toNat ≤ x'.toNat) : (fadd x y).toNat ≤ (fadd x' y).toNat := by
  rw [fadd_nonneg hx hy, fadd_nonneg hx' hy]
  refine fround_mono (by norm_num) (by norm_num) ?_
  have := fmag_mono hx.nonneg hx'.nonneg h
  omega

theorem fmul_mono {x x' y : F64} (hx : NonnegFinite x) (hx' : NonnegFinite x') (hy : NonnegFinite y)
    (h : x.toNat ≤ x'.toNat) : (fmul x y).toNat ≤ (fmul x' y).toNat := by
  rw [fmul_nonneg hx hy, fmul_nonneg hx' hy]
  refine fround_mono oneUnits_pos oneUnits_pos ?_
  exact Nat.mul_le_mul_right _ (Nat.mul_le_mul_right _ (fmag_mono hx.nonneg hx'.nonneg h))

theorem fdiv_mono {x x' y : F64} (hx : NonnegFinite x) (hx' : NonnegFinite x') (hy : NonnegFinite y)
    (h0 : y.toNat ≠ 0) (h : x.toNat ≤ x'.toNat) : (fdiv x y).toNat ≤ (fdiv x' y).toNat := by
  rw [fdiv_nonneg hx hy h0, fdiv_nonneg hx' hy h0]
  have hp := fmag_pos hy h0
  refine fround_mono hp hp ?_
  exact Nat.mul_le_mul_right _ (Nat.mul_le_mul_right _ (fmag_mono hx.nonneg hx'.nonneg h))

theorem ffloor_mono {x x' : F64} (hx : NonnegFinite x) (hx' : NonnegFinite x') (h : x.toNat ≤ x'.toNat) :
    (ffloor x).toNat ≤ (ffloor x').toNat := by
  rw [ffloor_nonneg hx, ffloor_nonneg hx']
  exact f64_mono (Nat.div_le_div_right (fmag_mono hx.nonneg hx'.nonneg h))

/-! ### Negation and the kinds of binary64 -/

@[simp] theorem lowBits_fneg (x : F64) : lowBits (fneg x) = lowBits x := by
  have hx : (fneg x).toNat = x.toNat ^^^ 2 ^ 63 := BitVec.toNat_xor x 0x8000000000000000
  have hm : ∀ a : Nat, a % 2 ^ 63 = a &&& (2 ^ 63 - 1) := fun a => (Nat.and_two_pow_sub_one_eq_mod a 63).symm
  rw [lowBits, lowBits, hx, hm, hm]
  apply Nat.eq_of_testBit_eq
  intro i
  simp only [Nat.testBit_and, Nat.testBit_xor, Nat.testBit_two_pow, Nat.testBit_two_pow_sub_one]
  by_cases h : i < 63
  · simp [h, show ¬ 63 = i by omega]
  · simp [h]

@[simp] theorem fsign_fneg (x : F64) : fsign (fneg x) = !fsign x := by
  simp [fsign, fneg]

@[simp] theorem isNaN_fneg (x : F64) : isNaN (fneg x) = isNaN x := by
  rw [Bool.eq_iff_iff, isNaN_iff, isNaN_iff, lowBits_fneg]

@[simp] theorem isInf_fneg (x : F64) : isInf (fneg x) = isInf x := by
  rw [Bool.eq_iff_iff, isInf_iff, isInf_iff, lowBits_fneg]

@[simp] theorem isFinite_fneg (x : F64) : isFinite (fneg x) = isFinite x := by
  rw [Bool.eq_iff_iff, isFinite_iff, isFinite_iff, lowBits_fneg]

@[simp] theorem fscaled_fneg (x : F64) : fscaled (fneg x) = -fscaled x := by
  rw [fscaled, fscaled, fmag_eq, fmag_eq, lowBits_fneg, fsign_fneg]
  cases fsign x <;> simp

/-- A binary64 is a NaN, an infinity or finite, and only a finite one is a zero. -/
theorem float_kinds (x : F64) :
    (isNaN x = true ∧ isInf x = false ∧ isFinite x = false ∧ isZero x = false) ∨
    (isNaN x = false ∧ isInf x = true ∧ isFinite x = false ∧ isZero x = false) ∨
    (isNaN x = false ∧ isInf x = false ∧ isFinite x = true) := by
  simp only [← Bool.not_eq_true, isNaN_iff, isInf_iff, isFinite_iff, isZero_iff]
  omega

/-! ### Free values kept within their law -/

/-- A NaN result is a NaN. -/
theorem nanResult_isNaN (op : F64Op) (x y : F64) : isNaN (nanResult op x y) = true := by
  unfold nanResult; split
  · assumption
  · decide

/-- The draw for CALC_TIME is not negative (R89). -/
theorem calcTimeDraw_nonneg (n : Nat) : fle fzero (calcTimeDraw n) = true := by
  unfold calcTimeDraw; split
  · assumption
  · decide

@[simp] theorem fsin_zero : fsin fzero = fzero := by simp [fsin]

@[simp] theorem fcos_zero : fcos fzero = fone := by simp [fcos]

end Sys2Proof.Machine
end

