-- ==== Sys2Proof/Laws/Sequences.lean ====
section
/-! SUPPORT. The Point sequences of the commands: how long each is, and flat and split segments written out by index. -/

namespace Sys2Proof.Machine

@[simp] theorem fone_eq : fone = voltPlus := by decide +kernel

@[simp] theorem f64_one_eq : f64 1 = voltPlus := by decide +kernel

@[simp] theorem f64_zero_eq : f64 0 = voltZero := by decide +kernel

@[simp] theorem fzero_eq : fzero = voltZero := rfl

@[simp] theorem fneg_voltPlus : fneg voltPlus = voltMinus := by decide +kernel

@[simp] theorem fneg_voltMinus : fneg voltMinus = voltPlus := by decide +kernel

theorem fneg_volt (b : Bool) : fneg (volt b) = volt (!b) := by cases b <;> decide +kernel

theorem lvl_eq (b : Bool) : lvl b = volt b := by cases b <;> decide +kernel

theorem half_eq : fdec 1 2 = 0x3FE0000000000000 := by decide +kernel

@[simp] theorem fneg_fneg (x : F64) : fneg (fneg x) = x := by
  unfold fneg; rw [BitVec.xor_assoc, BitVec.xor_self, BitVec.xor_zero]

/-! ### Segments -/

@[simp] theorem flatSegs_length (i : Nat) (vs : List F64) : (flatSegs i vs).length = 2 * vs.length := by
  induction vs generalizing i with
  | nil => rfl
  | cons v vs ih => simp [flatSegs, seg, ih]; omega

@[simp] theorem splitSegs_length (i : Nat) (vs : List (F64 × F64)) : (splitSegs i vs).length = 4 * vs.length := by
  induction vs generalizing i with
  | nil => rfl
  | cons v vs ih => simp [splitSegs, mseg, ih]; omega

theorem flatSegs_append (i : Nat) (vs ws : List F64) :
    flatSegs i (vs ++ ws) = flatSegs i vs ++ flatSegs (i + vs.length) ws := by
  induction vs generalizing i with
  | nil => rfl
  | cons v vs ih => simp [flatSegs, ih, Nat.add_assoc, Nat.add_comm 1]

theorem range_flatMap_succ {α : Type} (n : Nat) (g : Nat → List α) :
    (List.range (n + 1)).flatMap g = g 0 ++ (List.range n).flatMap fun j => g (j + 1) := by
  rw [List.range_succ_eq_map, List.flatMap_cons, List.flatMap_map]

/-- Flat segments from slot `i`, written out by index. -/
theorem flatSegs_eq (i : Nat) (vs : List F64) (d : F64) :
    flatSegs i vs = (List.range vs.length).flatMap fun j =>
      [⟨f64 (i + j), vs.getD j d⟩, ⟨f64 (i + j + 1), vs.getD j d⟩] := by
  induction vs generalizing i with
  | nil => rfl
  | cons v vs ih =>
    rw [flatSegs, ih (i + 1), List.length_cons, range_flatMap_succ]
    simp only [Nat.add_right_comm i 1, Nat.add_assoc]
    rfl

/-- Split segments from slot `i`, written out by index. -/
theorem splitSegs_eq (i : Nat) (vs : List (F64 × F64)) (d : F64 × F64) :
    splitSegs i vs = (List.range vs.length).flatMap fun j =>
      mseg (i + j) (vs.getD j d).1 (vs.getD j d).2 := by
  induction vs generalizing i with
  | nil => rfl
  | cons v vs ih =>
    rw [splitSegs, ih (i + 1), List.length_cons, range_flatMap_succ]
    simp only [Nat.add_right_comm i 1, Nat.add_assoc]
    rfl

theorem flatMap_range_congr {α : Type} {n : Nat} {g h : Nat → List α} (e : ∀ i < n, g i = h i) :
    (List.range n).flatMap g = (List.range n).flatMap h := by
  rw [List.flatMap_def, List.flatMap_def]
  congr 1
  exact List.map_congr_left fun i hi => e i (List.mem_range.mp hi)

/-- Flat segments from slot 0 whose values are known by index. -/
theorem flatSegs_eq_flatSlots {vs : List F64} {n : Nat} {v : Nat → F64} (hn : vs.length = n)
    (hv : ∀ i < n, vs[i]? = some (v i)) : flatSegs 0 vs = flatSlots n v := by
  rw [flatSegs_eq 0 vs voltZero, hn, flatSlots]
  refine flatMap_range_congr fun i hi => ?_
  simp [List.getD_eq_getElem?_getD, hv i hi]

/-- Split segments from slot 0 whose values are known by index. -/
theorem splitSegs_eq_splitSlots {vs : List (F64 × F64)} {n : Nat} {h l : Nat → F64} (hn : vs.length = n)
    (hv : ∀ i < n, vs[i]? = some (h i, l i)) : splitSegs 0 vs = splitSlots n h l := by
  rw [splitSegs_eq 0 vs (voltZero, voltZero), hn, splitSlots]
  refine flatMap_range_congr fun i hi => ?_
  simp [List.getD_eq_getElem?_getD, hv i hi, mseg, half_eq]

/-- DigitalInput(b) written out (R100). -/
theorem digitalInput_eq (b : List Bool) : digitalInput b = digitalPoints b := by
  refine flatSegs_eq_flatSlots (by simp) fun i hi => ?_
  simp only [List.getElem?_map, List.getElem?_eq_getElem hi, bit, List.getD_eq_getElem?_getD,
    Option.map_some, Option.getD_some, bitLevel]
  split <;> simp

/-! ### Lengths -/

@[simp] theorem digitalInput_length (b : List Bool) : (digitalInput b).length = 2 * b.length := by
  simp [digitalInput]

/-- The sampler is the samples of R99 by index. -/
theorem analogInput_eq (f amp : F64) (sps : Nat) : analogInput f amp sps = analogPoints f amp sps := rfl

@[simp] theorem analogInput_length (f amp : F64) (sps : Nat) : (analogInput f amp sps).length = 2 * sps + 1 := by
  simp [analogInput]

@[simp] theorem nrzLVolts_length (b : List Bool) : (nrzLVolts b).length = b.length := by simp [nrzLVolts]

@[simp] theorem nrzIVolts_length (l : F64) (b : List Bool) : (nrzIVolts l b).length = b.length := by
  induction b generalizing l with
  | nil => rfl
  | cons c b ih => cases c <;> simp [nrzIVolts, ih]

@[simp] theorem manchesterHalves_length (b : List Bool) : (manchesterHalves b).length = b.length := by
  simp [manchesterHalves]

@[simp] theorem diffManchesterHalves_length (l : F64) (b : List Bool) :
    (diffManchesterHalves l b).length = b.length := by
  induction b generalizing l with
  | nil => rfl
  | cons c b ih => cases c <;> simp [diffManchesterHalves, ih]

@[simp] theorem amiVolts_length (p : F64) (b : List Bool) : (amiVolts p b).length = b.length := by
  induction b generalizing p with
  | nil => rfl
  | cons c b ih => cases c <;> simp [amiVolts, ih]

@[simp] theorem pseudoternaryVolts_length (p : F64) (b : List Bool) :
    (pseudoternaryVolts p b).length = b.length := by
  induction b generalizing p with
  | nil => rfl
  | cons c b ih => cases c <;> simp [pseudoternaryVolts, ih]

@[simp] theorem b8zsVolts_length (p : F64) (b : List Bool) : (b8zsVolts p b).length = b.length := by
  fun_induction b8zsVolts p b <;> simp_all

@[simp] theorem hdb3Volts_length (p : F64) (c : Nat) (b : List Bool) : (hdb3Volts p c b).length = b.length := by
  fun_induction hdb3Volts p c b <;> simp_all

@[simp] theorem dpskPhases_length (θ : F64) (b : List Bool) : (dpskPhases θ b).length = b.length := by
  induction b generalizing θ with
  | nil => rfl
  | cons c b ih => cases c <;> simp [dpskPhases, ih]

/-- ceil(N / k) symbols of k bits hold the N bits. -/
theorem le_mul_symbolCount (n k : Nat) (hk : 0 < k) : n ≤ k * symbolCount n k := by
  have := Nat.div_add_mod (n + k - 1) k
  have := Nat.mod_lt (n + k - 1) hk
  unfold symbolCount
  omega

theorem mul_symbolCount_lt (n k : Nat) (hk : 0 < k) : k * symbolCount n k < n + k := by
  have := Nat.mul_div_le (n + k - 1) k
  unfold symbolCount
  omega

@[simp] theorem padBits_length (b : List Bool) {k : Nat} (hk : 0 < k) :
    (padBits b k).length = paddedLength b.length k := by
  have := le_mul_symbolCount b.length k hk
  simp only [padBits, List.length_append, List.length_replicate, paddedLength]
  unfold symbolCount at *
  omega

theorem paddedLength_lt (n k : Nat) (hk : 0 < k) : paddedLength n k < n + k := mul_symbolCount_lt n k hk

theorem le_paddedLength (n k : Nat) (hk : 0 < k) : n ≤ paddedLength n k := le_mul_symbolCount n k hk

@[simp] theorem binaryGrid_length (b : List Bool) (y : Nat → F64 → F64) :
    (binaryGrid b y).length = 100 * b.length + 1 := by
  simp [binaryGrid, samplesPerBit, Nat.mul_comm]

theorem symbolGrid_length (b : List Bool) {k : Nat} (hk : 0 < k) (y : List Bool → F64 → F64) :
    (symbolGrid b k y).length = 100 * paddedLength b.length k + 1 := by
  simp [symbolGrid, samplesPerBit, hk, Nat.mul_comm]

theorem oqpskTx_length (b : List Bool) : (oqpskTx b).length = 100 * paddedLength b.length 2 + 1 := by
  simp [oqpskTx, Nat.mul_comm]

/-- Every DMOD sequence of a legal bit string fits its buffer (R143). -/
theorem padded_samples_le {n k : Nat} (hk : 0 < k) (hk4 : k ≤ 4) (hn : n ≤ Config.maxBits) :
    100 * paddedLength n k + 1 ≤ Config.maxPoints := by
  have := paddedLength_lt n k hk
  have := Config.samples_le
  omega

/-- The first instant is sampled: T[0] = +0.0 (R146). -/
theorem sampleInstant_zero_toNat {fs : F64} (h : NonnegFinite fs) (h0 : fs.toNat ≠ 0) :
    sampleInstant fs 0 = voltZero := by
  have hz : NonnegFinite (f64 0) := show (f64 0).toNat < 0x7FF0000000000000 by decide +kernel
  have hq : fdiv (f64 0) fs = voltZero := by
    rw [fdiv_nonneg hz h h0, show fmag (f64 0) = 0 by decide +kernel, Nat.zero_mul]
    have hp := fmag_pos h h0
    simp [fround, roundBits, rneDiv, fpack, voltZero, hp]
  rw [sampleInstant, hq]
  decide +kernel

/-! ### The literals of the rules as patterns (R20) -/

theorem fdec_one_fifth : fdec 1 5 = 0x3FC999999999999A := by decide +kernel
theorem fdec_four_fifths : fdec 4 5 = 0x3FE999999999999A := by decide +kernel
theorem fdec_one_thousandth : fdec 1 1000 = 0x3F50624DD2F1A9FC := by decide +kernel
theorem fdec_three_halves : fdec 3 2 = 0x3FF8000000000000 := by decide +kernel
theorem f64_two : f64 2 = 0x4000000000000000 := by decide +kernel
theorem f64_three : f64 3 = 0x4008000000000000 := by decide +kernel
theorem f64_five : f64 5 = 0x4014000000000000 := by decide +kernel
theorem f64_million : f64 1000000 = 0x412E848000000000 := by decide +kernel
theorem f64_seven : f64 7 = 0x401C000000000000 := by decide +kernel

/-- The instants grow with their index as long as the later one's operations stay finite (R146). -/
theorem sampleInstant_mono_of_finite {fs : F64} (hs : NonnegFinite fs) (h0 : fs.toNat ≠ 0) {j n : Nat} (hj : j ≤ n)
    (t1 : NonnegFinite (f64 n)) (t2 : NonnegFinite (fdiv (f64 n) fs))
    (t3 : NonnegFinite (fmul (fdiv (f64 n) fs) (f64 1000000)))
    (t4 : NonnegFinite (fadd (fmul (fdiv (f64 n) fs) (f64 1000000)) (fdec 1 2)))
    (t5 : NonnegFinite (rhu (fmul (fdiv (f64 n) fs) (f64 1000000)))) :
    (sampleInstant fs j).toNat ≤ (sampleInstant fs n).toNat := by
  have hm6 : NonnegFinite (f64 1000000) := show (f64 1000000).toNat < 0x7FF0000000000000 by decide +kernel
  have h06 : (f64 1000000).toNat ≠ 0 := by decide +kernel
  have hh : NonnegFinite (fdec 1 2) := show (fdec 1 2).toNat < 0x7FF0000000000000 by decide +kernel
  have l1 := f64_mono hj
  have n1 : NonnegFinite (f64 j) := Nat.lt_of_le_of_lt l1 t1
  have l2 := fdiv_mono n1 t1 hs h0 l1
  have n2 : NonnegFinite (fdiv (f64 j) fs) := Nat.lt_of_le_of_lt l2 t2
  have l3 := fmul_mono n2 t2 hm6 l2
  have n3 : NonnegFinite (fmul (fdiv (f64 j) fs) (f64 1000000)) := Nat.lt_of_le_of_lt l3 t3
  have l4 := fadd_mono n3 t3 hh l3
  have n4 : NonnegFinite (fadd (fmul (fdiv (f64 j) fs) (f64 1000000)) (fdec 1 2)) := Nat.lt_of_le_of_lt l4 t4
  have l5 := ffloor_mono n4 t4 l4
  rw [← rhu, ← rhu] at l5
  have n5 : NonnegFinite (rhu (fmul (fdiv (f64 j) fs) (f64 1000000))) := Nat.lt_of_le_of_lt l5 t5
  rw [sampleInstant, sampleInstant, round6, round6]
  exact fdiv_mono n5 t5 hm6 h06 l5

theorem countInstants_le (fs : F64) (fuel k : Nat) : countInstants fs fuel k ≤ k + fuel := by
  induction fuel generalizing k with
  | zero => simp [countInstants]
  | succ n ih =>
    simp only [countInstants]
    split
    · have := ih (k + 1); omega
    · omega

/-- The count finds the first instant after t = 2.0, if it comes in time. -/
theorem countInstants_eq {fs : F64} {fuel i k : Nat} (hi : i ≤ k) (hk : k < i + fuel)
    (hb : ∀ j, i ≤ j → j < k → fle (sampleInstant fs j) tEnd = true) (ha : fle (sampleInstant fs k) tEnd = false) :
    countInstants fs fuel i = k := by
  induction fuel generalizing i with
  | zero => omega
  | succ n ih =>
    simp only [countInstants]
    rcases Nat.eq_or_lt_of_le hi with rfl | hlt
    · simp [ha]
    · rw [if_pos (hb i (Nat.le_refl i) hlt)]
      exact ih hlt (by omega) fun j hj hjk => hb j (by omega) hjk

theorem countInstants_full {fs : F64} {fuel i : Nat}
    (hb : ∀ j, i ≤ j → j < i + fuel → fle (sampleInstant fs j) tEnd = true) : countInstants fs fuel i = i + fuel := by
  induction fuel generalizing i with
  | zero => rfl
  | succ n ih =>
    simp only [countInstants]
    rw [if_pos (hb i (Nat.le_refl i) (by omega)), ih fun j hj hjk => hb j (by omega) (by omega)]
    omega

/-- tEnd is 2.0 (R145). -/
@[simp] theorem tEnd_eq : tEnd = f64 2 := by decide +kernel

@[simp] theorem deltaOutput_length (f amp fs ratio : F64) (k : Nat) :
    (deltaOutput f amp fs ratio k).length = if k = 0 then 1 else 2 := by
  unfold deltaOutput; dsimp only; split <;> rfl

/-- One Point for the first instant, two for each later one (R154). -/
theorem deltaOutputs_length (f amp fs ratio : F64) (k : Nat) :
    ((List.range k).flatMap (deltaOutput f amp fs ratio)).length = 2 * k - 1 := by
  induction k with
  | zero => rfl
  | succ k ih =>
    rw [List.range_succ, List.flatMap_append, List.length_append, ih]
    simp only [List.flatMap_cons, List.flatMap_nil, List.append_nil, deltaOutput_length]
    split <;> omega

end Sys2Proof.Machine
end

