-- ==== Sys2Proof/Laws/State.lean ====
section
/-! SUPPORT. One lemma per field per update of the state, so that no later proof unfolds a record update. -/

namespace Sys2Proof.Machine

/-! ### setFaultMark -/

@[simp] theorem setFaultMark_cmd (s : State) : (setFaultMark s).cmd = s.cmd := rfl
@[simp] theorem setFaultMark_status (s : State) : (setFaultMark s).status = s.status := rfl
@[simp] theorem setFaultMark_bitLen (s : State) : (setFaultMark s).bitLen = s.bitLen := rfl
@[simp] theorem setFaultMark_cfgInit (s : State) : (setFaultMark s).cfgInit = s.cfgInit := rfl
@[simp] theorem setFaultMark_freq (s : State) : (setFaultMark s).freq = s.freq := rfl
@[simp] theorem setFaultMark_ampl (s : State) : (setFaultMark s).ampl = s.ampl := rfl
@[simp] theorem setFaultMark_srate (s : State) : (setFaultMark s).srate = s.srate := rfl
@[simp] theorem setFaultMark_qlevels (s : State) : (setFaultMark s).qlevels = s.qlevels := rfl
@[simp] theorem setFaultMark_deltaRatio (s : State) : (setFaultMark s).deltaRatio = s.deltaRatio := rfl
@[simp] theorem setFaultMark_tQuery (s : State) : (setFaultMark s).tQuery = s.tQuery := rfl
@[simp] theorem setFaultMark_result (s : State) : (setFaultMark s).result = s.result := rfl
@[simp] theorem setFaultMark_inCount (s : State) : (setFaultMark s).inCount = s.inCount := rfl
@[simp] theorem setFaultMark_txCount (s : State) : (setFaultMark s).txCount = s.txCount := rfl
@[simp] theorem setFaultMark_outCount (s : State) : (setFaultMark s).outCount = s.outCount := rfl
@[simp] theorem setFaultMark_calcTime (s : State) : (setFaultMark s).calcTime = s.calcTime := rfl
@[simp] theorem setFaultMark_mem (s : State) : (setFaultMark s).mem = s.mem := rfl
@[simp] theorem setFaultMark_faultMark (s : State) : (setFaultMark s).faultMark = true := rfl
@[simp] theorem setFaultMark_inputs (s : State) : (setFaultMark s).inputs = s.inputs := rfl
@[simp] theorem setFaultMark_busyLeft (s : State) : (setFaultMark s).busyLeft = s.busyLeft := rfl
@[simp] theorem setFaultMark_hostReads (s : State) : (setFaultMark s).hostReads = s.hostReads := rfl
@[simp] theorem setFaultMark_draws (s : State) : (setFaultMark s).draws = s.draws := rfl

/-! ### commitSignal -/

@[simp] theorem commitSignal_cmd (s : State) (r : Signal) : (commitSignal s r).cmd = s.cmd := rfl
@[simp] theorem commitSignal_status (s : State) (r : Signal) : (commitSignal s r).status = statusDone := rfl
@[simp] theorem commitSignal_bitLen (s : State) (r : Signal) : (commitSignal s r).bitLen = s.bitLen := rfl
@[simp] theorem commitSignal_cfgInit (s : State) (r : Signal) : (commitSignal s r).cfgInit = s.cfgInit := rfl
@[simp] theorem commitSignal_freq (s : State) (r : Signal) : (commitSignal s r).freq = s.freq := rfl
@[simp] theorem commitSignal_ampl (s : State) (r : Signal) : (commitSignal s r).ampl = s.ampl := rfl
@[simp] theorem commitSignal_srate (s : State) (r : Signal) : (commitSignal s r).srate = s.srate := rfl
@[simp] theorem commitSignal_qlevels (s : State) (r : Signal) : (commitSignal s r).qlevels = s.qlevels := rfl
@[simp] theorem commitSignal_deltaRatio (s : State) (r : Signal) : (commitSignal s r).deltaRatio = s.deltaRatio := rfl
@[simp] theorem commitSignal_tQuery (s : State) (r : Signal) : (commitSignal s r).tQuery = s.tQuery := rfl
@[simp] theorem commitSignal_result (s : State) (r : Signal) : (commitSignal s r).result = s.result := rfl
@[simp] theorem commitSignal_inCount (s : State) (r : Signal) : (commitSignal s r).inCount = BitVec.ofNat 32 r.input.length := rfl
@[simp] theorem commitSignal_txCount (s : State) (r : Signal) : (commitSignal s r).txCount = BitVec.ofNat 32 r.transmitted.length := rfl
@[simp] theorem commitSignal_outCount (s : State) (r : Signal) : (commitSignal s r).outCount = BitVec.ofNat 32 r.output.length := rfl
@[simp] theorem commitSignal_calcTime (s : State) (r : Signal) : (commitSignal s r).calcTime = calcTimeDraw s.draws := rfl
@[simp] theorem commitSignal_mem (s : State) (r : Signal) : (commitSignal s r).mem = writePoints (writePoints (writePoints s.mem inBase r.input) txBase r.transmitted) outBase r.output := rfl
@[simp] theorem commitSignal_faultMark (s : State) (r : Signal) : (commitSignal s r).faultMark = s.faultMark := rfl
@[simp] theorem commitSignal_inputs (s : State) (r : Signal) : (commitSignal s r).inputs = s.inputs := rfl
@[simp] theorem commitSignal_busyLeft (s : State) (r : Signal) : (commitSignal s r).busyLeft = s.busyLeft := rfl
@[simp] theorem commitSignal_hostReads (s : State) (r : Signal) : (commitSignal s r).hostReads = s.hostReads := rfl
@[simp] theorem commitSignal_draws (s : State) (r : Signal) : (commitSignal s r).draws = s.draws + 1 := rfl

/-! ### commitResult -/

@[simp] theorem commitResult_cmd (s : State) (v : F64) : (commitResult s v).cmd = s.cmd := rfl
@[simp] theorem commitResult_status (s : State) (v : F64) : (commitResult s v).status = statusDone := rfl
@[simp] theorem commitResult_bitLen (s : State) (v : F64) : (commitResult s v).bitLen = s.bitLen := rfl
@[simp] theorem commitResult_cfgInit (s : State) (v : F64) : (commitResult s v).cfgInit = s.cfgInit := rfl
@[simp] theorem commitResult_freq (s : State) (v : F64) : (commitResult s v).freq = s.freq := rfl
@[simp] theorem commitResult_ampl (s : State) (v : F64) : (commitResult s v).ampl = s.ampl := rfl
@[simp] theorem commitResult_srate (s : State) (v : F64) : (commitResult s v).srate = s.srate := rfl
@[simp] theorem commitResult_qlevels (s : State) (v : F64) : (commitResult s v).qlevels = s.qlevels := rfl
@[simp] theorem commitResult_deltaRatio (s : State) (v : F64) : (commitResult s v).deltaRatio = s.deltaRatio := rfl
@[simp] theorem commitResult_tQuery (s : State) (v : F64) : (commitResult s v).tQuery = s.tQuery := rfl
@[simp] theorem commitResult_result (s : State) (v : F64) : (commitResult s v).result = v := rfl
@[simp] theorem commitResult_inCount (s : State) (v : F64) : (commitResult s v).inCount = s.inCount := rfl
@[simp] theorem commitResult_txCount (s : State) (v : F64) : (commitResult s v).txCount = s.txCount := rfl
@[simp] theorem commitResult_outCount (s : State) (v : F64) : (commitResult s v).outCount = s.outCount := rfl
@[simp] theorem commitResult_calcTime (s : State) (v : F64) : (commitResult s v).calcTime = s.calcTime := rfl
@[simp] theorem commitResult_mem (s : State) (v : F64) : (commitResult s v).mem = s.mem := rfl
@[simp] theorem commitResult_faultMark (s : State) (v : F64) : (commitResult s v).faultMark = s.faultMark := rfl
@[simp] theorem commitResult_inputs (s : State) (v : F64) : (commitResult s v).inputs = s.inputs := rfl
@[simp] theorem commitResult_busyLeft (s : State) (v : F64) : (commitResult s v).busyLeft = s.busyLeft := rfl
@[simp] theorem commitResult_hostReads (s : State) (v : F64) : (commitResult s v).hostReads = s.hostReads := rfl
@[simp] theorem commitResult_draws (s : State) (v : F64) : (commitResult s v).draws = s.draws := rfl

/-! ### acceptCommand -/

@[simp] theorem acceptCommand_cmd (s : State) (w : Word) : (acceptCommand s w).cmd = w := rfl
@[simp] theorem acceptCommand_status (s : State) (w : Word) : (acceptCommand s w).status = statusBusy := rfl
@[simp] theorem acceptCommand_bitLen (s : State) (w : Word) : (acceptCommand s w).bitLen = s.bitLen := rfl
@[simp] theorem acceptCommand_cfgInit (s : State) (w : Word) : (acceptCommand s w).cfgInit = s.cfgInit := rfl
@[simp] theorem acceptCommand_freq (s : State) (w : Word) : (acceptCommand s w).freq = s.freq := rfl
@[simp] theorem acceptCommand_ampl (s : State) (w : Word) : (acceptCommand s w).ampl = s.ampl := rfl
@[simp] theorem acceptCommand_srate (s : State) (w : Word) : (acceptCommand s w).srate = s.srate := rfl
@[simp] theorem acceptCommand_qlevels (s : State) (w : Word) : (acceptCommand s w).qlevels = s.qlevels := rfl
@[simp] theorem acceptCommand_deltaRatio (s : State) (w : Word) : (acceptCommand s w).deltaRatio = s.deltaRatio := rfl
@[simp] theorem acceptCommand_tQuery (s : State) (w : Word) : (acceptCommand s w).tQuery = s.tQuery := rfl
@[simp] theorem acceptCommand_result (s : State) (w : Word) : (acceptCommand s w).result = s.result := rfl
@[simp] theorem acceptCommand_inCount (s : State) (w : Word) : (acceptCommand s w).inCount = s.inCount := rfl
@[simp] theorem acceptCommand_txCount (s : State) (w : Word) : (acceptCommand s w).txCount = s.txCount := rfl
@[simp] theorem acceptCommand_outCount (s : State) (w : Word) : (acceptCommand s w).outCount = s.outCount := rfl
@[simp] theorem acceptCommand_calcTime (s : State) (w : Word) : (acceptCommand s w).calcTime = s.calcTime := rfl
@[simp] theorem acceptCommand_mem (s : State) (w : Word) : (acceptCommand s w).mem = s.mem := rfl
@[simp] theorem acceptCommand_faultMark (s : State) (w : Word) : (acceptCommand s w).faultMark = s.faultMark := rfl
@[simp] theorem acceptCommand_inputs (s : State) (w : Word) : (acceptCommand s w).inputs = s.inputs := rfl
@[simp] theorem acceptCommand_busyLeft (s : State) (w : Word) : (acceptCommand s w).busyLeft = Config.busyDelay s.draws := rfl
@[simp] theorem acceptCommand_hostReads (s : State) (w : Word) : (acceptCommand s w).hostReads = s.hostReads := rfl
@[simp] theorem acceptCommand_draws (s : State) (w : Word) : (acceptCommand s w).draws = s.draws + 1 := rfl

/-! ### resetBlock -/

@[simp] theorem resetBlock_cmd (s : State) : (resetBlock s).cmd = State.reset.cmd := rfl
@[simp] theorem resetBlock_status (s : State) : (resetBlock s).status = State.reset.status := rfl
@[simp] theorem resetBlock_bitLen (s : State) : (resetBlock s).bitLen = State.reset.bitLen := rfl
@[simp] theorem resetBlock_cfgInit (s : State) : (resetBlock s).cfgInit = State.reset.cfgInit := rfl
@[simp] theorem resetBlock_freq (s : State) : (resetBlock s).freq = State.reset.freq := rfl
@[simp] theorem resetBlock_ampl (s : State) : (resetBlock s).ampl = State.reset.ampl := rfl
@[simp] theorem resetBlock_srate (s : State) : (resetBlock s).srate = State.reset.srate := rfl
@[simp] theorem resetBlock_qlevels (s : State) : (resetBlock s).qlevels = State.reset.qlevels := rfl
@[simp] theorem resetBlock_deltaRatio (s : State) : (resetBlock s).deltaRatio = State.reset.deltaRatio := rfl
@[simp] theorem resetBlock_tQuery (s : State) : (resetBlock s).tQuery = State.reset.tQuery := rfl
@[simp] theorem resetBlock_result (s : State) : (resetBlock s).result = State.reset.result := rfl
@[simp] theorem resetBlock_inCount (s : State) : (resetBlock s).inCount = State.reset.inCount := rfl
@[simp] theorem resetBlock_txCount (s : State) : (resetBlock s).txCount = State.reset.txCount := rfl
@[simp] theorem resetBlock_outCount (s : State) : (resetBlock s).outCount = State.reset.outCount := rfl
@[simp] theorem resetBlock_calcTime (s : State) : (resetBlock s).calcTime = State.reset.calcTime := rfl
@[simp] theorem resetBlock_mem (s : State) : (resetBlock s).mem = State.reset.mem := rfl
@[simp] theorem resetBlock_faultMark (s : State) : (resetBlock s).faultMark = s.faultMark := rfl
@[simp] theorem resetBlock_inputs (s : State) : (resetBlock s).inputs = s.inputs := rfl
@[simp] theorem resetBlock_busyLeft (s : State) : (resetBlock s).busyLeft = State.reset.busyLeft := rfl
@[simp] theorem resetBlock_hostReads (s : State) : (resetBlock s).hostReads = s.hostReads := rfl
@[simp] theorem resetBlock_draws (s : State) : (resetBlock s).draws = s.draws := rfl

/-! ### answerRead -/

@[simp] theorem answerRead_cmd (s : State) (v : Word) : (answerRead s v).cmd = s.cmd := rfl
@[simp] theorem answerRead_status (s : State) (v : Word) : (answerRead s v).status = s.status := rfl
@[simp] theorem answerRead_bitLen (s : State) (v : Word) : (answerRead s v).bitLen = s.bitLen := rfl
@[simp] theorem answerRead_cfgInit (s : State) (v : Word) : (answerRead s v).cfgInit = s.cfgInit := rfl
@[simp] theorem answerRead_freq (s : State) (v : Word) : (answerRead s v).freq = s.freq := rfl
@[simp] theorem answerRead_ampl (s : State) (v : Word) : (answerRead s v).ampl = s.ampl := rfl
@[simp] theorem answerRead_srate (s : State) (v : Word) : (answerRead s v).srate = s.srate := rfl
@[simp] theorem answerRead_qlevels (s : State) (v : Word) : (answerRead s v).qlevels = s.qlevels := rfl
@[simp] theorem answerRead_deltaRatio (s : State) (v : Word) : (answerRead s v).deltaRatio = s.deltaRatio := rfl
@[simp] theorem answerRead_tQuery (s : State) (v : Word) : (answerRead s v).tQuery = s.tQuery := rfl
@[simp] theorem answerRead_result (s : State) (v : Word) : (answerRead s v).result = s.result := rfl
@[simp] theorem answerRead_inCount (s : State) (v : Word) : (answerRead s v).inCount = s.inCount := rfl
@[simp] theorem answerRead_txCount (s : State) (v : Word) : (answerRead s v).txCount = s.txCount := rfl
@[simp] theorem answerRead_outCount (s : State) (v : Word) : (answerRead s v).outCount = s.outCount := rfl
@[simp] theorem answerRead_calcTime (s : State) (v : Word) : (answerRead s v).calcTime = s.calcTime := rfl
@[simp] theorem answerRead_mem (s : State) (v : Word) : (answerRead s v).mem = s.mem := rfl
@[simp] theorem answerRead_faultMark (s : State) (v : Word) : (answerRead s v).faultMark = s.faultMark := rfl
@[simp] theorem answerRead_inputs (s : State) (v : Word) : (answerRead s v).inputs = s.inputs := rfl
@[simp] theorem answerRead_busyLeft (s : State) (v : Word) : (answerRead s v).busyLeft = s.busyLeft := rfl
@[simp] theorem answerRead_hostReads (s : State) (v : Word) : (answerRead s v).hostReads = v :: s.hostReads := rfl
@[simp] theorem answerRead_draws (s : State) (v : Word) : (answerRead s v).draws = s.draws := rfl

/-! ### answerDraw -/

@[simp] theorem answerDraw_cmd (s : State) : (answerDraw s).cmd = s.cmd := rfl
@[simp] theorem answerDraw_status (s : State) : (answerDraw s).status = s.status := rfl
@[simp] theorem answerDraw_bitLen (s : State) : (answerDraw s).bitLen = s.bitLen := rfl
@[simp] theorem answerDraw_cfgInit (s : State) : (answerDraw s).cfgInit = s.cfgInit := rfl
@[simp] theorem answerDraw_freq (s : State) : (answerDraw s).freq = s.freq := rfl
@[simp] theorem answerDraw_ampl (s : State) : (answerDraw s).ampl = s.ampl := rfl
@[simp] theorem answerDraw_srate (s : State) : (answerDraw s).srate = s.srate := rfl
@[simp] theorem answerDraw_qlevels (s : State) : (answerDraw s).qlevels = s.qlevels := rfl
@[simp] theorem answerDraw_deltaRatio (s : State) : (answerDraw s).deltaRatio = s.deltaRatio := rfl
@[simp] theorem answerDraw_tQuery (s : State) : (answerDraw s).tQuery = s.tQuery := rfl
@[simp] theorem answerDraw_result (s : State) : (answerDraw s).result = s.result := rfl
@[simp] theorem answerDraw_inCount (s : State) : (answerDraw s).inCount = s.inCount := rfl
@[simp] theorem answerDraw_txCount (s : State) : (answerDraw s).txCount = s.txCount := rfl
@[simp] theorem answerDraw_outCount (s : State) : (answerDraw s).outCount = s.outCount := rfl
@[simp] theorem answerDraw_calcTime (s : State) : (answerDraw s).calcTime = s.calcTime := rfl
@[simp] theorem answerDraw_mem (s : State) : (answerDraw s).mem = s.mem := rfl
@[simp] theorem answerDraw_faultMark (s : State) : (answerDraw s).faultMark = s.faultMark := rfl
@[simp] theorem answerDraw_inputs (s : State) : (answerDraw s).inputs = s.inputs := rfl
@[simp] theorem answerDraw_busyLeft (s : State) : (answerDraw s).busyLeft = s.busyLeft := rfl
@[simp] theorem answerDraw_hostReads (s : State) : (answerDraw s).hostReads = Config.busyRead s.draws :: s.hostReads := rfl
@[simp] theorem answerDraw_draws (s : State) : (answerDraw s).draws = s.draws + 1 := rfl

/-! ### takeInput -/

@[simp] theorem takeInput_cmd (s : State) (rest : List HostInput) : (takeInput s rest).cmd = s.cmd := rfl
@[simp] theorem takeInput_status (s : State) (rest : List HostInput) : (takeInput s rest).status = s.status := rfl
@[simp] theorem takeInput_bitLen (s : State) (rest : List HostInput) : (takeInput s rest).bitLen = s.bitLen := rfl
@[simp] theorem takeInput_cfgInit (s : State) (rest : List HostInput) : (takeInput s rest).cfgInit = s.cfgInit := rfl
@[simp] theorem takeInput_freq (s : State) (rest : List HostInput) : (takeInput s rest).freq = s.freq := rfl
@[simp] theorem takeInput_ampl (s : State) (rest : List HostInput) : (takeInput s rest).ampl = s.ampl := rfl
@[simp] theorem takeInput_srate (s : State) (rest : List HostInput) : (takeInput s rest).srate = s.srate := rfl
@[simp] theorem takeInput_qlevels (s : State) (rest : List HostInput) : (takeInput s rest).qlevels = s.qlevels := rfl
@[simp] theorem takeInput_deltaRatio (s : State) (rest : List HostInput) : (takeInput s rest).deltaRatio = s.deltaRatio := rfl
@[simp] theorem takeInput_tQuery (s : State) (rest : List HostInput) : (takeInput s rest).tQuery = s.tQuery := rfl
@[simp] theorem takeInput_result (s : State) (rest : List HostInput) : (takeInput s rest).result = s.result := rfl
@[simp] theorem takeInput_inCount (s : State) (rest : List HostInput) : (takeInput s rest).inCount = s.inCount := rfl
@[simp] theorem takeInput_txCount (s : State) (rest : List HostInput) : (takeInput s rest).txCount = s.txCount := rfl
@[simp] theorem takeInput_outCount (s : State) (rest : List HostInput) : (takeInput s rest).outCount = s.outCount := rfl
@[simp] theorem takeInput_calcTime (s : State) (rest : List HostInput) : (takeInput s rest).calcTime = s.calcTime := rfl
@[simp] theorem takeInput_mem (s : State) (rest : List HostInput) : (takeInput s rest).mem = s.mem := rfl
@[simp] theorem takeInput_faultMark (s : State) (rest : List HostInput) : (takeInput s rest).faultMark = s.faultMark := rfl
@[simp] theorem takeInput_inputs (s : State) (rest : List HostInput) : (takeInput s rest).inputs = rest := rfl
@[simp] theorem takeInput_busyLeft (s : State) (rest : List HostInput) : (takeInput s rest).busyLeft = if s.busy then s.busyLeft - 1 else s.busyLeft := rfl
@[simp] theorem takeInput_hostReads (s : State) (rest : List HostInput) : (takeInput s rest).hostReads = s.hostReads := rfl
@[simp] theorem takeInput_draws (s : State) (rest : List HostInput) : (takeInput s rest).draws = s.draws := rfl

/-! ### loadCommand -/

@[simp] theorem loadCommand_cmd (s : State) (w : Word) : (loadCommand s w).cmd = w := rfl
@[simp] theorem loadCommand_status (s : State) (w : Word) : (loadCommand s w).status = statusBusy := rfl
@[simp] theorem loadCommand_bitLen (s : State) (w : Word) : (loadCommand s w).bitLen = s.bitLen := rfl
@[simp] theorem loadCommand_cfgInit (s : State) (w : Word) : (loadCommand s w).cfgInit = s.cfgInit := rfl
@[simp] theorem loadCommand_freq (s : State) (w : Word) : (loadCommand s w).freq = s.freq := rfl
@[simp] theorem loadCommand_ampl (s : State) (w : Word) : (loadCommand s w).ampl = s.ampl := rfl
@[simp] theorem loadCommand_srate (s : State) (w : Word) : (loadCommand s w).srate = s.srate := rfl
@[simp] theorem loadCommand_qlevels (s : State) (w : Word) : (loadCommand s w).qlevels = s.qlevels := rfl
@[simp] theorem loadCommand_deltaRatio (s : State) (w : Word) : (loadCommand s w).deltaRatio = s.deltaRatio := rfl
@[simp] theorem loadCommand_tQuery (s : State) (w : Word) : (loadCommand s w).tQuery = s.tQuery := rfl
@[simp] theorem loadCommand_result (s : State) (w : Word) : (loadCommand s w).result = s.result := rfl
@[simp] theorem loadCommand_inCount (s : State) (w : Word) : (loadCommand s w).inCount = s.inCount := rfl
@[simp] theorem loadCommand_txCount (s : State) (w : Word) : (loadCommand s w).txCount = s.txCount := rfl
@[simp] theorem loadCommand_outCount (s : State) (w : Word) : (loadCommand s w).outCount = s.outCount := rfl
@[simp] theorem loadCommand_calcTime (s : State) (w : Word) : (loadCommand s w).calcTime = s.calcTime := rfl
@[simp] theorem loadCommand_mem (s : State) (w : Word) : (loadCommand s w).mem = s.mem := rfl
@[simp] theorem loadCommand_faultMark (s : State) (w : Word) : (loadCommand s w).faultMark = false := rfl
@[simp] theorem loadCommand_inputs (s : State) (w : Word) : (loadCommand s w).inputs = s.inputs := rfl
@[simp] theorem loadCommand_busyLeft (s : State) (w : Word) : (loadCommand s w).busyLeft = 0 := rfl
@[simp] theorem loadCommand_hostReads (s : State) (w : Word) : (loadCommand s w).hostReads = s.hostReads := rfl
@[simp] theorem loadCommand_draws (s : State) (w : Word) : (loadCommand s w).draws = s.draws := rfl

/-! ### errorCompletion -/

@[simp] theorem errorCompletion_cmd (s : State) (fam : Option Family) (e : ErrorCode) :
    (errorCompletion s fam e).cmd = s.cmd := by
  unfold errorCompletion; split <;> rfl
@[simp] theorem errorCompletion_status (s : State) (fam : Option Family) (e : ErrorCode) :
    (errorCompletion s fam e).status = statusError e := by
  unfold errorCompletion; split <;> rfl
@[simp] theorem errorCompletion_bitLen (s : State) (fam : Option Family) (e : ErrorCode) :
    (errorCompletion s fam e).bitLen = s.bitLen := by
  unfold errorCompletion; split <;> rfl
@[simp] theorem errorCompletion_cfgInit (s : State) (fam : Option Family) (e : ErrorCode) :
    (errorCompletion s fam e).cfgInit = s.cfgInit := by
  unfold errorCompletion; split <;> rfl
@[simp] theorem errorCompletion_freq (s : State) (fam : Option Family) (e : ErrorCode) :
    (errorCompletion s fam e).freq = s.freq := by
  unfold errorCompletion; split <;> rfl
@[simp] theorem errorCompletion_ampl (s : State) (fam : Option Family) (e : ErrorCode) :
    (errorCompletion s fam e).ampl = s.ampl := by
  unfold errorCompletion; split <;> rfl
@[simp] theorem errorCompletion_srate (s : State) (fam : Option Family) (e : ErrorCode) :
    (errorCompletion s fam e).srate = s.srate := by
  unfold errorCompletion; split <;> rfl
@[simp] theorem errorCompletion_qlevels (s : State) (fam : Option Family) (e : ErrorCode) :
    (errorCompletion s fam e).qlevels = s.qlevels := by
  unfold errorCompletion; split <;> rfl
@[simp] theorem errorCompletion_deltaRatio (s : State) (fam : Option Family) (e : ErrorCode) :
    (errorCompletion s fam e).deltaRatio = s.deltaRatio := by
  unfold errorCompletion; split <;> rfl
@[simp] theorem errorCompletion_tQuery (s : State) (fam : Option Family) (e : ErrorCode) :
    (errorCompletion s fam e).tQuery = s.tQuery := by
  unfold errorCompletion; split <;> rfl
@[simp] theorem errorCompletion_result (s : State) (fam : Option Family) (e : ErrorCode) :
    (errorCompletion s fam e).result = s.result := by
  unfold errorCompletion; split <;> rfl
@[simp] theorem errorCompletion_inCount (s : State) (fam : Option Family) (e : ErrorCode) :
    (errorCompletion s fam e).inCount = if fam = some .interp then s.inCount else 0 := by
  unfold errorCompletion; split <;> rfl
@[simp] theorem errorCompletion_txCount (s : State) (fam : Option Family) (e : ErrorCode) :
    (errorCompletion s fam e).txCount = if fam = some .interp then s.txCount else 0 := by
  unfold errorCompletion; split <;> rfl
@[simp] theorem errorCompletion_outCount (s : State) (fam : Option Family) (e : ErrorCode) :
    (errorCompletion s fam e).outCount = if fam = some .interp then s.outCount else 0 := by
  unfold errorCompletion; split <;> rfl
@[simp] theorem errorCompletion_calcTime (s : State) (fam : Option Family) (e : ErrorCode) :
    (errorCompletion s fam e).calcTime = s.calcTime := by
  unfold errorCompletion; split <;> rfl
@[simp] theorem errorCompletion_mem (s : State) (fam : Option Family) (e : ErrorCode) :
    (errorCompletion s fam e).mem = s.mem := by
  unfold errorCompletion; split <;> rfl
@[simp] theorem errorCompletion_faultMark (s : State) (fam : Option Family) (e : ErrorCode) :
    (errorCompletion s fam e).faultMark = s.faultMark := by
  unfold errorCompletion; split <;> rfl
@[simp] theorem errorCompletion_inputs (s : State) (fam : Option Family) (e : ErrorCode) :
    (errorCompletion s fam e).inputs = s.inputs := by
  unfold errorCompletion; split <;> rfl
@[simp] theorem errorCompletion_busyLeft (s : State) (fam : Option Family) (e : ErrorCode) :
    (errorCompletion s fam e).busyLeft = s.busyLeft := by
  unfold errorCompletion; split <;> rfl
@[simp] theorem errorCompletion_hostReads (s : State) (fam : Option Family) (e : ErrorCode) :
    (errorCompletion s fam e).hostReads = s.hostReads := by
  unfold errorCompletion; split <;> rfl
@[simp] theorem errorCompletion_draws (s : State) (fam : Option Family) (e : ErrorCode) :
    (errorCompletion s fam e).draws = s.draws := by
  unfold errorCompletion; split <;> rfl

/-! ### The status words -/

@[simp] theorem busyBit_statusBusy : busyBit statusBusy = true := by decide
@[simp] theorem busyBit_statusDone : busyBit statusDone = false := by decide
@[simp] theorem doneBit_statusDone : doneBit statusDone = true := by decide
@[simp] theorem errBit_statusDone : errBit statusDone = false := by decide
@[simp] theorem busyBit_statusError (e : ErrorCode) : busyBit (statusError e) = false := by cases e <;> decide
@[simp] theorem doneBit_statusError (e : ErrorCode) : doneBit (statusError e) = true := by cases e <;> decide
@[simp] theorem errBit_statusError (e : ErrorCode) : errBit (statusError e) = true := by cases e <;> decide
@[simp] theorem errCodeField_statusError (e : ErrorCode) : errCodeField (statusError e) = (errorNumber e).toNat := by
  cases e <;> decide
@[simp] theorem statusError_ne_done (e : ErrorCode) : statusError e ≠ statusDone := by cases e <;> decide

end Sys2Proof.Machine
end

