-- ==== Sys2Proof/Laws/Commands.lean ====
section
/-! SUPPORT. What a completion step can do: the commit of a result, the outcome of each family's checks, and one inversion lemma for
all 25 commands. -/

namespace Sys2Proof.Machine

/-- The three sequences of a result fit their buffers. -/
def Signal.Fits (r : Signal) : Prop :=
  r.input.length ≤ Config.maxPoints ∧ r.transmitted.length ≤ Config.maxPoints ∧ r.output.length ≤ Config.maxPoints

theorem ofNat_toNat_of_le_maxPoints {n : Nat} (h : n ≤ Config.maxPoints) : (BitVec.ofNat 32 n).toNat = n := by
  have := Config.maxPoints_le
  rw [BitVec.toNat_ofNat]
  omega

/-- A byte after the commit: in one of the three written ranges, or as before. -/
theorem memRead_commitSignal (s : State) {r : Signal} (a : Nat)
    (hi : a < inBase ∨ inBase + 16 * r.input.length ≤ a) (ht : a < txBase ∨ txBase + 16 * r.transmitted.length ≤ a)
    (ho : a < outBase ∨ outBase + 16 * r.output.length ≤ a) : memRead (commitSignal s r).mem a = memRead s.mem a := by
  rw [commitSignal_mem, memRead_writePoints_outside _ _ _ _ ho, memRead_writePoints_outside _ _ _ _ ht,
    memRead_writePoints_outside _ _ _ _ hi]

/-- The commit of a result that fits (R88): all of `SignalCommitted`. -/
theorem commitSignal_committed (s : State) {r : Signal} (hr : r.Fits) :
    SignalCommitted s (commitSignal s r) r.input r.transmitted r.output := by
  obtain ⟨h1, h2, h3⟩ := hr
  have hmax := Config.maxPoints_le
  have b1 : inBase = 0x20000000 := rfl
  have b2 : txBase = 0x30000000 := rfl
  have b3 : outBase = 0x40000000 := rfl
  have rd := memRead_commitSignal s (r := r)
  refine
    { status := rfl
      inCount := ofNat_toNat_of_le_maxPoints h1
      txCount := ofNat_toNat_of_le_maxPoints h2
      outCount := ofNat_toNat_of_le_maxPoints h3
      inBuffer := ⟨fun k hk => ?_, fun a ha hb => rd a ?_ ?_ ?_⟩
      txBuffer := ⟨fun k hk => ?_, fun a ha hb => rd a ?_ ?_ ?_⟩
      outBuffer := ⟨fun k hk => ?_, fun a ha hb => rd a ?_ ?_ ?_⟩
      elsewhere := fun a ha => rd a ?_ ?_ ?_
      calcTime := calcTimeDraw_nonneg _
      result := rfl
      faultMark := rfl
      parameters := ⟨rfl, rfl, rfl, rfl, rfl, rfl, rfl, rfl, rfl, rfl, rfl, rfl⟩ }
  all_goals try omega
  · rw [commitSignal_mem, ← readPoint_writePoints s.mem inBase r.input k hk]
    refine readPoint_congr fun j hj => ?_
    rw [memRead_writePoints_outside _ _ _ _ (by omega), memRead_writePoints_outside _ _ _ _ (by omega)]
  · rw [commitSignal_mem, ← readPoint_writePoints (writePoints s.mem inBase r.input) txBase r.transmitted k hk]
    refine readPoint_congr fun j hj => ?_
    rw [memRead_writePoints_outside _ _ _ _ (by omega)]
  · rw [commitSignal_mem]
    exact readPoint_writePoints _ outBase r.output k hk

/-! ### The outcome of each family -/

/-- A LINE command succeeds exactly on a loaded bit string. -/
theorem lineOutcome_eq_ok (s : State) (tx : Word → List Bool → List Point) (r : Signal) :
    lineOutcome s tx = .ok r ↔ ∃ b, BitsLoaded s b ∧ r = digitalSignal b (tx s.cfgInit b) := by
  unfold lineOutcome
  constructor
  · intro h
    cases hb : readBits s with
    | error e => rw [hb] at h; cases h
    | ok b => rw [hb] at h; cases h; exact ⟨b, (readBits_eq_ok s b).mp hb, rfl⟩
  · rintro ⟨b, hb, rfl⟩
    rw [(readBits_eq_ok s b).mpr hb]
    rfl

/-- A DMOD command succeeds exactly on a loaded bit string. -/
theorem dmodOutcome_eq_ok (s : State) (tx : List Bool → List Point) (r : Signal) :
    dmodOutcome s tx = .ok r ↔ ∃ b, BitsLoaded s b ∧ r = digitalSignal b (tx b) :=
  lineOutcome_eq_ok s (fun _ => tx) r

/-- A2D.PCM succeeds exactly on legal parameters within capacity (R92, R148, R149). -/
theorem pcmOutcome_eq_ok (s : State) (r : Signal) :
    pcmOutcome s = .ok r ↔ isPositiveFinite s.freq = true ∧ isPositiveFinite s.ampl = true ∧
      isPositiveFinite s.srate = true ∧ 2 ≤ s.qlevels.toNat ∧ instantCount s.srate ≤ Config.maxPoints ∧
      r = pcmSignal s.freq s.ampl s.srate s.qlevels.toNat (instantCount s.srate) := by
  unfold pcmOutcome checkCapacity
  rw [checkAnalog_eq, checkPcmConfig_eq]
  cases isPositiveFinite s.freq <;> cases isPositiveFinite s.ampl <;> cases isPositiveFinite s.srate <;>
    by_cases hq : 2 ≤ s.qlevels.toNat <;> by_cases hc : Config.maxPoints < instantCount s.srate <;>
    simp [hq, hc, bind, Except.bind, eq_comm]
  omega

/-- A2D.DELTA succeeds exactly on legal parameters within capacity (R92, R148, R149). -/
theorem deltaOutcome_eq_ok (s : State) (r : Signal) :
    deltaOutcome s = .ok r ↔ isPositiveFinite s.freq = true ∧ isPositiveFinite s.ampl = true ∧
      isPositiveFinite s.srate = true ∧ (flt fzero s.deltaRatio && fle s.deltaRatio fone) = true ∧
      2 * instantCount s.srate ≤ Config.maxPoints ∧
      r = deltaSignal s.freq s.ampl s.srate s.deltaRatio (instantCount s.srate) := by
  unfold deltaOutcome checkCapacity
  rw [checkAnalog_eq, checkDeltaConfig_eq]
  generalize (flt fzero s.deltaRatio && fle s.deltaRatio fone) = d
  cases isPositiveFinite s.freq <;> cases isPositiveFinite s.ampl <;> cases isPositiveFinite s.srate <;>
    cases d <;> by_cases hc : Config.maxPoints < 2 * instantCount s.srate <;>
    simp [hc, bind, Except.bind, eq_comm]
  omega

/-- An AMOD command succeeds exactly on legal FREQ and AMPL (R92). -/
theorem amodOutcome_eq_ok (s : State) (y : F64 → F64 → F64 → F64 → F64) (r : Signal) :
    amodOutcome s y = .ok r ↔ isPositiveFinite s.freq = true ∧ isPositiveFinite s.ampl = true ∧
      r = amodSignal s.freq s.ampl y := by
  unfold amodOutcome
  rw [checkAnalog_eq]
  cases isPositiveFinite s.freq <;> cases isPositiveFinite s.ampl <;> simp [bind, Except.bind, eq_comm]

/-- INTERP.LINEAR succeeds exactly on loaded Points and a T_QUERY that is no NaN (R90, R106). -/
theorem interpOutcome_eq_ok (s : State) (v : F64) :
    interpOutcome s = .ok v ↔ ∃ ps, PointsLoaded s ps ∧ isNaN s.tQuery = false ∧ v = interp ps s.tQuery := by
  unfold interpOutcome checkParameter
  constructor
  · intro h
    cases hp : readPoints s with
    | error e => rw [hp] at h; cases h
    | ok ps =>
      rw [hp] at h
      refine ⟨ps, (readPoints_eq_ok s ps).mp hp, ?_⟩
      cases hn : isNaN s.tQuery
      · simp only [hn] at h; cases h; exact ⟨rfl, rfl⟩
      · simp only [hn] at h; cases h
  · rintro ⟨ps, hps, hn, rfl⟩
    rw [(readPoints_eq_ok s ps).mpr hps, hn]
    rfl

/-! ### Every result fits -/

theorem digitalSignal_fits {s : State} {b : List Bool} (h : BitsLoaded s b) {tx : List Point}
    (ht : tx.length ≤ Config.maxPoints) : (digitalSignal b tx).Fits := by
  have := h.fits
  have := Config.four_mul_maxBits_le
  refine ⟨?_, ht, ?_⟩ <;> simp only [digitalSignal, digitalInput_length] <;> omega

theorem flat_fits {s : State} {b : List Bool} (h : BitsLoaded s b) {vs : List F64} (hv : vs.length = b.length) :
    (flatSegs 0 vs).length ≤ Config.maxPoints := by
  have := h.fits
  have := Config.four_mul_maxBits_le
  rw [flatSegs_length]; omega

theorem split_fits {s : State} {b : List Bool} (h : BitsLoaded s b) {vs : List (F64 × F64)}
    (hv : vs.length = b.length) : (splitSegs 0 vs).length ≤ Config.maxPoints := by
  have := h.fits
  have := Config.four_mul_maxBits_le
  rw [splitSegs_length]; omega

theorem binary_fits {s : State} {b : List Bool} (h : BitsLoaded s b) (y : Nat → F64 → F64) :
    (binaryGrid b y).length ≤ Config.maxPoints := by
  have := h.fits
  have := Config.samples_le
  rw [binaryGrid_length]; omega

theorem symbol_fits {s : State} {b : List Bool} (h : BitsLoaded s b) {k : Nat} (hk : 0 < k) (hk4 : k ≤ 4)
    (y : List Bool → F64 → F64) : (symbolGrid b k y).length ≤ Config.maxPoints := by
  rw [symbolGrid_length b hk]; exact padded_samples_le hk hk4 h.fits

theorem oqpsk_fits {s : State} {b : List Bool} (h : BitsLoaded s b) : (oqpskTx b).length ≤ Config.maxPoints := by
  rw [oqpskTx_length]; exact padded_samples_le (by norm_num) (by norm_num) h.fits

theorem pcm_fits {f amp fs : F64} {l k : Nat} (h : k ≤ Config.maxPoints) : (pcmSignal f amp fs l k).Fits := by
  have := Config.analog_le
  refine ⟨?_, ?_, ?_⟩ <;> simp [pcmSignal] <;> omega

theorem delta_fits {f amp fs ratio : F64} {k : Nat} (h : 2 * k ≤ Config.maxPoints) :
    (deltaSignal f amp fs ratio k).Fits := by
  have := Config.analog_le
  refine ⟨?_, ?_, ?_⟩
  · simp [deltaSignal]; omega
  · simp [deltaSignal]; omega
  · simp only [deltaSignal, List.length_append, deltaOutputs_length, List.length_singleton]
    rcases Nat.eq_zero_or_pos k with rfl | hk <;> omega

theorem amod_fits (f amp : F64) (y : F64 → F64 → F64 → F64 → F64) : (amodSignal f amp y).Fits := by
  have := Config.analog_le
  refine ⟨?_, ?_, ?_⟩ <;> simp [amodSignal] <;> omega

/-! ### What a completion can do -/

/-- What the completion of a LINE, DMOD, A2D or AMOD command can do (R88). -/
theorem finishSignal_cases {s : State} {fam : Family} {o : Except Stop Signal} {P : State → Prop}
    (hc : ∀ r, o = .ok r → P (commitSignal s r)) (he : ∀ e, P (errorCompletion s (some fam) e))
    (hf : P (setFaultMark s)) : P (finishSignal s fam o) := by
  match o with
  | .ok r => exact hc r rfl
  | .error (.error e) => exact he e
  | .error .unwritten => exact hf

/-- What the completion of an INTERP command can do (R88). -/
theorem finishResult_cases {s : State} {o : Except Stop F64} {P : State → Prop}
    (hc : ∀ v, o = .ok v → P (commitResult s v)) (he : ∀ e, P (errorCompletion s (some .interp) e))
    (hf : P (setFaultMark s)) : P (finishResult s o) := by
  match o with
  | .ok v => exact hc v rfl
  | .error (.error e) => exact he e
  | .error .unwritten => exact hf

/-- How a command can complete (R88): with a result that fits, with RESULT (INTERP alone), with an error, or by setting the fault mark. -/
inductive Completion (i : Instr) (s : State) : State → Prop where
  | signal (r : Signal) (fits : r.Fits) (family : i.family ≠ .interp) : Completion i s (commitSignal s r)
  | result (v : F64) (instr : i = .interpLinear) : Completion i s (commitResult s v)
  | error (e : ErrorCode) : Completion i s (errorCompletion s (some i.family) e)
  | unwritten : Completion i s (setFaultMark s)

theorem completion_line {s : State} {i : Instr} (hi : i.family = .line) {tx : Word → List Bool → List Point}
    (h : ∀ b, BitsLoaded s b → (tx s.cfgInit b).length ≤ Config.maxPoints) :
    Completion i s (finishSignal s .line (lineOutcome s tx)) := by
  refine finishSignal_cases (fun r hr => ?_) (fun e => hi ▸ .error e) .unwritten
  obtain ⟨b, hb, rfl⟩ := (lineOutcome_eq_ok s tx r).mp hr
  exact .signal _ (digitalSignal_fits hb (h b hb)) (by rw [hi]; decide)

theorem completion_dmod {s : State} {i : Instr} (hi : i.family = .dmod) {tx : List Bool → List Point}
    (h : ∀ b, BitsLoaded s b → (tx b).length ≤ Config.maxPoints) :
    Completion i s (finishSignal s .dmod (dmodOutcome s tx)) := by
  refine finishSignal_cases (fun r hr => ?_) (fun e => hi ▸ .error e) .unwritten
  obtain ⟨b, hb, rfl⟩ := (dmodOutcome_eq_ok s tx r).mp hr
  exact .signal _ (digitalSignal_fits hb (h b hb)) (by rw [hi]; decide)

theorem completion_amod {s : State} {i : Instr} (hi : i.family = .amod) (y : F64 → F64 → F64 → F64 → F64) :
    Completion i s (finishSignal s .amod (amodOutcome s y)) := by
  refine finishSignal_cases (fun r hr => ?_) (fun e => hi ▸ .error e) .unwritten
  obtain ⟨-, -, rfl⟩ := (amodOutcome_eq_ok s y r).mp hr
  exact .signal _ (amod_fits _ _ _) (by rw [hi]; decide)

/-- Every command answers a next state, and it is one of the four completions. -/
theorem exec_completion (i : Instr) (s : State) : ∃ t, exec i s = .next t ∧ Completion i s t := by
  cases i
  case lineNrzL => exact ⟨_, rfl, completion_line rfl fun b hb => flat_fits hb (by simp)⟩
  case lineNrzI => exact ⟨_, rfl, completion_line rfl fun b hb => flat_fits hb (by simp)⟩
  case lineManchester => exact ⟨_, rfl, completion_line rfl fun b hb => split_fits hb (by simp)⟩
  case lineDiffManchester => exact ⟨_, rfl, completion_line rfl fun b hb => split_fits hb (by simp)⟩
  case lineAmi => exact ⟨_, rfl, completion_line rfl fun b hb => flat_fits hb (by simp)⟩
  case linePseudoternary => exact ⟨_, rfl, completion_line rfl fun b hb => flat_fits hb (by simp)⟩
  case lineB8zs => exact ⟨_, rfl, completion_line rfl fun b hb => flat_fits hb (by simp)⟩
  case lineHdb3 => exact ⟨_, rfl, completion_line rfl fun b hb => flat_fits hb (by simp)⟩
  case dmodAsk => exact ⟨_, rfl, completion_dmod rfl fun b hb => binary_fits hb _⟩
  case dmodFsk => exact ⟨_, rfl, completion_dmod rfl fun b hb => binary_fits hb _⟩
  case dmodPsk => exact ⟨_, rfl, completion_dmod rfl fun b hb => binary_fits hb _⟩
  case dmodBfsk => exact ⟨_, rfl, completion_dmod rfl fun b hb => binary_fits hb _⟩
  case dmodMfsk => exact ⟨_, rfl, completion_dmod rfl fun b hb => symbol_fits hb (by norm_num) (by norm_num) _⟩
  case dmodBpsk => exact ⟨_, rfl, completion_dmod rfl fun b hb => binary_fits hb _⟩
  case dmodDpsk => exact ⟨_, rfl, completion_dmod rfl fun b hb => binary_fits hb _⟩
  case dmodQpsk => exact ⟨_, rfl, completion_dmod rfl fun b hb => symbol_fits hb (by norm_num) (by norm_num) _⟩
  case dmodOqpsk => exact ⟨_, rfl, completion_dmod rfl fun b hb => oqpsk_fits hb⟩
  case dmodMpsk => exact ⟨_, rfl, completion_dmod rfl fun b hb => symbol_fits hb (by norm_num) (by norm_num) _⟩
  case dmodQam => exact ⟨_, rfl, completion_dmod rfl fun b hb => symbol_fits hb (by norm_num) (by norm_num) _⟩
  case a2dPcm =>
    refine ⟨_, rfl, finishSignal_cases (fun r hr => ?_) .error .unwritten⟩
    obtain ⟨-, -, -, -, hc, rfl⟩ := (pcmOutcome_eq_ok s r).mp hr
    exact .signal _ (pcm_fits hc) (by decide)
  case a2dDelta =>
    refine ⟨_, rfl, finishSignal_cases (fun r hr => ?_) .error .unwritten⟩
    obtain ⟨-, -, -, -, hc, rfl⟩ := (deltaOutcome_eq_ok s r).mp hr
    exact .signal _ (delta_fits hc) (by decide)
  case amodAm => exact ⟨_, rfl, completion_amod rfl _⟩
  case amodFm => exact ⟨_, rfl, completion_amod rfl _⟩
  case amodPm => exact ⟨_, rfl, completion_amod rfl _⟩
  case interpLinear =>
    exact ⟨_, rfl, finishResult_cases (fun v _ => .result v rfl) .error .unwritten⟩

/-- Whatever a command answers is one of the four completions. -/
theorem completion_of_exec {i : Instr} {s t : State} (h : exec i s = .next t) : Completion i s t := by
  obtain ⟨t', h', hc⟩ := exec_completion i s
  rw [h] at h'
  cases h'
  exact hc

/-- A LINE or DMOD command whose ReadBits fails does nothing but end with that failure (R90, R91). -/
theorem exec_of_readBits_error {i : Instr} {s : State} {e : Stop} (hi : i.family = .line ∨ i.family = .dmod)
    (h : readBits s = .error e) : exec i s = .next (finishSignal s i.family (.error e)) := by
  have hl : ∀ tx, lineOutcome s tx = .error e := fun tx => by simp only [lineOutcome, h]; rfl
  have hd : ∀ tx, dmodOutcome s tx = .error e := fun tx => by simp only [dmodOutcome, h]; rfl
  cases i <;> first | (exfalso; revert hi; decide) | skip
  all_goals
    simp only [exec, execLineNrzL, execLineNrzI, execLineManchester, execLineDiffManchester, execLineAmi,
      execLinePseudoternary, execLineB8zs, execLineHdb3, execDmodAsk, execDmodFsk, execDmodPsk, execDmodBfsk, execDmodMfsk,
      execDmodBpsk, execDmodDpsk, execDmodQpsk, execDmodOqpsk, execDmodMpsk, execDmodQam, hl, hd]
    rfl

/-- A BUSY block that reports DONE without an error has committed a result that fits, or is INTERP. -/
theorem committed_of_done {i : Instr} {s t : State} (hs : s.status = 0x00000001) (h : exec i s = .next t)
    (ht : t.status = 0x00000002) : (∃ r : Signal, r.Fits ∧ t = commitSignal s r) ∨ i = .interpLinear := by
  cases completion_of_exec h with
  | signal r hr _ => exact .inl ⟨r, hr, rfl⟩
  | result v hi => exact .inr hi
  | error e => rw [errorCompletion_status] at ht; exact absurd ht (statusError_ne_done e)
  | unwritten => rw [setFaultMark_status, hs] at ht; exact absurd ht (by decide)

/-- Everything a completion step can be (R88): the completion of the command CMD decodes to, or UnsupportedScheme. -/
theorem completeCommand_cases {s t : State} (h : completeCommand s = .next t) :
    (∃ i, decode s.cmd = .ok i ∧ Completion i s t) ∨
    ((∃ e, decode s.cmd = .error e) ∧ t = errorCompletion s none .unsupportedScheme) := by
  unfold completeCommand at h
  split at h
  · rename_i i hi
    exact .inl ⟨i, hi, completion_of_exec h⟩
  · rename_i e he
    cases h
    exact .inr ⟨⟨e, he⟩, rfl⟩

end Sys2Proof.Machine
end

