-- ==== Sys2Proof/Laws/HostBus.lean ====
section
/-! SUPPORT. What a host access reaches and does, and what a step is: one inversion lemma for each. -/

namespace Sys2Proof.Machine

/-! ### Targets -/

/-- An aligned offset of space REG reaches a register word (R52, R53). -/
theorem target_reg {off : Word} (ha : off.toNat % 4 = 0) (h : off.toNat < 0x10000000) :
    target 32 off = .reg (regWordAt off.toNat) := by
  unfold target
  rw [if_neg (by omega), show off.toNat / 2 ^ 28 = 0 by omega, show off.toNat % 2 ^ 28 = off.toNat by omega]
  rfl

theorem bufferTarget_of_lt {base o size : Nat} {writable : Bool} (h : o < size) :
    bufferTarget base o size writable = .buffer (base + o) writable := if_pos h

theorem bufferTarget_of_le {base o size : Nat} {writable : Bool} (h : size ≤ o) :
    bufferTarget base o size writable = .refused := if_neg (by omega)

/-- An aligned offset inside a buffer reaches its word; BIT and IN are writable (R52, R54, R64). -/
theorem target_buffer {off : Word} (ha : off.toNat % 4 = 0) (h : InBuffers off.toNat) :
    target 32 off = .buffer off.toNat (decide (off.toNat < txBase)) := by
  have hb := bitBytes_le
  have hp := pointBufferBytes_le
  unfold InBuffers bitBase inBase txBase outBase at h
  unfold target
  rw [if_neg (by omega)]
  rcases h with h | h | h | h
  · rw [show off.toNat / 2 ^ 28 = 1 by omega]
    refine (bufferTarget_of_lt (by omega)).trans ?_
    unfold bitBase txBase
    congr 1 <;> simp <;> omega
  · rw [show off.toNat / 2 ^ 28 = 2 by omega]
    refine (bufferTarget_of_lt (by omega)).trans ?_
    unfold inBase txBase
    congr 1 <;> simp <;> omega
  · rw [show off.toNat / 2 ^ 28 = 3 by omega]
    refine (bufferTarget_of_lt (by omega)).trans ?_
    unfold txBase
    congr 1 <;> simp <;> omega
  · rw [show off.toNat / 2 ^ 28 = 4 by omega]
    refine (bufferTarget_of_lt (by omega)).trans ?_
    unfold outBase txBase
    congr 1 <;> simp <;> omega

/-- What an access reaches, said once: nothing, a register at an aligned offset of REG, or an aligned word of a buffer. -/
theorem target_cases (width : Nat) (off : Word) :
    target width off = .refused ∨
    (width = 32 ∧ off.toNat % 4 = 0 ∧ off.toNat < 0x10000000 ∧ target width off = .reg (regWordAt off.toNat)) ∨
    (width = 32 ∧ off.toNat % 4 = 0 ∧ InBuffers off.toNat ∧
      target width off = .buffer off.toNat (decide (off.toNat < txBase))) := by
  by_cases hl : width ≠ 32 ∨ off.toNat % 4 ≠ 0
  · exact .inl (if_pos hl)
  obtain ⟨rfl, ha⟩ : width = 32 ∧ off.toNat % 4 = 0 := by omega
  by_cases hr : off.toNat < 0x10000000
  · exact .inr (.inl ⟨rfl, ha, hr, target_reg ha hr⟩)
  by_cases hb : InBuffers off.toNat
  · exact .inr (.inr ⟨rfl, ha, hb, target_buffer ha hb⟩)
  left
  have hlt := off.isLt
  unfold InBuffers bitBase inBase txBase outBase at hb
  unfold target
  rw [if_neg hl]
  obtain h | h | h | h | h : off.toNat / 2 ^ 28 = 1 ∨ off.toNat / 2 ^ 28 = 2 ∨ off.toNat / 2 ^ 28 = 3 ∨
      off.toNat / 2 ^ 28 = 4 ∨ 5 ≤ off.toNat / 2 ^ 28 := by omega
  · rw [h]; exact bufferTarget_of_le (by omega)
  · rw [h]; exact bufferTarget_of_le (by omega)
  · rw [h]; exact bufferTarget_of_le (by omega)
  · rw [h]; exact bufferTarget_of_le (by omega)
  · split <;> first | omega | rfl

/-! ### The register map -/

/-- The offsets of the named registers (R28). -/
def namedOffsets : List Nat :=
  [0x000, 0x004, 0x008, 0x00C, 0x010, 0x014, 0x018, 0x01C, 0x020, 0x024, 0x028, 0x030, 0x034, 0x038, 0x03C, 0x040, 0x044,
    0x048, 0x04C, 0x050, 0x058, 0x05C, 0x060, 0x064]

theorem regWordAt_reserved {o : Nat} (h : o ∉ namedOffsets) : regWordAt o = .reserved := by
  unfold regWordAt
  split <;> first | rfl | exact absurd (by decide) h

/-- The register words one by one: `P` holds at every offset if it holds at each named one and at every reserved one. -/
theorem regWord_cases {P : Nat → RegWord → Prop} (hn : ∀ o ∈ namedOffsets, P o (regWordAt o))
    (hr : ∀ o, o ∉ namedOffsets → P o .reserved) (o : Nat) : P o (regWordAt o) := by
  by_cases h : o ∈ namedOffsets
  · exact hn o h
  · rw [regWordAt_reserved h]; exact hr o h

theorem registerWord_reserved (s : State) {o : Nat} (h : o ∉ namedOffsets) : registerWord s o = 0 := by
  simp only [namedOffsets, List.mem_cons, List.not_mem_nil, or_false, not_or] at h
  simp only [registerWord, h, if_false]

theorem registerWritten_reserved (s : State) (v : Word) {o : Nat} (h : o ∉ namedOffsets) :
    registerWritten s o v = s := by
  simp only [namedOffsets, List.mem_cons, List.not_mem_nil, or_false, not_or] at h
  simp only [registerWritten, h, if_false]

/-- The word a register read returns, by offset. -/
theorem readReg_regWordAt (s : State) (o : Nat) : readReg s (regWordAt o) = registerWord s o := by
  refine regWord_cases (P := fun o r => readReg s r = registerWord s o) ?_ ?_ o
  · intro o ho
    simp only [namedOffsets, List.mem_cons, List.not_mem_nil, or_false] at ho
    rcases ho with rfl | rfl | rfl | rfl | rfl | rfl | rfl | rfl | rfl | rfl | rfl | rfl | rfl | rfl | rfl | rfl |
      rfl | rfl | rfl | rfl | rfl | rfl | rfl | rfl <;> rfl
  · intro o ho
    rw [registerWord_reserved s ho]
    rfl

/-- The registers whose read while BUSY is a draw, by offset. -/
theorem drawnWhileBusy_regWordAt (o : Nat) : drawnWhileBusy (regWordAt o) = decide (o ∈ drawnOffsets) := by
  refine regWord_cases (P := fun o r => drawnWhileBusy r = decide (o ∈ drawnOffsets)) (by decide) ?_ o
  intro o ho
  have : o ∉ drawnOffsets := fun h => ho (by revert h; simp only [drawnOffsets, namedOffsets, List.mem_cons]; tauto)
  simp [this, drawnWhileBusy]

/-! ### Accesses -/

/-- Everything a read does: set the fault mark, hand over a draw while BUSY, or hand over a word. -/
theorem hostRead_cases (s : State) (width : Nat) (off : Word) :
    hostRead s width off = setFaultMark s ∨ (s.busy = true ∧ hostRead s width off = answerDraw s) ∨
    ∃ v, hostRead s width off = answerRead s v := by
  unfold hostRead
  split
  · exact .inl rfl
  · split
    · rename_i h; simp at h; exact .inr (.inl ⟨h.1, rfl⟩)
    · exact .inr (.inr ⟨_, rfl⟩)
  · split
    · exact .inl rfl
    · split
      · rename_i h; exact .inr (.inl ⟨h, rfl⟩)
      · exact .inr (.inr ⟨_, rfl⟩)

/-- Everything a write does: set the fault mark, nothing, an idle register write, or an idle write of a BIT or IN word. -/
theorem hostWrite_cases (s : State) (width : Nat) (off v : Word) :
    hostWrite s width off v = setFaultMark s ∨ hostWrite s width off v = s ∨
    (s.busy = false ∧ width = 32 ∧ off.toNat % 4 = 0 ∧ off.toNat < 0x10000000 ∧
      hostWrite s width off v = writeReg s (regWordAt off.toNat) v) ∨
    (s.busy = false ∧ width = 32 ∧ off.toNat % 4 = 0 ∧ InBuffers off.toNat ∧ off.toNat < txBase ∧
      hostWrite s width off v = { s with mem := writeWord s.mem off.toNat v }) := by
  unfold hostWrite
  rcases target_cases width off with h | ⟨hw, ha, hr, h⟩ | ⟨hw, ha, hb, h⟩
  · rw [h]; exact .inl rfl
  · rw [h]
    cases hi : ignoredWhileBusy (regWordAt off.toNat) <;> cases hs : s.busy <;> simp_all
  · rw [h]
    cases hs : s.busy <;> by_cases ht : off.toNat < txBase <;> simp_all

/-- Everything an idle register write does (R28, R64): CMD is accepted, a read/write register stores, the rest is unchanged. -/
theorem writeReg_cases (s : State) (o : Nat) (v : Word) :
    (o = 0 ∧ writeReg s (regWordAt o) v = acceptCommand s v) ∨
    (o ≠ 0 ∧ writeReg s (regWordAt o) v = registerWritten s o v) := by
  by_cases h : o = 0
  · subst h; exact .inl ⟨rfl, rfl⟩
  · refine .inr ⟨h, ?_⟩
    revert h
    refine regWord_cases (P := fun o r => o ≠ 0 → writeReg s r v = registerWritten s o v) ?_ ?_ o
    · intro o ho h
      simp only [namedOffsets, List.mem_cons, List.not_mem_nil, or_false] at ho
      rcases ho with rfl | rfl | rfl | rfl | rfl | rfl | rfl | rfl | rfl | rfl | rfl | rfl | rfl | rfl | rfl | rfl |
        rfl | rfl | rfl | rfl | rfl | rfl | rfl | rfl <;> first | rfl | exact absurd rfl h
    · intro o ho _
      rw [registerWritten_reserved s v ho]; rfl

/-- An idle register write other than an acceptance changes a parameter register, CFG_INIT's three bits or IN_COUNT, and nothing else. -/
theorem registerWritten_frame (s : State) (o : Nat) (v : Word) :
    registerWritten s o v = { s with
      bitLen := (registerWritten s o v).bitLen
      cfgInit := (registerWritten s o v).cfgInit
      freq := (registerWritten s o v).freq
      ampl := (registerWritten s o v).ampl
      srate := (registerWritten s o v).srate
      qlevels := (registerWritten s o v).qlevels
      deltaRatio := (registerWritten s o v).deltaRatio
      tQuery := (registerWritten s o v).tQuery
      inCount := (registerWritten s o v).inCount } ∧
    ((registerWritten s o v).cfgInit = s.cfgInit ∨ (registerWritten s o v).cfgInit = v &&& 7) := by
  refine regWord_cases (P := fun o _ => registerWritten s o v = { s with
      bitLen := (registerWritten s o v).bitLen
      cfgInit := (registerWritten s o v).cfgInit
      freq := (registerWritten s o v).freq
      ampl := (registerWritten s o v).ampl
      srate := (registerWritten s o v).srate
      qlevels := (registerWritten s o v).qlevels
      deltaRatio := (registerWritten s o v).deltaRatio
      tQuery := (registerWritten s o v).tQuery
      inCount := (registerWritten s o v).inCount } ∧
    ((registerWritten s o v).cfgInit = s.cfgInit ∨ (registerWritten s o v).cfgInit = v &&& 7)) ?_ ?_ o
  · intro o ho
    simp only [namedOffsets, List.mem_cons, List.not_mem_nil, or_false] at ho
    rcases ho with rfl | rfl | rfl | rfl | rfl | rfl | rfl | rfl | rfl | rfl | rfl | rfl | rfl | rfl | rfl | rfl |
      rfl | rfl | rfl | rfl | rfl | rfl | rfl | rfl <;> exact ⟨rfl, by first | exact .inl rfl | exact .inr rfl⟩
  · intro o ho
    rw [registerWritten_reserved s v ho]
    exact ⟨rfl, .inl rfl⟩

/-- A BUSY block serves an input other than a reset without changing any register or buffer (R71, R187). -/
theorem serveInput_busy {s : State} (hb : s.busy = true) (i : HostInput) :
    i = .reset ∨ serveInput s i = setFaultMark s ∨ serveInput s i = s ∨ serveInput s i = answerDraw s ∨
    ∃ v, serveInput s i = answerRead s v := by
  cases i with
  | read w o => rcases hostRead_cases s w o with h | ⟨_, h⟩ | ⟨v, h⟩ <;> simp_all [serveInput]
  | write w o v => rcases hostWrite_cases s w o v with h | h | ⟨h, _⟩ | ⟨h, _⟩ <;> simp_all [serveInput]
  | reset => exact .inl rfl

/-! ### Steps -/

theorem completionDue_iff (s : State) :
    completionDue s = true ↔ s.busy = true ∧ (s.busyLeft = 0 ∨ s.inputs = []) := by
  simp [completionDue]

/-- Everything a step that answers a next state can be: a reset of a marked state; a completion; the service of an input;
or the idle block with no input left. -/
theorem step_cases {s t : State} (h : step s = .next t) :
    (s.faultMark = true ∧ ∃ rest, s.inputs = .reset :: rest ∧ t = resetBlock (takeInput s rest)) ∨
    (s.faultMark = false ∧ completionDue s = true ∧ completeCommand s = .next t) ∨
    (s.faultMark = false ∧ completionDue s = false ∧ ∃ i rest, s.inputs = i :: rest ∧
      t = serveInput (takeInput s rest) i) ∨
    (s.faultMark = false ∧ s.busy = false ∧ s.inputs = [] ∧ t = s) := by
  unfold step stepBlock at h
  cases hf : s.faultMark
  · cases hd : completionDue s
    · simp only [hf, hd, Bool.false_eq_true, if_false] at h
      unfold hostStep at h
      split at h
      · rename_i hi
        cases h
        have : s.busy = false := by
          cases hb : s.busy
          · rfl
          · rw [(completionDue_iff s).mpr ⟨hb, .inr hi⟩] at hd; cases hd
        exact .inr (.inr (.inr ⟨rfl, this, hi, rfl⟩))
      · rename_i i rest hi
        cases h
        exact .inr (.inr (.inl ⟨rfl, rfl, i, rest, hi, rfl⟩))
    · simp only [hf, hd, Bool.false_eq_true, if_false, if_true] at h
      exact .inr (.inl ⟨rfl, rfl, h⟩)
  · simp only [hf, if_true] at h
    unfold markedStep at h
    split at h
    · rename_i rest hi
      cases h
      exact .inl ⟨rfl, rest, hi, rfl⟩
    · cases h

end Sys2Proof.Machine
end

