-- ==== Sys2Proof/Laws/PerInstr.lean ====
section
/-! SUPPORT. Statements made of every instruction by itself, one lemma per constructor. -/

namespace Sys2Proof.Laws

/-- The command word of `i` passes the three checks of R82, and its FAMILY and SCHEME fields find `i` in the tables of R77 to R81. -/
def CommandWords.Statement (i : Instr) : Prop :=
  wellFormedWord (encode i) = true ∧ rsvdField (encode i) = 0 ∧ familyField (encode i) ≤ 4 ∧
    (schemeTable (familyField (encode i)))[schemeField (encode i)]? = some i

theorem CommandWords.lineNrzL : CommandWords.Statement .lineNrzL := by unfold CommandWords.Statement; decide
theorem CommandWords.lineNrzI : CommandWords.Statement .lineNrzI := by unfold CommandWords.Statement; decide
theorem CommandWords.lineManchester : CommandWords.Statement .lineManchester := by unfold CommandWords.Statement; decide
theorem CommandWords.lineDiffManchester : CommandWords.Statement .lineDiffManchester := by unfold CommandWords.Statement; decide
theorem CommandWords.lineAmi : CommandWords.Statement .lineAmi := by unfold CommandWords.Statement; decide
theorem CommandWords.linePseudoternary : CommandWords.Statement .linePseudoternary := by unfold CommandWords.Statement; decide
theorem CommandWords.lineB8zs : CommandWords.Statement .lineB8zs := by unfold CommandWords.Statement; decide
theorem CommandWords.lineHdb3 : CommandWords.Statement .lineHdb3 := by unfold CommandWords.Statement; decide
theorem CommandWords.dmodAsk : CommandWords.Statement .dmodAsk := by unfold CommandWords.Statement; decide
theorem CommandWords.dmodFsk : CommandWords.Statement .dmodFsk := by unfold CommandWords.Statement; decide
theorem CommandWords.dmodPsk : CommandWords.Statement .dmodPsk := by unfold CommandWords.Statement; decide
theorem CommandWords.dmodBfsk : CommandWords.Statement .dmodBfsk := by unfold CommandWords.Statement; decide
theorem CommandWords.dmodMfsk : CommandWords.Statement .dmodMfsk := by unfold CommandWords.Statement; decide
theorem CommandWords.dmodBpsk : CommandWords.Statement .dmodBpsk := by unfold CommandWords.Statement; decide
theorem CommandWords.dmodDpsk : CommandWords.Statement .dmodDpsk := by unfold CommandWords.Statement; decide
theorem CommandWords.dmodQpsk : CommandWords.Statement .dmodQpsk := by unfold CommandWords.Statement; decide
theorem CommandWords.dmodOqpsk : CommandWords.Statement .dmodOqpsk := by unfold CommandWords.Statement; decide
theorem CommandWords.dmodMpsk : CommandWords.Statement .dmodMpsk := by unfold CommandWords.Statement; decide
theorem CommandWords.dmodQam : CommandWords.Statement .dmodQam := by unfold CommandWords.Statement; decide
theorem CommandWords.a2dPcm : CommandWords.Statement .a2dPcm := by unfold CommandWords.Statement; decide
theorem CommandWords.a2dDelta : CommandWords.Statement .a2dDelta := by unfold CommandWords.Statement; decide
theorem CommandWords.amodAm : CommandWords.Statement .amodAm := by unfold CommandWords.Statement; decide
theorem CommandWords.amodFm : CommandWords.Statement .amodFm := by unfold CommandWords.Statement; decide
theorem CommandWords.amodPm : CommandWords.Statement .amodPm := by unfold CommandWords.Statement; decide
theorem CommandWords.interpLinear : CommandWords.Statement .interpLinear := by unfold CommandWords.Statement; decide

end Sys2Proof.Laws
end

