-- ==== Sys2Proof/Laws/Rounding.lean ====
section
/-! SUPPORT. What rounding does (R17): a representable value rounds to itself, any other to the nearest, ties to even, and a large one
to an infinity. -/

namespace Sys2Proof.Machine

/-- The pattern of a rounded significand: r units of 2^e, where r has 53 bits at most, and exactly 53 (or is 2^53) if e is not 0. -/
theorem magBits_pattern {e r : Nat} (hr : r ≤ 2 ^ 53) (he : e = 0 ∨ 2 ^ 52 ≤ r) : magBits (e * 2 ^ 52 + r) = r * 2 ^ e := by
  unfold magBits
  rcases Nat.lt_or_ge r (2 ^ 52) with h | h
  · obtain rfl : e = 0 := by omega
    simp; rw [if_pos (by omega)]; omega
  · rcases Nat.lt_or_ge r (2 ^ 53) with h' | h'
    · have h1 : (e * 2 ^ 52 + r) / 2 ^ 52 = e + 1 := by omega
      have h2 : (e * 2 ^ 52 + r) % 2 ^ 52 = r - 2 ^ 52 := by omega
      rw [h1, h2, if_neg (by omega)]
      rw [show 2 ^ 52 + (r - 2 ^ 52) = r by omega]; rfl
    · have h1 : (e * 2 ^ 52 + r) / 2 ^ 52 = e + 2 := by omega
      have h2 : (e * 2 ^ 52 + r) % 2 ^ 52 = 0 := by omega
      rw [h1, h2, if_neg (by omega)]
      obtain rfl : r = 2 ^ 53 := by omega
      rw [show e + 2 - 1 = e + 1 by omega, pow_succ 2 e]; ring

/-- A representable magnitude rounds to itself. -/
theorem roundBits_magBits {b d : Nat} (hd : 0 < d) (hb : b < 0x7FF0000000000000) : roundBits (magBits b * d) d = b := by
  unfold roundBits
  simp only [Nat.mul_div_cancel _ hd]
  unfold magBits
  split
  · rename_i h
    have hlog : Nat.log2 (b % 2 ^ 52) - 52 = 0 := by
      rcases Nat.eq_zero_or_pos (b % 2 ^ 52) with h0 | h0
      · rw [h0]; rfl
      · have := (Nat.log2_lt (by omega)).mpr (show b % 2 ^ 52 < 2 ^ 52 from Nat.mod_lt _ (by norm_num))
        omega
    rw [hlog, pow_zero, Nat.mul_one, rneDiv_mul _ _ hd]
    omega
  · rename_i h
    have hlog : Nat.log2 ((2 ^ 52 + b % 2 ^ 52) * 2 ^ (b / 2 ^ 52 - 1)) = 52 + (b / 2 ^ 52 - 1) := by
      rw [Nat.log2_eq_iff (by positivity)]
      have := Nat.mod_lt b (show 0 < 2 ^ 52 by norm_num)
      constructor
      · rw [pow_add]; exact Nat.mul_le_mul_right _ (by omega)
      · rw [show 52 + (b / 2 ^ 52 - 1) + 1 = 53 + (b / 2 ^ 52 - 1) by omega, pow_add]
        exact Nat.mul_lt_mul_of_pos_right (by omega) (by positivity)
    rw [hlog, show 52 + (b / 2 ^ 52 - 1) - 52 = b / 2 ^ 52 - 1 by omega,
      show (2 ^ 52 + b % 2 ^ 52) * 2 ^ (b / 2 ^ 52 - 1) * d = (2 ^ 52 + b % 2 ^ 52) * (d * 2 ^ (b / 2 ^ 52 - 1)) by ring,
      rneDiv_mul _ _ (by positivity)]
    omega

theorem oneUnits_eq : oneUnits = 2 ^ 1074 := by unfold oneUnits; rfl

/-- f64 of a small natural number is exact (R18), as a pattern. -/
theorem roundBits_f64 {n : Nat} (hn : n ≤ 2 ^ 53) : roundBits (n * oneUnits) 1 < 0x7FF0000000000000 ∧ magBits (roundBits (n * oneUnits) 1) = n * oneUnits := by
  have key : ∃ b, b < 0x7FF0000000000000 ∧ magBits b = n * oneUnits := by
    rcases Nat.eq_zero_or_pos n with rfl | hpos
    · exact ⟨0, by norm_num, by simp [magBits]⟩
    have hl : n.log2 ≤ 53 := by
      have := (Nat.log2_lt (k := 54) (by omega)).mpr (show n < 2 ^ 54 by omega)
      omega
    have h1 : 2 ^ n.log2 ≤ n := Nat.log2_self_le (by omega)
    have h2 : n < 2 ^ (n.log2 + 1) := Nat.lt_log2_self
    rcases Nat.lt_or_ge n.log2 53 with hlt | hge
    · refine ⟨(1022 + n.log2) * 2 ^ 52 + n * 2 ^ (52 - n.log2), ?_, ?_⟩
      · have : n * 2 ^ (52 - n.log2) < 2 ^ (n.log2 + 1) * 2 ^ (52 - n.log2) := Nat.mul_lt_mul_of_pos_right h2 (by positivity)
        rw [← pow_add, show n.log2 + 1 + (52 - n.log2) = 53 by omega] at this
        omega
      · rw [magBits_pattern]
        · rw [mul_assoc, ← pow_add, show 52 - n.log2 + (1022 + n.log2) = 1074 by omega, oneUnits_eq]
        · have : n * 2 ^ (52 - n.log2) < 2 ^ (n.log2 + 1) * 2 ^ (52 - n.log2) := Nat.mul_lt_mul_of_pos_right h2 (by positivity)
          rw [← pow_add, show n.log2 + 1 + (52 - n.log2) = 53 by omega] at this
          omega
        · right
          calc 2 ^ 52 = 2 ^ n.log2 * 2 ^ (52 - n.log2) := by rw [← pow_add]; congr 1; omega
            _ ≤ _ := Nat.mul_le_mul_right _ h1
    · have : n.log2 = 53 := by omega
      rw [this] at h1
      obtain rfl : n = 2 ^ 53 := by omega
      refine ⟨1075 * 2 ^ 52 + 2 ^ 52, by norm_num, ?_⟩
      rw [magBits_pattern (by norm_num) (.inr le_rfl), oneUnits_eq, ← pow_add, ← pow_add]
  obtain ⟨b, hb, hm⟩ := key
  have := roundBits_magBits (d := 1) (by norm_num) hb
  rw [Nat.mul_one, hm] at this
  rw [this]
  exact ⟨hb, hm⟩

theorem roundBits_def (n d : Nat) : ∃ e R, e = Nat.log2 (n / d) - 52 ∧ R = rneDiv n (d * 2 ^ e) ∧
    roundBits n d = min (e * 2 ^ 52 + R) 0x7FF0000000000000 := ⟨_, _, rfl, rfl, rfl⟩

/-- The significand of a rounding: 53 bits at most, exactly 53 (or 2^53) above the smallest exponent. -/
theorem significand_bounds {n d e R : Nat} (hd : 0 < d) (he : e = Nat.log2 (n / d) - 52) (hR : R = rneDiv n (d * 2 ^ e)) :
    R ≤ 2 ^ 53 ∧ (e = 0 ∨ (2 ^ 52 ≤ R ∧ 2 ^ 52 * (d * 2 ^ e) ≤ n)) := by
  obtain ⟨h1, h2⟩ := log2_window (n / d)
  rw [← he] at h1 h2
  have hD : 0 < d * 2 ^ e := by positivity
  constructor
  · rw [hR]
    refine rneDiv_le hD ?_
    have := (Nat.div_lt_iff_lt_mul hd).mp h1
    rw [pow_add] at this
    nlinarith
  · rcases Nat.eq_zero_or_pos e with h | h
    · exact .inl h
    · right
      have := (Nat.le_div_iff_mul_le hd).mp (h2 h)
      rw [pow_add] at this
      have h3 : 2 ^ 52 * (d * 2 ^ e) ≤ n := by nlinarith
      exact ⟨by rw [hR]; exact le_rneDiv hD h3, h3⟩

/-- The rounding is nearest among the multiples of its own unit. -/
theorem rneDiv_nearest {n D R : Nat} (hD : 0 < D) (hR : R = rneDiv n D) (c : Nat) :
    |(R * D : ℤ) - n| ≤ |(c * D : ℤ) - n| ∧ (c ≠ R → |(R * D : ℤ) - n| = |(c * D : ℤ) - n| → R % 2 = 0) := by
  obtain ⟨h1, h2, h3⟩ := rneDiv_spec n D hD
  rw [← hR] at h1 h2 h3
  have g1 : (2 * n : ℤ) ≤ 2 * (R * D) + D := by have : 2 * n ≤ 2 * (R * D) + D := by nlinarith
                                                exact_mod_cast this
  have g2 : (2 * (R * D) : ℤ) ≤ 2 * n + D := by have : 2 * (R * D) ≤ 2 * n + D := by nlinarith
                                                exact_mod_cast this
  have g3 : (2 * n : ℤ) = 2 * (R * D) + D ∨ (2 * (R * D) : ℤ) = 2 * n + D → R % 2 = 0 := by
    rintro (h | h)
    · exact h3 (.inl (by have : 2 * n = 2 * (R * D) + D := by exact_mod_cast h
                         rw [this]; ring))
    · exact h3 (.inr (by have : 2 * (R * D) = 2 * n + D := by exact_mod_cast h
                         rw [← this]; ring))
  have hDz : (0 : ℤ) < D := by exact_mod_cast hD
  rcases lt_trichotomy c R with h | h | h
  · have h' : (c * D : ℤ) + D ≤ R * D := by
      have : c * D + D ≤ R * D := by nlinarith
      exact_mod_cast this
    generalize (R * D : ℤ) = x at *
    generalize (c * D : ℤ) = y at *
    refine ⟨?_, fun _ he => g3 (.inr ?_)⟩
    · rw [abs_le]; constructor <;> rcases abs_cases (y - n) with ⟨e, _⟩ | ⟨e, _⟩ <;> rw [e] <;> omega
    · rcases abs_cases (y - n) with ⟨e, _⟩ | ⟨e, _⟩ <;> rcases abs_cases (x - n) with ⟨e', _⟩ | ⟨e', _⟩ <;> rw [e, e'] at he <;> omega
  · subst h; exact ⟨le_rfl, fun h => absurd rfl h⟩
  · have h' : (R * D : ℤ) + D ≤ c * D := by
      have : R * D + D ≤ c * D := by nlinarith
      exact_mod_cast this
    generalize (R * D : ℤ) = x at *
    generalize (c * D : ℤ) = y at *
    refine ⟨?_, fun _ he => g3 (.inl ?_)⟩
    · rw [abs_le]; constructor <;> rcases abs_cases (y - n) with ⟨e, _⟩ | ⟨e, _⟩ <;> rw [e] <;> omega
    · rcases abs_cases (y - n) with ⟨e, _⟩ | ⟨e, _⟩ <;> rcases abs_cases (x - n) with ⟨e', _⟩ | ⟨e', _⟩ <;> rw [e, e'] at he <;> omega

/-- A magnitude is a multiple of 2^e, or below the least magnitude of exponent e. -/
theorem magBits_dvd_or_lt (b e : Nat) : (∃ c, magBits b = c * 2 ^ e) ∨ magBits b < 2 ^ 52 * 2 ^ e := by
  unfold magBits
  have hm := Nat.mod_lt b (show 0 < 2 ^ 52 by norm_num)
  split
  · right
    exact lt_of_lt_of_le hm (Nat.le_mul_of_pos_right _ (by positivity))
  · rcases Nat.lt_or_ge (b / 2 ^ 52 - 1) e with h | h
    · right
      calc (2 ^ 52 + b % 2 ^ 52) * 2 ^ (b / 2 ^ 52 - 1) < 2 ^ 53 * 2 ^ (b / 2 ^ 52 - 1) :=
            Nat.mul_lt_mul_of_pos_right (by omega) (by positivity)
        _ = 2 ^ 52 * 2 ^ (b / 2 ^ 52 - 1 + 1) := by rw [pow_succ 2 (b / 2 ^ 52 - 1)]; ring
        _ ≤ 2 ^ 52 * 2 ^ e := Nat.mul_le_mul_left _ (Nat.pow_le_pow_right (by norm_num) (by omega))
    · left
      refine ⟨(2 ^ 52 + b % 2 ^ 52) * 2 ^ (b / 2 ^ 52 - 1 - e), ?_⟩
      rw [mul_assoc, ← pow_add, Nat.sub_add_cancel h]

/-- A finite rounding is the magnitude nearest the exact quotient, the even pattern of two equally near ones (R17). -/
theorem roundBits_nearest {n d : Nat} (hd : 0 < d) (hf : roundBits n d < 0x7FF0000000000000) (b : Nat) :
    |(magBits (roundBits n d) * d : ℤ) - n| ≤ |(magBits b * d : ℤ) - n| ∧
    (magBits b ≠ magBits (roundBits n d) →
      |(magBits (roundBits n d) * d : ℤ) - n| = |(magBits b * d : ℤ) - n| → roundBits n d % 2 = 0) := by
  obtain ⟨e, R, he, hR, hr⟩ := roundBits_def n d
  have hr : roundBits n d = e * 2 ^ 52 + R := by omega
  obtain ⟨b1, b2⟩ := significand_bounds hd he hR
  have hm : magBits (roundBits n d) = R * 2 ^ e := by rw [hr]; exact magBits_pattern b1 (b2.imp_right And.left)
  have hpar : roundBits n d % 2 = R % 2 := by omega
  have hD : 0 < d * 2 ^ e := by positivity
  rw [hm, hpar]
  have near := rneDiv_nearest hD hR
  have cast : ∀ c : Nat, ((c * 2 ^ e : Nat) * d : ℤ) = (c * (d * 2 ^ e : Nat) : ℤ) := by intro c; push_cast; ring
  rw [cast]
  rcases magBits_dvd_or_lt b e with ⟨c, hc⟩ | hlt
  · rw [hc, cast]
    refine ⟨(near c).1, fun hne => (near c).2 fun h => hne (by rw [h])⟩
  · by_cases hdv : ∃ c, magBits b = c * 2 ^ e
    · obtain ⟨c, hc⟩ := hdv
      rw [hc, cast]
      exact ⟨(near c).1, fun hne => (near c).2 fun h => hne (by rw [h])⟩
    have he0 : e ≠ 0 := by rintro rfl; exact hdv ⟨magBits b, by simp⟩
    obtain ⟨_, h3⟩ := b2.resolve_left he0
    have h0 := (near (2 ^ 52)).1
    have s : (magBits b * d : ℤ) < (2 ^ 52 : Nat) * (d * 2 ^ e : Nat) := by
      have : magBits b * d < 2 ^ 52 * (d * 2 ^ e) := by nlinarith
      exact_mod_cast this
    have h3' : ((2 ^ 52 : Nat) * (d * 2 ^ e : Nat) : ℤ) ≤ n := by exact_mod_cast h3
    have : |((2 ^ 52 : Nat) * (d * 2 ^ e : Nat) : ℤ) - n| < |(magBits b * d : ℤ) - n| := by
      rw [abs_of_nonpos (by omega), abs_of_nonpos (by omega)]; omega
    exact ⟨(h0.trans this.le), fun _ h => absurd (h ▸ h0) (not_le.mpr this)⟩

/-- The least quotient that rounds to infinity: 2^1024 − 2^970, in units of 2^-1074 (log 17). -/
theorem roundBits_lt_inf_iff {n d : Nat} (hd : 0 < d) :
    roundBits n d < 0x7FF0000000000000 ↔ n < (2 ^ 2098 - 2 ^ 2044) * d := by
  constructor
  · intro h
    by_contra hn
    have := roundBits_mono (n := (2 ^ 2098 - 2 ^ 2044)) (d := 1) (n' := n) (d' := d) (by norm_num) hd (by omega)
    have e : roundBits (2 ^ 2098 - 2 ^ 2044) 1 = 0x7FF0000000000000 := by decide +kernel
    omega
  · intro h
    obtain ⟨e, R, he, hR, hr⟩ := roundBits_def n d
    obtain ⟨b1, b2⟩ := significand_bounds hd he hR
    have hq : n / d < 2 ^ 2098 := by
      refine (Nat.div_lt_iff_lt_mul hd).mpr (lt_of_lt_of_le h (Nat.mul_le_mul_right _ (Nat.sub_le _ _)))
    have hl : Nat.log2 (n / d) < 2098 := by
      rcases Nat.eq_zero_or_pos (n / d) with h0 | h0
      · rw [h0]; norm_num
      · exact (Nat.log2_lt (k := 2098) (Nat.pos_iff_ne_zero.mp h0)).mpr hq
    have he' : e ≤ 2045 := by omega
    rcases Nat.lt_or_ge e 2045 with h' | h'
    · omega
    · obtain rfl : e = 2045 := by omega
      have hD : 0 < d * 2 ^ 2045 := by positivity
      have hs := (rneDiv_spec n _ hD).2.1
      rw [← hR] at hs
      have hR' : R < 2 ^ 53 := by
        by_contra hge
        have h54 : 2 ^ 54 * (d * 2 ^ 2045) ≤ 2 * R * (d * 2 ^ 2045) := Nat.mul_le_mul_right _ (by omega)
        have e1 : 2 ^ 54 * (d * 2 ^ 2045) = 2 * (2 ^ 2098 * d) := by
          rw [show (2:Nat) ^ 2098 = 2 ^ 53 * 2 ^ 2045 from pow_add 2 53 2045, show (2:Nat) ^ 54 = 2 * 2 ^ 53 by norm_num]; ring
        have e2 : d * 2 ^ 2045 = 2 * (2 ^ 2044 * d) := by rw [pow_succ 2 2044]; ring
        rw [Nat.sub_mul] at h
        rw [e1] at h54
        rw [e2] at h54 hs
        have : 2 ^ 2044 * d ≤ 2 ^ 2098 * d := Nat.mul_le_mul_right _ (Nat.pow_le_pow_right (by norm_num) (by norm_num))
        generalize 2 ^ 2044 * d = u at *
        generalize 2 ^ 2098 * d = v at *
        omega
      omega

/-- A finite value, from its sign and its low bits. -/
theorem fvalue_eq (x : F64) : fvalue x = (if fsign x then -1 else 1) * ((magBits (lowBits x) : ℚ) / (oneUnits : ℚ)) := by
  unfold fvalue fscaled
  rw [fmag_eq]
  split <;> push_cast <;> ring

theorem oneUnits_rat_pos : (0 : ℚ) < (oneUnits : ℚ) := by exact_mod_cast oneUnits_pos

theorem roundBits_lt {n d : Nat} : roundBits n d < 2 ^ 63 := lt_of_le_of_lt (roundBits_le_inf n d) (by norm_num)

theorem getLsbD_zero_eq (x : F64) (h : lowBits x % 2 = 0) : x.getLsbD 0 = false := by
  simp only [BitVec.getLsbD, Nat.testBit_zero, decide_eq_false_iff_not]
  unfold lowBits at h
  omega

/-- What `fround` answers (R17, log 17): the finite value nearest the exact one, ties to even; or, from 2^1024 − 2^970 up, the infinity. -/
theorem fround_spec (neg : Bool) (n : Nat) {d : Nat} (hd : 0 < d) {q : ℚ}
    (hq : q = (if neg then -1 else 1) * ((n : ℚ) / d / oneUnits)) :
    (|q| < 2 ^ 1024 - 2 ^ 970 → isFinite (fround neg n d) = true ∧ NearestEven (fround neg n d) q) ∧
    (2 ^ 1024 - 2 ^ 970 ≤ |q| → fround neg n d = finf neg) := by
  obtain ⟨U, hUdef⟩ : ∃ U : ℚ, U = oneUnits := ⟨_, rfl⟩
  have fv : ∀ x, fvalue x = (if fsign x then -1 else 1) * ((magBits (lowBits x) : ℚ) / U) := by
    intro x; rw [fvalue_eq, hUdef]
  have hU : 0 < U := by rw [hUdef]; exact oneUnits_rat_pos
  rw [← hUdef] at hq
  have hU2 : U = 2 ^ 1074 := by rw [hUdef, oneUnits_eq, Nat.cast_pow, Nat.cast_ofNat]
  clear hUdef
  have hdq : (0 : ℚ) < d := by exact_mod_cast hd
  have habs : |q| = (n : ℚ) / d / U := by
    have : (0 : ℚ) ≤ (n : ℚ) / d / U := div_nonneg (div_nonneg (Nat.cast_nonneg n) hdq.le) hU.le
    rw [hq, abs_mul, abs_of_nonneg this]
    cases neg <;> simp
  have hT : (|q| < 2 ^ 1024 - 2 ^ 970) ↔ roundBits n d < 0x7FF0000000000000 := by
    rw [roundBits_lt_inf_iff hd, habs, div_div, div_lt_iff₀ (by positivity)]
    have e : ((2:ℚ) ^ 1024 - 2 ^ 970) * (d * U) = ((2 ^ 2098 - 2 ^ 2044) * d : Nat) := by
      rw [Nat.cast_mul, Nat.cast_sub (Nat.pow_le_pow_right Nat.two_pos (Nat.le_of_ble_eq_true rfl)), hU2, Nat.cast_pow, Nat.cast_pow,
        Nat.cast_ofNat, show (2:ℚ) ^ 2098 = 2 ^ 1024 * 2 ^ 1074 from pow_add 2 1024 1074,
        show (2:ℚ) ^ 2044 = 2 ^ 970 * 2 ^ 1074 from pow_add 2 970 1074]
      generalize (2:ℚ) ^ 1024 = a
      generalize (2:ℚ) ^ 1074 = b
      generalize (2:ℚ) ^ 970 = c
      ring
    rw [e, Nat.cast_lt]
  clear hU2
  have hlow : lowBits (fround neg n d) = roundBits n d := lowBits_fpack neg roundBits_lt
  have hsgn : fsign (fround neg n d) = neg := fsign_fpack neg roundBits_lt
  constructor
  · intro hlt
    have hf := hT.mp hlt
    refine ⟨(isFinite_iff _).mpr (by rw [hlow]; exact hf), fun y _ => ?_⟩
    have scale : ∀ b : Nat, |(magBits b : ℚ) / U - n / d / U| = ((|(magBits b * d : ℤ) - n| : ℤ) : ℚ) / (d * U) := by
      intro b
      rw [show (magBits b : ℚ) / U - n / d / U = ((magBits b * d : ℤ) - n : ℤ) / (d * U) by push_cast; field_simp,
        abs_div, abs_of_pos (show (0:ℚ) < d * U by positivity)]
      push_cast; rfl
    have main : ∀ b : Nat, |(magBits (roundBits n d) : ℚ) / U - n / d / U| ≤ |(magBits b : ℚ) / U - n / d / U| ∧
        (magBits b ≠ magBits (roundBits n d) → |(magBits (roundBits n d) : ℚ) / U - n / d / U| = |(magBits b : ℚ) / U - n / d / U| → roundBits n d % 2 = 0) := by
      intro b
      obtain ⟨h1, h2⟩ := roundBits_nearest hd hf b
      rw [scale, scale]
      have hp : (0:ℚ) < d * U := by positivity
      refine ⟨div_le_div_of_nonneg_right (by exact_mod_cast h1) hp.le, fun hne he => h2 hne ?_⟩
      have := (div_left_inj' hp.ne').mp he
      exact_mod_cast this
    have hr : |fvalue (fround neg n d) - q| = |(magBits (roundBits n d) : ℚ) / U - n / d / U| := by
      rw [fv, hlow, hsgn, hq, ← mul_sub, abs_mul]
      cases neg <;> simp
    rw [hr]
    have par : roundBits n d % 2 = 0 → (fround neg n d).getLsbD 0 = false := fun h => getLsbD_zero_eq _ (by rw [hlow]; exact h)
    by_cases hs : fsign y = neg
    · have hy : |fvalue y - q| = |(magBits (lowBits y) : ℚ) / U - n / d / U| := by
        rw [fv, hs, hq, ← mul_sub, abs_mul]
        cases neg <;> simp
      rw [hy]
      refine ⟨(main _).1, fun hne he => par ((main _).2 (fun hm => hne ?_) he)⟩
      rw [fv, fv, hlow, hsgn, hs, hm]
    · have hy : |fvalue y - q| = (magBits (lowBits y) : ℚ) / U + n / d / U := by
        have h0 : (0:ℚ) ≤ (magBits (lowBits y) : ℚ) / U := by positivity
        have h1 : (0:ℚ) ≤ (n:ℚ) / d / U := by positivity
        rw [fv, hq]
        cases hs' : fsign y <;> cases neg <;> simp [hs'] at hs ⊢
        · linarith
        · rw [show -((magBits (lowBits y) : ℚ) / U) - n / d / U = -((magBits (lowBits y) : ℚ) / U + n / d / U) by ring, abs_neg, abs_of_nonneg (by linarith)]
      have h0 : (0:ℚ) ≤ (magBits (lowBits y) : ℚ) / U := by positivity
      have h1 : (0:ℚ) ≤ (n:ℚ) / d / U := by positivity
      have m0 := main 0
      have hm0 : magBits 0 = 0 := by decide
      have e0 : |((magBits 0 : Nat) : ℚ) / U - n / d / U| = n / d / U := by
        rw [hm0]; simp; exact h1
      rw [e0] at m0
      rw [hy]
      refine ⟨m0.1.trans (by linarith), fun hne he => ?_⟩
      have hz : (magBits (lowBits y) : ℚ) / U = 0 := by linarith [m0.1]
      have hz' : fvalue y = 0 := by rw [fv, hz, mul_zero]
      by_cases hmz : magBits (roundBits n d) = 0
      · exfalso; apply hne; rw [hz', fv, hlow, hmz, Nat.cast_zero, zero_div, mul_zero]
      · exact par (m0.2 (by rw [hm0]; exact fun h => hmz h.symm) (by rw [he, hz, zero_add]))
  · intro hge
    have : ¬ roundBits n d < 0x7FF0000000000000 := fun h => absurd (hT.mpr h) (not_lt.mpr hge)
    have hle := roundBits_le_inf n d
    unfold fround finf
    rw [show roundBits n d = 0x7FF0000000000000 by omega]
end Sys2Proof.Machine
end

