-- ==== Sys2Proof/Tests/Slice0.lean ====
section
/-! SUPPORT. The model's own tests: ill-formed words, the words of the opcode table written out from R75 and R77 to R81, worked
values of 95_test_vectors.md, and for each statement that has hypotheses a concrete state that meets them. -/

set_option Elab.async false

namespace Sys2Proof.Tests
open Sys2Proof.Machine

/-! ### Well-formedness: each check refuses an ill-formed word -/

theorem test_rsvd_refused : rsvdClear 0x00000104 = false ∧ wellFormedWord 0x00000104 = false := by decide
theorem test_family_refused : familyDefined 0x00000050 = false ∧ wellFormedWord 0x00000050 = false := by decide
theorem test_scheme_refused : schemeDefined 0x00000008 = false ∧ wellFormedWord 0x00000008 = false := by decide
theorem test_word_accepted : wellFormedWord 0x0000001A = true ∧ Instr.wellFormed .dmodQam = true := by decide

/-! ### Decoding: RSVD, FAMILY and SCHEME written out (R75), and the three rejections (ERR-8 to ERR-10) -/

theorem test_decode_lineNrzL : decode (0x000000#24 ++ 0b0000#4 ++ 0b0000#4) = .ok .lineNrzL := by rfl
theorem test_decode_lineNrzI : decode (0x000000#24 ++ 0b0000#4 ++ 0b0001#4) = .ok .lineNrzI := by rfl
theorem test_decode_lineManchester : decode (0x000000#24 ++ 0b0000#4 ++ 0b0010#4) = .ok .lineManchester := by rfl
theorem test_decode_lineDiffManchester : decode (0x000000#24 ++ 0b0000#4 ++ 0b0011#4) = .ok .lineDiffManchester := by rfl
theorem test_decode_lineAmi : decode (0x000000#24 ++ 0b0000#4 ++ 0b0100#4) = .ok .lineAmi := by rfl
theorem test_decode_linePseudoternary : decode (0x000000#24 ++ 0b0000#4 ++ 0b0101#4) = .ok .linePseudoternary := by rfl
theorem test_decode_lineB8zs : decode (0x000000#24 ++ 0b0000#4 ++ 0b0110#4) = .ok .lineB8zs := by rfl
theorem test_decode_lineHdb3 : decode (0x000000#24 ++ 0b0000#4 ++ 0b0111#4) = .ok .lineHdb3 := by rfl
theorem test_decode_dmodAsk : decode (0x000000#24 ++ 0b0001#4 ++ 0b0000#4) = .ok .dmodAsk := by rfl
theorem test_decode_dmodFsk : decode (0x000000#24 ++ 0b0001#4 ++ 0b0001#4) = .ok .dmodFsk := by rfl
theorem test_decode_dmodPsk : decode (0x000000#24 ++ 0b0001#4 ++ 0b0010#4) = .ok .dmodPsk := by rfl
theorem test_decode_dmodBfsk : decode (0x000000#24 ++ 0b0001#4 ++ 0b0011#4) = .ok .dmodBfsk := by rfl
theorem test_decode_dmodMfsk : decode (0x000000#24 ++ 0b0001#4 ++ 0b0100#4) = .ok .dmodMfsk := by rfl
theorem test_decode_dmodBpsk : decode (0x000000#24 ++ 0b0001#4 ++ 0b0101#4) = .ok .dmodBpsk := by rfl
theorem test_decode_dmodDpsk : decode (0x000000#24 ++ 0b0001#4 ++ 0b0110#4) = .ok .dmodDpsk := by rfl
theorem test_decode_dmodQpsk : decode (0x000000#24 ++ 0b0001#4 ++ 0b0111#4) = .ok .dmodQpsk := by rfl
theorem test_decode_dmodOqpsk : decode (0x000000#24 ++ 0b0001#4 ++ 0b1000#4) = .ok .dmodOqpsk := by rfl
theorem test_decode_dmodMpsk : decode (0x000000#24 ++ 0b0001#4 ++ 0b1001#4) = .ok .dmodMpsk := by rfl
theorem test_decode_dmodQam : decode (0x000000#24 ++ 0b0001#4 ++ 0b1010#4) = .ok .dmodQam := by rfl
theorem test_decode_a2dPcm : decode (0x000000#24 ++ 0b0010#4 ++ 0b0000#4) = .ok .a2dPcm := by rfl
theorem test_decode_a2dDelta : decode (0x000000#24 ++ 0b0010#4 ++ 0b0001#4) = .ok .a2dDelta := by rfl
theorem test_decode_amodAm : decode (0x000000#24 ++ 0b0011#4 ++ 0b0000#4) = .ok .amodAm := by rfl
theorem test_decode_amodFm : decode (0x000000#24 ++ 0b0011#4 ++ 0b0001#4) = .ok .amodFm := by rfl
theorem test_decode_amodPm : decode (0x000000#24 ++ 0b0011#4 ++ 0b0010#4) = .ok .amodPm := by rfl
theorem test_decode_interpLinear : decode (0x000000#24 ++ 0b0100#4 ++ 0b0000#4) = .ok .interpLinear := by rfl

theorem test_decode_reserved : decode 0x00000104 = .error .reservedBits ∧ decode 0x000000F0 = .error .reservedFamily ∧
    decode 0x0000001B = .error .reservedScheme := ⟨rfl, rfl, rfl⟩

/-! ### The sequences of the commands, on the vectors of 95_test_vectors.md -/

/-- The `n` bits of `v`, the first the most significant. -/
def bitsOf (n v : Nat) : List Bool := (List.range n).map fun i => v.testBit (n - 1 - i)

/-- The voltage of each slot of a flat sequence. -/
def slots : List Point → List F64
  | p :: _ :: ps => p.y :: slots ps
  | _ => []

/-- +1, −1 and 0 V, and the points (k/2, v) of the Manchester vectors. -/
def P : F64 := 0x3FF0000000000000
def M : F64 := 0xBFF0000000000000
def Z : F64 := 0x0000000000000000
def at2 (k : Nat) (v : F64) : Point := ⟨fdec k 2, v⟩

theorem test_nrzL_lc1 : slots (nrzLTx 4 (bitsOf 4 0b0110)) = [P, M, M, P] := by decide +kernel
theorem test_nrzI_lc2 : slots (nrzITx 4 (bitsOf 4 0b0110)) = [P, M, P, P] := by decide +kernel
theorem test_nrzI_lc3 : slots (nrzITx 5 (bitsOf 4 0b0110)) = [M, P, M, M] := by decide +kernel
theorem test_manchester_lc23 : manchesterTx 4 (bitsOf 2 0b01) =
    [at2 0 P, at2 1 P, at2 1 M, at2 2 M, at2 2 M, at2 3 M, at2 3 P, at2 4 P] := by decide +kernel
theorem test_manchester_lc24 : manchesterTx 4 (bitsOf 2 0b00) =
    [at2 0 P, at2 1 P, at2 1 M, at2 2 M, at2 2 P, at2 3 P, at2 3 M, at2 4 M] := by decide +kernel
theorem test_diffManchester_lc25 : diffManchesterTx 4 (bitsOf 2 0b01) =
    [at2 0 M, at2 1 M, at2 1 P, at2 2 P, at2 2 P, at2 3 P, at2 3 M, at2 4 M] := by decide +kernel
theorem test_diffManchester_lc26 : diffManchesterTx 6 (bitsOf 2 0b01) =
    [at2 0 P, at2 1 P, at2 1 M, at2 2 M, at2 2 M, at2 3 M, at2 3 P, at2 4 P] := by decide +kernel
theorem test_ami_lc4 : slots (amiTx 4 (bitsOf 4 0b1011)) = [P, Z, M, P] := by decide +kernel
theorem test_ami_lc5 : slots (amiTx 0 (bitsOf 4 0b1011)) = [M, Z, P, M] := by decide +kernel
theorem test_pseudoternary_lc6 : slots (pseudoternaryTx 4 (bitsOf 4 0b0100)) = [P, Z, M, P] := by decide +kernel
theorem test_pseudoternary_lc7 : slots (pseudoternaryTx 0 (bitsOf 4 0b0100)) = [M, Z, P, M] := by decide +kernel
theorem test_b8zs_lc13 :
    slots (b8zsTx 4 (bitsOf 10 0b1000000000)) = [P, Z, Z, Z, P, M, Z, P, M, Z] := by decide +kernel
theorem test_b8zs_lc15 :
    slots (b8zsTx 4 (bitsOf 12 0b110000000011)) = [P, M, Z, Z, Z, M, P, Z, M, P, M, P] := by decide +kernel
theorem test_hdb3_lc17 : slots (hdb3Tx 4 (bitsOf 10 0b1100001000)) = [P, M, Z, Z, Z, M, P, Z, Z, Z] := by decide +kernel
theorem test_hdb3_lc21 :
    slots (hdb3Tx 4 (bitsOf 12 0b101000010000)) = [P, Z, M, Z, Z, Z, M, P, M, Z, Z, M] := by decide +kernel

/-- R100, for b = 01: (0,0) (1,0) (1,1) (2,1). -/
theorem test_digitalInput : digitalInput (bitsOf 2 0b01) = [at2 0 Z, at2 2 Z, at2 2 P, at2 4 P] := by decide +kernel

/-- R99: 201 samples from (0, 0) to x = 2.0, the second at 1 ÷ 100. -/
theorem test_analogInput : (analogInput P P 100).length = 201 ∧ (analogInput P P 100)[0]? = some ⟨Z, Z⟩ ∧
    (analogInput P P 100)[1]?.map Point.x = some (fdec 1 100) ∧
    (analogInput P P 100)[200]?.map Point.x = some 0x4000000000000000 := by decide +kernel

/-- DM-1, DM-2: at t = 0 the sine is +0.0; the amplitude of a 0 bit is 0.2. -/
theorem test_ask_dm1 : (askTx [true]).length = 101 ∧ (askTx [true])[0]? = some ⟨Z, Z⟩ ∧
    askAmp false = 0x3FC999999999999A := by decide +kernel
theorem test_fsk_dm3 : (fskTx [false])[0]? = some ⟨Z, Z⟩ ∧ fskHz false = f64 3 ∧ fskHz true = f64 7 := by decide +kernel
/-- DM-5: the last sample of the first bit and the first of the second differ in phase by PI. -/
theorem test_psk_dm5 : (pskTx (bitsOf 2 0b10))[0]? = some ⟨Z, Z⟩ ∧
    pskPhase false = fpi ∧ pskPhase true = Z := by decide +kernel
/-- DM-6, b = 001: phases PI, 0, 0. -/
theorem test_dpsk_dm6 : dpskPhases Z (bitsOf 3 0b001) = [fpi, Z, Z] := by decide +kernel
/-- DM-8: b = 1 is padded to 10, so 201 samples; DM-7, DM-9: π/4 for 11 and 3π/4 for 01. -/
theorem test_qpsk_dm8 : padBits [true] 2 = [true, false] ∧ (qpskTx [true]).length = 201 ∧
    qpskPhase true true = quarterPi ∧ qpskPhase false true = fmul (f64 3) quarterPi := by decide +kernel
/-- DM-10: the phase track at j = 0, 99, 100, 299, 300 and 400, and y = SQRT1_2 at j = 0. -/
theorem test_oqpsk_dm10 : [0, 99, 100, 299, 300, 400].map (fun j => (oqpskI j 2, oqpskQ j 2)) =
      [(0, 0), (0, 0), (0, 0), (1, 0), (1, 1), (1, 1)] ∧
    (oqpskTx (bitsOf 4 0b1100))[0]? = some ⟨Z, 0x3FE6A09E667F3BCD⟩ := by decide +kernel
/-- DM-14: 1111 is padded to 111100, so 601 samples of phases 7π/4 and 4π/4. -/
theorem test_mpsk_dm14 : padBits (bitsOf 4 0b1111) 3 = bitsOf 6 0b111100 ∧ bitsValue [true, true, true] = 7 ∧
    bitsValue [true, false, false] = 4 := by decide +kernel
/-- DM-15 and DM-17 at j = 0: exactly 1.0 and −1.0. -/
theorem test_qam_dm15 : (qamTx (bitsOf 4 0b1111))[0]? = some ⟨Z, P⟩ := by decide +kernel
theorem test_qam_dm17 : (qamTx (bitsOf 4 0b0000))[0]? = some ⟨Z, M⟩ := by decide +kernel
/-- DM-19: 11 is 9 Hz. -/
theorem test_mfsk_dm19 : (mfskTx (bitsOf 2 0b11))[0]? = some ⟨Z, Z⟩ ∧ f64 (3 + 2 * bitsValue [true, true]) = f64 9 := by
  decide +kernel

/-- A2D-1: at v = +0.0 the level of 16 is 8, and its reconstruction has the pattern given; T[1] = 0.1. -/
theorem test_pcm_level_a2d1 : pcmLevel P (f64 15) Z = f64 8 ∧
    pcmReconstruct P (f64 15) (f64 8) = 0x3FB1111111111110 := by decide +kernel
/-- A2D-3: T = 0, 0.333333, 0.666667, ... -/
theorem test_pcm_instants_a2d3 : (List.range 3).map (sampleInstant (f64 3)) = [Z, fdec 333333 1000000, fdec 666667 1000000] := by
  decide +kernel
/-- A2D-6: K = 1, TX = (0, 0), OUT = (0, −0.5), (2.0, −0.5). -/
theorem test_delta_a2d6 : (deltaSignal P P (fdec 1 4) (fdec 1 2) 1).transmitted = [⟨Z, Z⟩] ∧
    (deltaSignal P P (fdec 1 4) (fdec 1 2) 1).output = [⟨Z, fneg (fdec 1 2)⟩, ⟨f64 2, fneg (fdec 1 2)⟩] := by decide +kernel
/-- A2D-7: at v = −1.0 and a = −1.0 the bit is 0 and −2.0 is clamped to −1.5. -/
theorem test_delta_clamp_a2d7 : deltaBit M M = false ∧ deltaNext P P M M = fneg (fdec 3 2) := by decide +kernel

/-- 95_test_vectors.md section 2.4, row k = 0, and 401 Points. -/
theorem test_am_first : amSample P P Z Z = Z ∧ (amodSignal P P amSample).transmitted.length = 401 := by
  exact ⟨by decide +kernel, by simp [amodSignal]⟩
theorem test_fm_first : fmSample P P Z Z = Z := by decide +kernel
theorem test_pm_first : pmSample P P Z Z = Z := by decide +kernel

/-- INT-1 and INT-9. -/
theorem test_interp_int1 : interp [⟨Z, Z⟩, ⟨P, f64 2⟩] (fdec 1 2) = P ∧
    interp [⟨Z, fdec 1 10⟩, ⟨fdec 3 10, fdec 7 10⟩] (fdec 15 100) = 0x3FD999999999999A := by decide +kernel
/-- INT-10, INT-12, INT-14: a duplicate x, a later bracket, an unsorted sequence. -/
theorem test_interp_int10 : interp [⟨Z, Z⟩, ⟨P, P⟩, ⟨P, f64 3⟩, ⟨f64 2, f64 5⟩] P = f64 3 ∧
    interp [⟨Z, Z⟩, ⟨P, P⟩, ⟨P, f64 3⟩, ⟨f64 2, f64 5⟩] (fdec 3 2) = f64 4 ∧
    interp [⟨Z, P⟩, ⟨f64 2, f64 3⟩, ⟨P, f64 7⟩] (fdec 3 2) = f64 7 := by decide +kernel

/-! ### The host's accesses (MEM-1 to MEM-8) and reset -/

theorem test_mem1 : wrf64 0x010 (f64 2) = [.write 32 0x010 0x00000000, .write 32 0x014 0x40000000] := by decide +kernel
theorem test_mem2 : readWord (writePoints [] (txBase + 16 * 4) [⟨f64 4, P⟩]) (txBase + 0x044) = some 0x40100000 := by
  decide +kernel
theorem test_mem3 : bitWord (bitsOf 4 0b1000) 0 = 0x30303031 := by decide +kernel
theorem test_mem5 : hostWrite State.reset 32 0x004 0xFFFFFFFF = State.reset := by decide
theorem test_mem6 : (hostWrite State.reset 32 0x00C 0xFFFFFFFF).cfgInit = 0x00000007 := by decide
theorem test_mem7 : (hostWrite State.reset 16 0x008 0).faultMark = true ∧
    (hostWrite State.reset 32 0x002 0).faultMark = true := by decide
theorem test_mem8 : (hostRead State.reset 32 0x50000000).faultMark = true := by decide
theorem test_reset_cfgInit_reads_4 : (hostRead State.reset 32 0x00C).hostReads = [0x00000004] := by decide

/-! ### One completion step (ERR-1, ERR-4, ERR-10, ERR-15) -/

/-- The block BUSY with the word `w`, completion due, everything else as after reset. -/
def busyWith (w : Word) : State := State.reset.withFetchWord 32 w.toNat

theorem test_err1 : step (busyWith 0x00000000) = .next { busyWith 0x00000000 with status := 0x00000206 } := by rfl
theorem test_err4 : step (busyWith 0x00000040) = .next { busyWith 0x00000040 with status := 0x00000206 } := by rfl
theorem test_err10 : step (busyWith 0x00000104) = .next { busyWith 0x00000104 with status := 0x00000306 } := by rfl

/-! ### Small states for the witnesses -/

/-- 0.5. -/
def H : F64 := 0x3FE0000000000000

/-- BUSY with `w`, BIT_LEN = 1, and "1" in BITBUF. -/
def oneBit (w : Word) : State := { busyWith w with bitLen := 1, mem := writeWord [] bitBase 0x30303031 }

/-- BUSY with `w`, BIT_LEN = 1, and "0" in BITBUF. -/
def zeroBit (w : Word) : State := { busyWith w with bitLen := 1, mem := writeWord [] bitBase 0x30303030 }

/-- BUSY with `w` and the analog parameters FREQ = AMPL = 1.0, SRATE = 0.5, QLEVELS = 2, DELTA_RATIO = 1.0. -/
def analog (w : Word) : State :=
  { busyWith w with freq := P, ampl := P, srate := H, qlevels := 2, deltaRatio := P }

/-- The Points (0,0) (1,2) of INT-1. -/
def twoPoints : List Point := [⟨Z, Z⟩, ⟨P, 0x4000000000000000⟩]

/-- BUSY with INTERP.LINEAR over `twoPoints` at `t`. -/
def interpAt (t : F64) : State :=
  { busyWith 0x40 with inCount := 2, tQuery := t, mem := writePoints [] inBase twoPoints }

theorem oneBit_loaded (w : Word) : BitsLoaded (oneBit w) [true] where
  length := rfl
  positive := by decide
  fits := Config.maxBits_pos
  bytes := by
    intro i hi
    obtain rfl : i = 0 := by simpa using hi
    refine ⟨fun k hk => ?_, rfl⟩
    rcases (by omega : k = 0 ∨ k = 1 ∨ k = 2 ∨ k = 3) with rfl | rfl | rfl | rfl <;> rfl

theorem zeroBit_loaded (w : Word) : BitsLoaded (zeroBit w) [false] where
  length := rfl
  positive := by decide
  fits := Config.maxBits_pos
  bytes := by
    intro i hi
    obtain rfl : i = 0 := by simpa using hi
    refine ⟨fun k hk => ?_, rfl⟩
    rcases (by omega : k = 0 ∨ k = 1 ∨ k = 2 ∨ k = 3) with rfl | rfl | rfl | rfl <;> rfl

theorem interpAt_loaded (t : F64) : PointsLoaded (interpAt t) twoPoints where
  length := rfl
  positive := by decide
  fits := Nat.le_trans (by decide) Config.analog_le
  points := fun k hk => readPoint_writePoints [] inBase twoPoints k hk

theorem positiveFinite_one : PositiveFinite P := ⟨by decide +kernel, by decide +kernel⟩
theorem isPositiveFinite_one : isPositiveFinite P = true := by decide +kernel
theorem isPositiveFinite_half : isPositiveFinite H = true := by decide +kernel
theorem ratio_one_legal : (flt fzero P && fle P fone) = true := by decide +kernel
theorem positiveFinite_half : PositiveFinite H := ⟨by decide +kernel, by decide +kernel⟩

/-- At SRATE = 0.5 the instants are 0.0 and 2.0. -/
theorem instants_half : InstantsAre H 2 where
  before := by
    intro j hj
    rcases (by omega : j = 0 ∨ j = 1) with rfl | rfl <;> decide +kernel
  after := by decide +kernel

theorem instantCount_half : instantCount H = 2 :=
  countInstants_eq (Nat.zero_le 2) (by have := Config.analog_le; omega)
    (fun j _ hj => by rw [tEnd_eq]; exact instants_half.before j hj) (by rw [tEnd_eq]; exact instants_half.after)

theorem line_done (w : Word) : ∃ t, exec .lineNrzL (oneBit w) = .next t ∧ t.status = 0x00000002 ∧ 0 < t.inCount.toNat := by
  have h := (lineOutcome_eq_ok (oneBit w) nrzLTx _).mpr ⟨[true], oneBit_loaded w, rfl⟩
  refine ⟨_, rfl, ?_⟩
  rw [h]
  refine ⟨rfl, ?_⟩
  simp [finishSignal, digitalSignal]

theorem dmod_done (w : Word) : ∃ t, exec .dmodAsk (oneBit w) = .next t ∧ t.status = 0x00000002 ∧ 0 < t.inCount.toNat := by
  have h := (dmodOutcome_eq_ok (oneBit w) askTx _).mpr ⟨[true], oneBit_loaded w, rfl⟩
  refine ⟨_, rfl, ?_⟩
  rw [h]
  refine ⟨rfl, ?_⟩
  simp [finishSignal, digitalSignal]

theorem pcm_done (w : Word) : ∃ t, exec .a2dPcm (analog w) = .next t ∧ t.status = 0x00000002 ∧ t.txCount = 2 := by
  have hc := instantCount_half
  have h := (pcmOutcome_eq_ok (analog w) _).mpr ⟨isPositiveFinite_one, isPositiveFinite_one, isPositiveFinite_half,
    Nat.le_refl 2, by rw [show (analog w).srate = H from rfl, hc]; have := Config.analog_le; omega, rfl⟩
  refine ⟨_, rfl, ?_⟩
  rw [h]
  refine ⟨rfl, ?_⟩
  simp [finishSignal, pcmSignal, show (analog w).srate = H from rfl, hc]

theorem delta_done (w : Word) : ∃ t, exec .a2dDelta (analog w) = .next t ∧ t.status = 0x00000002 ∧ t.outCount = 4 := by
  have hc := instantCount_half
  have h := (deltaOutcome_eq_ok (analog w) _).mpr ⟨isPositiveFinite_one, isPositiveFinite_one, isPositiveFinite_half,
    ratio_one_legal, by rw [show (analog w).srate = H from rfl, hc]; have := Config.analog_le; omega, rfl⟩
  refine ⟨_, rfl, ?_⟩
  rw [h]
  refine ⟨rfl, ?_⟩
  simp [finishSignal, deltaSignal, show (analog w).srate = H from rfl, hc]
  decide

theorem amod_done (w : Word) : ∃ t, exec .amodAm (analog w) = .next t ∧ t.status = 0x00000002 ∧ 0 < t.inCount.toNat := by
  have h := (amodOutcome_eq_ok (analog w) amSample _).mpr ⟨isPositiveFinite_one, isPositiveFinite_one, rfl⟩
  refine ⟨_, rfl, ?_⟩
  rw [h]
  refine ⟨rfl, ?_⟩
  simp [finishSignal, amodSignal]

theorem interp_done : ∃ t, exec .interpLinear (interpAt H) = .next t ∧ t.status = 0x00000002 := by
  have h := (interpOutcome_eq_ok (interpAt H) _).mpr ⟨twoPoints, interpAt_loaded _, by decide +kernel, rfl⟩
  refine ⟨_, rfl, ?_⟩
  rw [h]
  rfl

/-! ### Witnesses: each statement's hypotheses are met -/

theorem witness_DecodeExact : Instr.wellFormed .interpLinear = true ∧ decode 0x00000040 = .ok .interpLinear ∧
    (∀ i, (0x00000008 : Word) ≠ encode i) ∧ (∀ i, (0x00000041 : Word) ≠ encode i) ∧
    (∀ i, (0xFFFFFFFF : Word) ≠ encode i) ∧ (busyWith 0x00000008).cmd = 0x00000008 :=
  ⟨rfl, rfl, fun i => by cases i <;> decide, fun i => by cases i <;> decide, fun i => by cases i <;> decide, rfl⟩

theorem witness_ReservedWordCompletes : (busyWith 0x00000100).cmd.toNat / 256 ≠ 0 ∧
    (busyWith 0xFFFFFFFF).cmd.toNat / 256 ≠ 0 ∧ (busyWith 0x00000104).cmd.toNat / 256 ≠ 0 := by decide

/-- Completion due because the delay has run out with inputs left, and because no input is left. -/
theorem witness_StepRunsDecodedCommand :
    (∃ (s : State) (i : Instr), s.faultMark = false ∧ s.busy = true ∧ s.busyLeft = 0 ∧ s.inputs ≠ [] ∧
      i.wellFormed = true ∧ decode s.cmd = .ok i) ∧
    (∃ (s : State) (i : Instr), s.faultMark = false ∧ s.busy = true ∧ s.busyLeft ≠ 0 ∧ s.inputs = [] ∧
      i.wellFormed = true ∧ decode s.cmd = .ok i) ∧
    decodeTableWord 32 0x00000040 = some .interpLinear ∧ decodeTableWord 32 0 = some .lineNrzL :=
  ⟨⟨{ busyWith 0 with inputs := [.reset] }, .lineNrzL, rfl, rfl, rfl, List.cons_ne_nil _ _, rfl, rfl⟩,
    ⟨{ busyWith 0 with busyLeft := 5 }, .lineNrzL, rfl, rfl, by decide, rfl, rfl, rfl⟩, rfl, rfl⟩

theorem witness_StepServesInputs :
    (∃ (s : State) (i : HostInput) (rest : List HostInput), s.faultMark = false ∧ s.inputs = i :: rest ∧ s.busy = false) ∧
    (∃ (s : State) (i : HostInput) (rest : List HostInput), s.faultMark = false ∧ s.inputs = i :: rest ∧ s.busy = true ∧
      s.busyLeft ≠ 0) ∧
    (∃ s : State, s.faultMark = false ∧ s.busy = false ∧ s.inputs = []) ∧
    (∃ s : State, s.faultMark = true ∧ ∀ rest, s.inputs ≠ .reset :: rest) :=
  ⟨⟨{ State.reset with inputs := rd32 4 }, _, _, rfl, rfl, rfl⟩,
    ⟨{ busyWith 0 with inputs := rd32 4, busyLeft := 1 }, _, _, rfl, rfl, rfl, by decide⟩,
    ⟨State.reset, rfl, rfl, rfl⟩,
    ⟨{ State.reset with faultMark := true }, rfl, fun rest h => by cases h⟩⟩

theorem witness_ResetEvent : ∃ s t : State, s.busy = true ∧ s.faultMark = true ∧ serveInput s .reset = t :=
  ⟨{ oneBit 0 with faultMark := true }, _, rfl, rfl, rfl⟩

theorem witness_FirstCommandAfterResetFails : Instr.family .lineHdb3 = .line ∧ Instr.family .dmodQam = .dmod ∧
    Instr.family .a2dPcm = .a2d ∧ Instr.family .amodPm = .amod ∧ Instr.family .interpLinear = .interp := by decide

theorem witness_AcceptanceOnCmdWrite : ∃ s : State, s.busy = false ∧ s.status = 0x00000206 :=
  ⟨{ State.reset with status := 0x00000206 }, rfl, rfl⟩

theorem witness_BusyBlockStopsBeingBusy : ∃ s : State, s.busy = true ∧ s.faultMark = false ∧ s.busyLeft = 2 ∧
    s.inputs = rd32 4 ++ rd32 4 ++ rd32 4 :=
  ⟨{ oneBit 0 with busyLeft := 2, inputs := rd32 4 ++ rd32 4 ++ rd32 4 }, rfl, rfl, rfl, rfl⟩

/-- One step of each kind that a status can come from. -/
theorem witness_StatusWriters : (∃ t, step { busyWith 0 with inputs := [.reset], busyLeft := 1 } = .next t) ∧
    (∃ t, step { State.reset with inputs := cmdWrite .lineAmi } = .next t) ∧ (∃ t, step (busyWith 0) = .next t) ∧
    (∃ t, step { State.reset with inputs := rd32 4 } = .next t) :=
  ⟨⟨_, rfl⟩, ⟨_, rfl⟩, ⟨_, rfl⟩, ⟨_, rfl⟩⟩

/-- The first and the last word of BITBUF and of a point buffer, and that their offsets are 32-bit words. -/
theorem bit_first : InBuffers bitBase := .inl ⟨Nat.le_refl _, by have := Config.maxBits_pos; unfold bitBytes; omega⟩

theorem bit_last : (BitVec.ofNat 32 (bitBase + (bitBytes - 4))).toNat = bitBase + (bitBytes - 4) ∧
    (bitBase + (bitBytes - 4)) % 4 = 0 ∧ InBuffers (bitBase + (bitBytes - 4)) := by
  have := bitBytes_le
  have h : 4 ≤ bitBytes := by have := Config.maxBits_pos; unfold bitBytes; omega
  have h4 : bitBytes % 4 = 0 := by unfold bitBytes; omega
  have hb : bitBase = 0x10000000 := rfl
  refine ⟨?_, by omega, .inl ⟨by omega, by omega⟩⟩
  rw [BitVec.toNat_ofNat]; omega

theorem in_last : (BitVec.ofNat 32 (inBase + (pointBufferBytes - 4))).toNat = inBase + (pointBufferBytes - 4) ∧
    (inBase + (pointBufferBytes - 4)) % 4 = 0 ∧ InBuffers (inBase + (pointBufferBytes - 4)) ∧
    inBase + (pointBufferBytes - 4) < txBase := by
  have := pointBufferBytes_le
  have h : 4 ≤ pointBufferBytes := by have := Config.analog_le; unfold pointBufferBytes; omega
  have h4 : pointBufferBytes % 4 = 0 := by unfold pointBufferBytes; omega
  have hb : inBase = 0x20000000 := rfl
  have ht : txBase = 0x30000000 := rfl
  refine ⟨?_, by omega, .inr (.inl ⟨by omega, by omega⟩), by omega⟩
  rw [BitVec.toNat_ofNat]; omega

theorem tx_first : InBuffers txBase :=
  .inr (.inr (.inl ⟨Nat.le_refl _, by have := Config.analog_le; unfold pointBufferBytes; omega⟩))

theorem out_last : (BitVec.ofNat 32 (outBase + (pointBufferBytes - 4))).toNat = outBase + (pointBufferBytes - 4) ∧
    (outBase + (pointBufferBytes - 4)) % 4 = 0 ∧ InBuffers (outBase + (pointBufferBytes - 4)) ∧
    txBase ≤ outBase + (pointBufferBytes - 4) := by
  have := pointBufferBytes_le
  have h : 4 ≤ pointBufferBytes := by have := Config.analog_le; unfold pointBufferBytes; omega
  have h4 : pointBufferBytes % 4 = 0 := by unfold pointBufferBytes; omega
  have hb : outBase = 0x40000000 := rfl
  have ht : txBase = 0x30000000 := rfl
  refine ⟨?_, by omega, .inr (.inr (.inr ⟨by omega, by omega⟩)), by omega⟩
  rw [BitVec.toNat_ofNat]; omega

/-- A drawn and an undrawn register while BUSY, the last word of REG; an unwritten buffer word, the last one; a written one, BUSY and idle. -/
theorem witness_HostReadRule :
    ((busyWith 0).busy = true ∧ (0x040 : Word).toNat ∈ drawnOffsets ∧ (0x05C : Word).toNat ∈ drawnOffsets ∧
      (0x05C : Word).toNat % 4 = 0) ∧
    (¬(State.reset.busy = true ∧ (0x040 : Word).toNat ∈ drawnOffsets) ∧ (0x0FFFFFFC : Word).toNat % 4 = 0 ∧
      (0x0FFFFFFC : Word).toNat < 0x10000000 ∧ (0x0FFFFFFC : Word).toNat ∉ drawnOffsets) ∧
    (∃ off : Word, off.toNat % 4 = 0 ∧ InBuffers off.toNat ∧ readWord State.reset.mem off.toNat = none ∧
      off.toNat = outBase + (pointBufferBytes - 4)) ∧
    ((0x10000000 : Word).toNat % 4 = 0 ∧ InBuffers (0x10000000 : Word).toNat ∧
      readWord (oneBit 0).mem (0x10000000 : Word).toNat = some 0x30303031 ∧ (oneBit 0).busy = true ∧
      ({ oneBit 0 with status := 0x00000002 } : State).busy = false) := by
  refine ⟨by decide, by decide, ⟨_, ?_, ?_, rfl, out_last.1⟩, rfl, bit_first, rfl, rfl, rfl⟩
  · rw [out_last.1]; exact out_last.2.1
  · rw [out_last.1]; exact out_last.2.2.1

theorem witness_HostWriteIdle : State.reset.busy = false ∧
    ((0x004 : Word).toNat ≠ 0 ∧ (0x004 : Word).toNat % 4 = 0 ∧ (0x0FFFFFFC : Word).toNat < 0x10000000 ∧
      (0x0FFFFFFC : Word).toNat % 4 = 0) ∧
    (InBuffers (0x10000000 : Word).toNat ∧ (0x10000000 : Word).toNat % 4 = 0 ∧ (0x10000000 : Word).toNat < txBase) ∧
    (∃ off : Word, off.toNat % 4 = 0 ∧ InBuffers off.toNat ∧ off.toNat < txBase ∧
      off.toNat = inBase + (pointBufferBytes - 4)) ∧
    (InBuffers (0x30000000 : Word).toNat ∧ (0x30000000 : Word).toNat % 4 = 0 ∧ txBase ≤ (0x30000000 : Word).toNat) ∧
    (∃ off : Word, off.toNat % 4 = 0 ∧ InBuffers off.toNat ∧ txBase ≤ off.toNat ∧
      off.toNat = outBase + (pointBufferBytes - 4)) := by
  refine ⟨rfl, by decide, ⟨bit_first, by decide, by decide⟩, ⟨_, ?_, ?_, ?_, in_last.1⟩, ⟨tx_first, by decide, by decide⟩,
    ⟨_, ?_, ?_, ?_, out_last.1⟩⟩
  · rw [in_last.1]; exact in_last.2.1
  · rw [in_last.1]; exact in_last.2.2.1
  · rw [in_last.1]; exact in_last.2.2.2
  · rw [out_last.1]; exact out_last.2.1
  · rw [out_last.1]; exact out_last.2.2.1
  · rw [out_last.1]; exact out_last.2.2.2

/-- The first refused offsets: width 16, offset 2, space 5, the word past BITBUF, and (in an implementation whose point buffers do not fill
their spaces) the word past INBUF and past OUTBUF. -/
theorem witness_RefusedAccessesMark : (16 ≠ 32 ∧ (0x002 : Word).toNat % 4 ≠ 0 ∧ 5 ≤ (0x50000000 : Word).toNat / 0x10000000) ∧
    (∃ off : Word, off.toNat / 0x10000000 = 1 ∧ off.toNat % 0x10000000 = 4 * ((Config.maxBits + 3) / 4)) ∧
    (Config.maxPoints < 2 ^ 24 → (∃ off : Word, off.toNat / 0x10000000 = 2 ∧ off.toNat % 0x10000000 = 16 * Config.maxPoints) ∧
      ∃ off : Word, off.toNat / 0x10000000 = 4 ∧ off.toNat % 0x10000000 = 16 * Config.maxPoints) := by
  have := Config.maxBits_le
  refine ⟨by decide, ⟨BitVec.ofNat 32 (0x10000000 + 4 * ((Config.maxBits + 3) / 4)), ?_, ?_⟩, fun h =>
    ⟨⟨BitVec.ofNat 32 (0x20000000 + 16 * Config.maxPoints), ?_, ?_⟩,
      ⟨BitVec.ofNat 32 (0x40000000 + 16 * Config.maxPoints), ?_, ?_⟩⟩⟩ <;> rw [BitVec.toNat_ofNat] <;> omega

theorem witness_BusyWritesRefused : (busyWith 0).busy = true ∧
    (∀ o ∈ [0x004, 0x02C, 0x054, 0x068, 0x0FFFFFFC], (BitVec.ofNat 32 o).toNat = o ∧ o % 4 = 0) ∧
    (∀ o ∈ [0x000, 0x008, 0x028, 0x064], (BitVec.ofNat 32 o).toNat = o ∧ o % 4 = 0 ∧ o < 0x068) ∧
    InBuffers (0x10000000 : Word).toNat ∧
    (∃ off : Word, off.toNat % 4 = 0 ∧ InBuffers off.toNat ∧ off.toNat = outBase + (pointBufferBytes - 4)) := by
  refine ⟨rfl, by decide, by decide, bit_first, ⟨_, ?_, ?_, out_last.1⟩⟩
  · rw [out_last.1]; exact out_last.2.1
  · rw [out_last.1]; exact out_last.2.2.1

theorem witness_PointLayout : 1 < twoPoints.length ∧ 0 < txBase ∧ txBase + 16 * twoPoints.length ≤ txBase + 32 := by decide

theorem witness_WritingBitsLoadsThem : State.reset.busy = false ∧ 0 < [true].length ∧ [true].length ≤ Config.maxBits ∧
    ∃ b : List Bool, 0 < b.length ∧ b.length = Config.maxBits :=
  ⟨rfl, by decide, Config.maxBits_pos, List.replicate Config.maxBits true,
    by rw [List.length_replicate]; exact Config.maxBits_pos, List.length_replicate⟩

/-- A poll of STATUS while BUSY, and a reset while BUSY. -/
theorem witness_OperandsStableWhileBusy :
    (∃ s t : State, s.busy = true ∧ completionDue s = false ∧ step s = .next t ∧ t.faultMark = false ∧ s.inputs = rd32 4) ∧
    (∃ s t : State, s.busy = true ∧ completionDue s = false ∧ step s = .next t ∧ t.faultMark = false ∧ s.inputs = [.reset]) :=
  ⟨⟨{ busyWith 0 with inputs := rd32 4, busyLeft := 1 }, _, rfl, rfl, rfl, rfl, rfl⟩,
    ⟨{ busyWith 0 with inputs := [.reset], busyLeft := 1 }, _, rfl, rfl, rfl, rfl, rfl⟩⟩

theorem not_marked_nil (a : Nat) : ¬ WordMarked [] a := fun h => absurd (h 0 (by decide)) (by simp)

/-- A host write; a successful command; a host read of an unmarked word; a command's read of the first bit and of the first and the last
word of a Point, unmarked. -/
theorem witness_WrittenMarks :
    (State.reset.busy = false ∧ (0x10000000 : Word).toNat % 4 = 0 ∧ InBuffers (0x10000000 : Word).toNat ∧
      (0x10000000 : Word).toNat < txBase) ∧
    (∃ t, (oneBit 0).status = 0x00000001 ∧ exec .lineNrzL (oneBit 0) = .next t ∧ t.status = 0x00000002) ∧
    ¬ WordMarked State.reset.mem (0x10000000 : Word).toNat ∧
    (∃ s : State, s.bitLen.toNat ≤ Config.maxBits ∧ 0 < s.bitLen.toNat ∧ ¬ WordMarked s.mem (bitBase + 0) ∧
      ∀ j < 0, BitByteIs s.mem j 0x30 ∨ BitByteIs s.mem j 0x31) ∧
    (∃ s : State, s.inCount.toNat ≤ Config.maxPoints ∧ 3 < 4 * s.inCount.toNat ∧ ¬ WordMarked s.mem (inBase + 4 * 0) ∧
      ¬ WordMarked s.mem (inBase + 4 * 3)) := by
  refine ⟨⟨rfl, rfl, bit_first, by decide⟩, ?_, not_marked_nil _, ?_, ?_⟩
  · obtain ⟨t, h, ht, -⟩ := line_done 0
    exact ⟨t, rfl, h, ht⟩
  · exact ⟨{ busyWith 0 with bitLen := 1 }, Config.maxBits_pos, by decide, not_marked_nil _, fun j hj => absurd hj (by simp)⟩
  · exact ⟨{ busyWith 0 with inCount := 1 }, Nat.le_trans (by decide) Config.analog_le, by decide, not_marked_nil _,
      not_marked_nil _⟩

/-- A BUSY state with bits in BITBUF has the invariant, and a step. -/
theorem witness_StepKeepsInvariant : Inv (oneBit 0) ∧ ∃ t, step (oneBit 0) = .next t := by
  have hr : ∀ a, (memRead (oneBit 0).mem a).isSome → bitBase ≤ a ∧ a < bitBase + 4 := by
    intro a h
    by_contra hc
    have ho : memRead (oneBit 0).mem a = none :=
      (memRead_memWrite_outside [] bitBase a (wordBytes 0x30303031) (by simp; omega)).trans rfl
    rw [ho] at h
    exact absurd h (by simp)
  have hb : 4 ≤ bitBytes := by have := Config.maxBits_pos; unfold bitBytes; omega
  refine ⟨⟨writeWord_wf List.Pairwise.nil _ _, fun a h => .inl ⟨(hr a h).1, ?_⟩, fun a h k hk => ?_, by decide, by decide,
    Nat.zero_le _, Nat.zero_le _, by decide +kernel⟩, ?_⟩
  · have := (hr a h).2
    omega
  · have := hr a h
    have ha : a / 4 * 4 = bitBase := by unfold bitBase at *; omega
    rw [ha]
    rcases (by omega : k = 0 ∨ k = 1 ∨ k = 2 ∨ k = 3) with rfl | rfl | rfl | rfl <;> rfl
  · exact ⟨_, rfl⟩

theorem witness_FaultMarkIsSticky :
    (∃ s t : State, s.faultMark = true ∧ step s = .next t) ∧
    (∃ (i : Instr) (s t : State), s.faultMark = true ∧ exec i s = .next t) :=
  ⟨⟨{ State.reset with faultMark := true, inputs := [.reset] }, _, rfl, rfl⟩,
    ⟨.lineAmi, { busyWith 4 with faultMark := true }, _, rfl, rfl⟩⟩

/-- A poll, a reset, and a successful INTERP. -/
theorem witness_OnlyInterpWritesResult : (∃ t, step { State.reset with inputs := rd32 4 } = .next t) ∧
    (∃ t, step { interpAt H with inputs := [.reset], busyLeft := 1 } = .next t) ∧
    (∃ t, step (interpAt H) = .next t ∧ t.status = 0x00000002) := by
  refine ⟨⟨_, rfl⟩, ⟨_, rfl⟩, ?_⟩
  obtain ⟨t, h, ht⟩ := interp_done
  exact ⟨t, h, ht⟩

/-- The first and the last byte of space BIT, for a command and for a host's write. -/
theorem witness_BitbufWrittenOnlyByHost : (∃ t, exec .lineAmi (oneBit 4) = .next t) ∧ inBase - 1 < inBase ∧
    bitBase ≤ bitBase ∧ bitBase < inBase ∧ bitBase ≤ inBase - 1 ∧
    (∃ t, step { State.reset with inputs := wr32 bitBase 0x30303031 } = .next t) ∧
    (∃ t, step { oneBit 4 with inputs := [.reset], busyLeft := 1 } = .next t) :=
  ⟨⟨_, rfl⟩, by decide, by decide, by decide, by decide, ⟨_, rfl⟩, ⟨_, rfl⟩⟩

/-- Success of each kind of command, an error, and the fault mark. -/
theorem witness_CommandFrame :
    (∃ t, (oneBit 0).status = 0x00000001 ∧ exec .lineNrzL (oneBit 0) = .next t ∧ t.status = 0x00000002) ∧
    (∃ t, (interpAt H).status = 0x00000001 ∧ exec .interpLinear (interpAt H) = .next t ∧ t.status = 0x00000002) ∧
    (∃ t, (busyWith 4).status = 0x00000001 ∧ exec .lineAmi (busyWith 4) = .next t ∧ t.status ≠ 0x00000002) ∧
    inBase - 1 < inBase := by
  refine ⟨?_, ?_, ⟨_, rfl, rfl, by decide⟩, by decide⟩
  · obtain ⟨t, h, ht, -⟩ := line_done 0
    exact ⟨t, rfl, h, ht⟩
  · obtain ⟨t, h, ht⟩ := interp_done
    exact ⟨t, rfl, h, ht⟩

theorem witness_DeterministicUpToDraw : ∃ t, exec .lineNrzL (oneBit 0) = .next t ∧ t.status = 0x00000002 := by
  obtain ⟨t, h, ht, -⟩ := line_done 0
  exact ⟨t, h, ht⟩

/-- Loaded bit strings "1" and "0": for every statement about a LINE or DMOD command. -/
theorem witness_BitsLoaded : BitsLoaded (oneBit 0) [true] ∧ BitsLoaded (zeroBit 0) [false] := ⟨oneBit_loaded 0, zeroBit_loaded 0⟩

/-- The hypotheses of BitInputErrors: BIT_LEN = 0 and MAX_BITS + 1; an unwritten first byte; a written '2'. -/
theorem witness_BitInputErrors : (busyWith 0).bitLen.toNat = 0 ∧ (∃ s : State, s.bitLen.toNat = Config.maxBits + 1) ∧
    (∃ s : State, s.bitLen.toNat ≤ Config.maxBits ∧ 0 < s.bitLen.toNat ∧ ¬ WordMarked s.mem (bitBase + 0)) ∧
    (∃ s : State, s.bitLen.toNat ≤ Config.maxBits ∧ 0 < s.bitLen.toNat ∧ BitByteIs s.mem 0 0x32) := by
  have := Config.maxBits_le
  refine ⟨rfl, ⟨{ State.reset with bitLen := BitVec.ofNat 32 (Config.maxBits + 1) }, ?_⟩,
    ⟨{ busyWith 0 with bitLen := 1 }, Config.maxBits_pos, by decide, not_marked_nil _⟩,
    ⟨{ oneBit 0 with mem := writeWord [] bitBase 0x30303032 }, Config.maxBits_pos, by decide, fun k hk => ?_, rfl⟩⟩
  · show (BitVec.ofNat 32 (Config.maxBits + 1)).toNat = _
    rw [BitVec.toNat_ofNat]; omega
  · rcases (by omega : k = 0 ∨ k = 1 ∨ k = 2 ∨ k = 3) with rfl | rfl | rfl | rfl <;> rfl

theorem witness_LineCounts : Instr.family .lineManchester = .line ∧ Instr.family .lineHdb3 = .line ∧
    BitsLoaded (oneBit 2) [true] := ⟨rfl, rfl, oneBit_loaded 2⟩

theorem witness_AmiPseudoternaryComplement : BitsLoaded (oneBit 4) [true] ∧ BitsLoaded (zeroBit 5) ([true].map not) ∧
    (zeroBit 5).cfgInit = (oneBit 4).cfgInit := ⟨oneBit_loaded 4, zeroBit_loaded 5, rfl⟩

theorem witness_NoRunSameAsAmi : BitsLoaded (zeroBit 6) [false] ∧ (∀ i, zeroRun [false] i 8 = false) ∧
    ∀ i, zeroRun [false] i 4 = false :=
  ⟨zeroBit_loaded 6, fun i => by simp [zeroRun], fun i => by simp [zeroRun]⟩

/-- Two runs with one loaded bit string and different histories, both unmarked. -/
theorem witness_LineIndependence : ∃ s s' t : State, s ≠ s' ∧ s'.bitLen = s.bitLen ∧ s'.cfgInit = s.cfgInit ∧
    (∀ k < s.bitLen.toNat, readBitByte s'.mem k = readBitByte s.mem k) ∧ s.faultMark = false ∧ s'.faultMark = false ∧
    exec .lineNrzL s = .next t ∧ t.faultMark = false := by
  obtain ⟨t, h, -⟩ := line_done 0
  refine ⟨oneBit 0, { oneBit 0 with result := P, txCount := 7 }, t, by decide, rfl, rfl, fun _ _ => rfl, rfl, rfl, h, ?_⟩
  have h' := (lineOutcome_eq_ok (oneBit 0) nrzLTx _).mpr ⟨[true], oneBit_loaded 0, rfl⟩
  simp only [exec, execLineNrzL, h'] at h
  cases h
  rfl

theorem witness_BitCommandErrors : (∃ t, exec .lineNrzL (oneBit 0) = .next t) ∧ (∃ t, exec .dmodQam (oneBit 0) = .next t) ∧
    (([0x08, 0x0F, 0x1B, 0x1F] : List Word).all fun w => (busyWith w).cmd == w) = true :=
  ⟨⟨_, rfl⟩, ⟨_, rfl⟩, by decide +kernel⟩

theorem witness_DmodCounts : Instr.family .dmodAsk = .dmod ∧ Instr.family .dmodOqpsk = .dmod ∧
    Instr.family .dmodMpsk = .dmod ∧ Instr.family .dmodQam = .dmod ∧ BitsLoaded (oneBit 0x1A) [true] :=
  ⟨rfl, rfl, rfl, rfl, oneBit_loaded _⟩

theorem witness_PcmCompletes : PositiveFinite (analog 0x20).freq ∧ PositiveFinite (analog 0x20).ampl ∧
    PositiveFinite (analog 0x20).srate ∧ 2 ≤ (analog 0x20).qlevels.toNat ∧ InstantsAre (analog 0x20).srate 2 ∧
    2 ≤ Config.maxPoints :=
  ⟨positiveFinite_one, positiveFinite_one, positiveFinite_half, by decide, instants_half,
    Nat.le_trans (by decide) Config.analog_le⟩

theorem witness_DeltaCompletes : PositiveFinite (analog 0x21).freq ∧ PositiveFinite (analog 0x21).ampl ∧
    PositiveFinite (analog 0x21).srate ∧ flt 0 (analog 0x21).deltaRatio = true ∧
    fle (analog 0x21).deltaRatio 0x3FF0000000000000 = true ∧ InstantsAre (analog 0x21).srate 2 ∧ 2 * 2 ≤ Config.maxPoints :=
  ⟨positiveFinite_one, positiveFinite_one, positiveFinite_half, by decide +kernel, by decide +kernel, instants_half,
    Nat.le_trans (by decide) Config.analog_le⟩

/-- The illegal values of R92 and R148: 0, −0, a negative, +∞ and a NaN; QLEVELS 0 and 1; DELTA_RATIO 0, 1.5 and a NaN. -/
theorem witness_AnalogParameterErrors :
    (∀ x ∈ ([Z, 0x8000000000000000, M, 0x7FF0000000000000, 0x7FF8000000000000] : List F64), ¬ PositiveFinite x) ∧
    PositiveFinite (analog 0x20).freq ∧ PositiveFinite (analog 0x20).ampl ∧
    (∀ n : Nat, n < 2 → (BitVec.ofNat 32 n).toNat < 2) ∧
    (∀ x ∈ ([Z, 0x3FF8000000000000, 0x7FF8000000000000] : List F64),
      ¬(flt 0 x = true ∧ fle x 0x3FF0000000000000 = true)) := by
  have h1 : (([Z, 0x8000000000000000, M, 0x7FF0000000000000, 0x7FF8000000000000] : List F64).all
      fun x => !isPositiveFinite x) = true := by decide +kernel
  have h2 : (([Z, 0x3FF8000000000000, 0x7FF8000000000000] : List F64).all
      fun x => !(flt 0 x && fle x 0x3FF0000000000000)) = true := by decide +kernel
  rw [List.all_eq_true] at h1 h2
  refine ⟨fun x hx h => ?_, positiveFinite_one, positiveFinite_one, by decide, fun x hx h => ?_⟩
  · have := h1 x hx
    rw [isPositiveFinite, h.1, show flt fzero x = true from h.2] at this
    exact absurd this (by decide)
  · have := h2 x hx
    rw [h.1, h.2] at this
    exact absurd this (by decide)

/-- The largest finite binary64: at that SRATE every instant a buffer could hold is +0.0. -/
def maxFinite : F64 := 0x7FEFFFFFFFFFFFFF

/-- With j = 2^24, past any capacity, T[j] is still +0.0. -/
theorem instant_maxFinite {j : Nat} (hj : j ≤ 2 ^ 24) : fle (sampleInstant maxFinite j) (f64 2) = true := by
  have hs : NonnegFinite maxFinite := show maxFinite.toNat < 0x7FF0000000000000 by decide +kernel
  have h := sampleInstant_mono_of_finite hs (by decide +kernel) hj
    (by unfold NonnegFinite; decide +kernel) (by unfold NonnegFinite; decide +kernel)
    (by unfold NonnegFinite; decide +kernel) (by unfold NonnegFinite; decide +kernel)
    (by unfold NonnegFinite; decide +kernel)
  have h6 : (sampleInstant maxFinite (2 ^ 24)).toNat = 0 := by decide +kernel
  have hz : sampleInstant maxFinite j = Z := by
    apply BitVec.eq_of_toNat_eq
    rw [h6] at h
    exact Nat.le_antisymm h (Nat.zero_le _)
  rw [hz]
  decide +kernel

theorem witness_CapacityErrors : PositiveFinite maxFinite ∧
    (∀ j ≤ Config.maxPoints, fle (sampleInstant maxFinite j) (f64 2) = true) ∧
    (∀ j ≤ Config.maxPoints / 2, fle (sampleInstant maxFinite j) (f64 2) = true) ∧
    PositiveFinite (analog 0x20).freq ∧ PositiveFinite (analog 0x20).ampl ∧ 2 ≤ (analog 0x20).qlevels.toNat ∧
    flt 0 (analog 0x20).deltaRatio = true ∧ fle (analog 0x20).deltaRatio 0x3FF0000000000000 = true ∧
    (∃ t, exec .lineNrzL (oneBit 0) = .next t) ∧ (oneBit 0).status = 0x00000001 ∧ Instr.family .lineNrzL ≠ .a2d := by
  have := Config.maxPoints_le
  exact ⟨⟨by decide +kernel, by decide +kernel⟩, fun j hj => instant_maxFinite (by omega),
    fun j hj => instant_maxFinite (by omega), positiveFinite_one, positiveFinite_one, by decide +kernel, by decide +kernel,
    by decide +kernel, ⟨_, rfl⟩, rfl, by decide⟩

theorem witness_SampleInstants : PositiveFinite H ∧ PositiveFinite maxFinite ∧ (0 : Nat) ≤ 1 :=
  ⟨positiveFinite_half, ⟨by decide +kernel, by decide +kernel⟩, Nat.zero_le _⟩

theorem witness_PcmLevelsInRange : ∃ t : State, (analog 0x20).status = 0x00000001 ∧ exec .a2dPcm (analog 0x20) = .next t ∧
    t.status = 0x00000002 ∧ 1 < t.txCount.toNat := by
  obtain ⟨t, h, hs, ht⟩ := pcm_done 0x20
  exact ⟨t, rfl, h, hs, by rw [ht]; decide⟩

theorem witness_DeltaOutputBounded : ∃ t : State, (analog 0x21).status = 0x00000001 ∧
    exec .a2dDelta (analog 0x21) = .next t ∧ t.status = 0x00000002 ∧ 3 < t.outCount.toNat := by
  obtain ⟨t, h, hs, ht⟩ := delta_done 0x21
  exact ⟨t, rfl, h, hs, by rw [ht]; decide⟩

/-- An even index, an odd one, and the last pair. -/
theorem witness_DeltaOutputAscending : ∃ t : State, (analog 0x21).status = 0x00000001 ∧
    exec .a2dDelta (analog 0x21) = .next t ∧ t.status = 0x00000002 ∧ 0 + 1 < t.outCount.toNat ∧ 1 + 1 < t.outCount.toNat ∧
    2 + 1 = t.outCount.toNat - 1 := by
  obtain ⟨t, h, hs, ht⟩ := delta_done 0x21
  exact ⟨t, rfl, h, hs, by rw [ht]; decide, by rw [ht]; decide, by rw [ht]; decide⟩

theorem witness_AmodCompletes : PositiveFinite (analog 0x30).freq ∧ PositiveFinite (analog 0x30).ampl :=
  ⟨positiveFinite_one, positiveFinite_one⟩

/-- T_QUERY at the first x, at the last x and between; IN_COUNT = 0 and MAX_POINTS + 1; an unwritten Point; a NaN. -/
theorem witness_InterpCompletes : PointsLoaded (interpAt H) twoPoints ∧ isNaN (interpAt H).tQuery = false ∧
    fle (interpAt Z).tQuery (pointAt twoPoints 0).x = true ∧
    (fle (interpAt P).tQuery (pointAt twoPoints 0).x = false ∧
      fle (pointAt twoPoints (twoPoints.length - 1)).x (interpAt P).tQuery = true) ∧
    (busyWith 0x40).inCount.toNat = 0 ∧ (∃ s : State, s.inCount.toNat = Config.maxPoints + 1) ∧
    (∃ s : State, s.inCount.toNat ≤ Config.maxPoints ∧ ∃ k < s.inCount.toNat, readPoint s.mem (inBase + 16 * k) = none) ∧
    PointsLoaded (interpAt 0x7FF8000000000000) twoPoints ∧ isNaN (interpAt 0x7FF8000000000000).tQuery = true := by
  have := Config.maxPoints_le
  refine ⟨interpAt_loaded _, by decide +kernel, by decide +kernel, by decide +kernel, rfl,
    ⟨{ State.reset with inCount := BitVec.ofNat 32 (Config.maxPoints + 1) }, ?_⟩,
    ⟨{ busyWith 0x40 with inCount := 1 }, Nat.le_trans (by decide) Config.analog_le, 0, by decide, rfl⟩,
    interpAt_loaded _, by decide +kernel⟩
  show (BitVec.ofNat 32 (Config.maxPoints + 1)).toNat = _
  rw [BitVec.toNat_ofNat]; omega

theorem witness_InterpBracket : 0 < twoPoints.length ∧ isNaN H = false ∧
    (∀ k < twoPoints.length, isNaN (pointAt twoPoints k).x = false) ∧ fle H (pointAt twoPoints 0).x = false ∧
    fle (pointAt twoPoints (twoPoints.length - 1)).x H = false ∧
    (∀ k, k + 1 < twoPoints.length → fle (pointAt twoPoints k).x (pointAt twoPoints (k + 1)).x = true) := by
  refine ⟨by decide, by decide +kernel, by decide +kernel, by decide +kernel, by decide +kernel, fun k hk => ?_⟩
  obtain rfl : k = 0 := by simp [twoPoints] at hk; omega
  decide +kernel

/-- A success of each family that OUTBUF repeats the input for. -/
theorem witness_OutputEqualsInput :
    (∃ t, (oneBit 0).status = 0x00000001 ∧ exec .lineNrzL (oneBit 0) = .next t ∧ t.status = 0x00000002 ∧ 0 < t.inCount.toNat) ∧
    (∃ t, (oneBit 0).status = 0x00000001 ∧ exec .dmodAsk (oneBit 0) = .next t ∧ t.status = 0x00000002 ∧ 0 < t.inCount.toNat) ∧
    (∃ t, (analog 0).status = 0x00000001 ∧ exec .amodAm (analog 0) = .next t ∧ t.status = 0x00000002 ∧ 0 < t.inCount.toNat) := by
  obtain ⟨t, h, hs, ht⟩ := line_done 0
  obtain ⟨t', h', hs', ht'⟩ := dmod_done 0
  obtain ⟨t'', h'', hs'', ht''⟩ := amod_done 0
  exact ⟨⟨t, rfl, h, hs, ht⟩, ⟨t', rfl, h', hs', ht'⟩, ⟨t'', rfl, h'', hs'', ht''⟩⟩

theorem witness_SuccessCountsPositive : ∃ t : State, Instr.a2dPcm ≠ .interpLinear ∧ (analog 0x20).status = 0x00000001 ∧
    exec .a2dPcm (analog 0x20) = .next t ∧ t.status = 0x00000002 := by
  obtain ⟨t, h, hs, -⟩ := pcm_done 0x20
  exact ⟨t, by decide, rfl, h, hs⟩

/-- An error of a LINE command, of INTERP and of a word that is no command. -/
theorem witness_ErrorIsPrecise : ∀ w ∈ ([0x00000004, 0x00000040, 0x00000008] : List Word),
    (busyWith w).status = 0x00000001 ∧ ∃ t, completeCommand (busyWith w) = .next t ∧ errBit t.status = true := by
  intro w hw
  simp only [List.mem_cons, List.not_mem_nil, or_false] at hw
  rcases hw with rfl | rfl | rfl <;> exact ⟨rfl, _, rfl, by decide⟩

/-- Finite operands below and past the bound of overflow; a NaN; an infinity with a finite operand, zero and not, and with an infinity of its
sign and of the other; a zero divisor of a zero and of 1.0; a sum and a difference that are 0. -/
theorem witness_ArithmeticRoundsToNearest : isFinite P = true ∧ isFinite maxFinite = true ∧ isFinite (fneg maxFinite) = true ∧
    isFinite (fadd P P) = true ∧ isFinite (fmul maxFinite maxFinite) = false ∧
    isNaN 0x7FF8000000000000 = true ∧
    (isInf 0x7FF0000000000000 = true ∧ isInf 0xFFF0000000000000 = true ∧
      fsign 0x7FF0000000000000 ≠ fsign 0xFFF0000000000000) ∧
    (isZero Z = true ∧ isFinite Z = true ∧ isZero 0x8000000000000000 = true ∧ isZero P = false) := by decide +kernel

theorem witness_zero_sum : fvalue P + fvalue M = 0 ∧ fvalue P - fvalue P = 0 := by
  have h : fscaled M = -fscaled P := by decide +kernel
  rw [fvalue, fvalue, h]
  constructor <;> push_cast <;> ring

/-- Finite values; infinities and a NaN; a value below, at the ends of, inside and above the interval from −1.0 to 1.0. -/
theorem witness_ConversionAndComparison : (2 ^ 53 - 1 < 2 ^ 53) ∧ isFinite 0x3FF8000000000000 = true ∧
    isFinite (fneg 0x3FF8000000000000) = true ∧ isFinite maxFinite = true ∧ isInf 0x7FF0000000000000 = true ∧
    isInf 0xFFF0000000000000 = true ∧ isNaN 0x7FF8000000000000 = true ∧ isFinite 0x7FF8000000000000 = false ∧
    feq Z 0x8000000000000000 = true ∧ fle M P = true ∧ flt (fneg 0x3FF8000000000000) M = true ∧
    flt P 0x3FF8000000000000 = true ∧ (flt M Z = true ∧ flt Z P = true) ∧ (fle M M = true ∧ fle P P = true) := by
  decide +kernel

theorem witness_NamedConstants : isFinite 0x400921FB54442D19 = true ∧ isFinite 0x3FE6A09E667F3BCC = true := by decide +kernel

end Sys2Proof.Tests
end

section
/-! Rounding and arithmetic (00_scope.md R17 to R20): the four operations, kind by kind of operand, and what each rounds to; conversions
and comparisons as those of the rational values; the named constants. -/

namespace Sys2Proof.Machine

/-! ### Kinds and patterns -/

theorem isNaN_of_isFinite {x : F64} (h : isFinite x = true) : isNaN x = false := by
  rcases float_kinds x with ⟨_, _, hf, _⟩ | ⟨hn, _⟩ | ⟨hn, _⟩ <;> simp_all

theorem isInf_of_isFinite {x : F64} (h : isFinite x = true) : isInf x = false := by
  rcases float_kinds x with ⟨_, hi, _⟩ | ⟨_, _, hf, _⟩ | ⟨_, hi, _⟩ <;> simp_all

theorem isNaN_of_isInf {x : F64} (h : isInf x = true) : isNaN x = false := by
  rcases float_kinds x with ⟨_, hi, _⟩ | ⟨hn, _⟩ | ⟨hn, _⟩ <;> simp_all

theorem isZero_of_isInf {x : F64} (h : isInf x = true) : isZero x = false := by
  rcases float_kinds x with ⟨_, _, _, hz⟩ | ⟨_, _, _, hz⟩ | ⟨_, hi, _⟩ <;> simp_all

/-- A pattern is its sign and its low bits. -/
theorem eq_fpack_iff (x : F64) (neg : Bool) {b : Nat} (hb : b < 2 ^ 63) : x = fpack neg b ↔ fsign x = neg ∧ lowBits x = b := by
  constructor
  · rintro rfl
    exact ⟨fsign_fpack neg hb, lowBits_fpack neg hb⟩
  · rintro ⟨hs, rfl⟩
    have hx := x.isLt
    apply BitVec.eq_of_toNat_eq
    rw [fpack_toNat neg hb, ← hs, fsign_eq, lowBits]
    simp only [decide_eq_true_eq]
    split <;> omega

theorem fpack_lowBits (x : F64) : fpack (fsign x) (lowBits x) = x :=
  ((eq_fpack_iff x _ (Nat.mod_lt _ (by norm_num))).mpr ⟨rfl, rfl⟩).symm

@[simp] theorem finf_eq_signedInf (neg : Bool) : finf neg = signedInf neg := by cases neg <;> decide

@[simp] theorem fpack_zero_eq_signedZero (neg : Bool) : fpack neg 0 = signedZero neg := by cases neg <;> decide

theorem isInf_iff_eq_signedInf (x : F64) : isInf x = true ↔ x = signedInf (fsign x) := by
  rw [isInf_iff, ← finf_eq_signedInf, finf, eq_fpack_iff x _ (by norm_num)]
  simp

theorem isZero_iff_eq_signedZero (x : F64) : isZero x = true ↔ x = signedZero (fsign x) := by
  rw [isZero_iff, ← fpack_zero_eq_signedZero, eq_fpack_iff x _ (by norm_num)]
  simp

@[simp] theorem fsign_fround (neg : Bool) (n d : Nat) : fsign (fround neg n d) = neg := fsign_fpack neg roundBits_lt

/-! ### Magnitudes and values -/

theorem magBits_injOn {a b : Nat} (ha : a < 0x7FF0000000000000) (hb : b < 0x7FF0000000000000) (h : magBits a = magBits b) : a = b := by
  rw [← roundBits_magBits Nat.one_pos ha, h, roundBits_magBits Nat.one_pos hb]

/-- On finite patterns the magnitude orders the low bits. -/
theorem magBits_lt_iff {a b : Nat} (ha : a < 0x7FF0000000000000) (hb : b < 0x7FF0000000000000) :
    magBits a < magBits b ↔ a < b := by
  refine ⟨fun h => not_le.mp fun hba => absurd (magBits_mono hba) (not_le.mpr h), fun h => ?_⟩
  exact lt_of_le_of_ne (magBits_mono h.le) fun he => h.ne (magBits_injOn ha hb he)

@[simp] theorem magBits_zero : magBits 0 = 0 := by decide

theorem fmag_eq_zero_iff {x : F64} (hx : isFinite x = true) : fmag x = 0 ↔ isZero x = true := by
  rw [fmag_eq, isZero_iff]
  refine ⟨fun h => magBits_injOn ((isFinite_iff x).mp hx) (by norm_num) (by rw [h, magBits_zero]), fun h => ?_⟩
  rw [h, magBits_zero]

/-- A value is its sign times its magnitude. -/
theorem fvalue_eq_sign_mul (x : F64) : fvalue x = (if fsign x then -1 else 1) * ((fmag x : ℚ) / oneUnits) := by
  rw [fvalue_eq, fmag_eq]

@[simp] theorem fvalue_fneg (x : F64) : fvalue (fneg x) = -fvalue x := by
  rw [fvalue, fvalue, fscaled_fneg]
  push_cast
  ring

theorem fvalue_add_eq (x y : F64) : fvalue x + fvalue y = ((fscaled x + fscaled y : ℤ) : ℚ) / oneUnits := by
  rw [fvalue, fvalue]
  push_cast
  ring

theorem fvalue_lt_iff (x y : F64) : fvalue x < fvalue y ↔ fscaled x < fscaled y := by
  rw [fvalue, fvalue, div_lt_div_iff_of_pos_right oneUnits_rat_pos, Int.cast_lt]

theorem sign_mul_sign (a b : Bool) : ((if a then -1 else 1) * (if b then -1 else 1) : ℚ) = if (a != b) then -1 else 1 := by
  cases a <;> cases b <;> norm_num

theorem sign_div_sign (a b : Bool) : ((if a then -1 else 1) / (if b then -1 else 1) : ℚ) = if (a != b) then -1 else 1 := by
  cases a <;> cases b <;> norm_num

theorem intCast_eq_sign_mul_natAbs (z : ℤ) : (z : ℚ) = (if decide (z < 0) then -1 else 1) * (z.natAbs : ℚ) := by
  rw [Nat.cast_natAbs, Int.cast_abs]
  rcases lt_or_ge z 0 with h | h
  · rw [abs_of_neg (by exact_mod_cast h)]; simp [h]
  · rw [abs_of_nonneg (by exact_mod_cast h)]; simp [not_lt.mpr h]

/-! ### Rounding -/

/-- `r` is what R17 makes of the exact value `q`: the nearest finite value, ties to even, or an infinity of its sign from
2^1024 − 2^970 up. -/
def RoundsTo (r : F64) (q : ℚ) : Prop :=
  (|q| < 2 ^ 1024 - 2 ^ 970 → isFinite r = true ∧ NearestEven r q) ∧
  (2 ^ 1024 - 2 ^ 970 ≤ |q| → r = signedInf (decide (q < 0)))

theorem overflow_bound_pos : (0 : ℚ) < 2 ^ 1024 - 2 ^ 970 :=
  sub_pos.mpr (pow_lt_pow_right₀ one_lt_two (by norm_num))

/-- A finite value rounds to itself, and to either zero if it is 0. -/
theorem nearestEven_of_fvalue_eq {r : F64} {q : ℚ} (h : fvalue r = q) : NearestEven r q := by
  intro y _
  rw [h, sub_self, abs_zero]
  refine ⟨abs_nonneg _, fun hne heq => absurd ?_ hne⟩
  exact sub_eq_zero.mp (abs_eq_zero.mp heq.symm)

theorem fround_roundsTo (neg : Bool) (n : Nat) {d : Nat} (hd : 0 < d) {q : ℚ}
    (hq : q = (if neg then -1 else 1) * ((n : ℚ) / d / oneUnits)) : RoundsTo (fround neg n d) q := by
  obtain ⟨nearest, overflow⟩ := fround_spec neg n hd hq
  refine ⟨nearest, fun hge => ?_⟩
  have hmag : 0 ≤ (n : ℚ) / d / oneUnits := by positivity
  have hq0 : q ≠ 0 := abs_pos.mp (overflow_bound_pos.trans_le hge)
  have hneg : decide (q < 0) = neg := by
    cases neg
    · simpa [hq] using hmag
    · have : q ≤ 0 := by simpa [hq] using hmag
      simpa using lt_of_le_of_ne this hq0
  rw [overflow hge, hneg, finf_eq_signedInf]

theorem signedZero_roundsTo (neg : Bool) : RoundsTo (signedZero neg) 0 := by
  refine ⟨fun _ => ⟨by cases neg <;> decide, nearestEven_of_fvalue_eq ?_⟩, fun h => ?_⟩
  · rw [fvalue_eq_sign_mul, (fmag_eq_zero_iff (by cases neg <;> decide)).mpr (by cases neg <;> decide)]
    simp
  · rw [abs_zero] at h
    exact absurd overflow_bound_pos (not_lt.mpr h)

/-! ### Sums, kind by kind of operand -/

theorem sumOr_of_isNaN {nan x y : F64} (h : isNaN x = true ∨ isNaN y = true) : sumOr nan x y = nan := by
  rcases h with h | h <;> simp [sumOr, h]

theorem sumOr_of_isInf_left {nan x y : F64} (hx : isInf x = true) (hy : isFinite y = true) : sumOr nan x y = x := by
  simp [sumOr, hx, isNaN_of_isInf hx, isNaN_of_isFinite hy, isInf_of_isFinite hy]

theorem sumOr_of_isInf_right {nan x y : F64} (hx : isFinite x = true) (hy : isInf y = true) : sumOr nan x y = y := by
  simp [sumOr, hy, isNaN_of_isInf hy, isNaN_of_isFinite hx, isInf_of_isFinite hx]

theorem sumOr_of_isInf {nan x y : F64} (hx : isInf x = true) (hy : isInf y = true) :
    sumOr nan x y = if fsign x = fsign y then x else nan := by
  by_cases h : fsign x = fsign y <;> simp [sumOr, hx, hy, isNaN_of_isInf hx, isNaN_of_isInf hy, h]

theorem sumOr_of_isFinite {nan x y : F64} (hx : isFinite x = true) (hy : isFinite y = true) :
    sumOr nan x y = if fscaled x + fscaled y = 0 then signedZero (fsign x && fsign y)
      else fround (decide (fscaled x + fscaled y < 0)) (fscaled x + fscaled y).natAbs 1 := by
  simp only [sumOr, isNaN_of_isFinite hx, isNaN_of_isFinite hy, isInf_of_isFinite hx, isInf_of_isFinite hy,
    Bool.or_self, Bool.false_eq_true, if_false]
  rfl

theorem sumOr_roundsTo {nan x y : F64} (hx : isFinite x = true) (hy : isFinite y = true) :
    RoundsTo (sumOr nan x y) (fvalue x + fvalue y) := by
  rw [sumOr_of_isFinite hx hy, fvalue_add_eq]
  generalize fscaled x + fscaled y = z
  split
  case isTrue h0 =>
    rw [h0, Int.cast_zero, zero_div]
    exact signedZero_roundsTo _
  case isFalse =>
    refine fround_roundsTo _ _ Nat.one_pos ?_
    rw [intCast_eq_sign_mul_natAbs z, Nat.cast_one, div_one, mul_div_assoc]

/-- An exact sum of 0 has the sign the operands share, and is +0.0 if they share none. -/
theorem sumOr_of_sum_zero {nan x y : F64} (hx : isFinite x = true) (hy : isFinite y = true) (h : fvalue x + fvalue y = 0) :
    sumOr nan x y = signedZero (fsign x && fsign y) := by
  rw [fvalue_add_eq, div_eq_zero_iff, or_iff_left oneUnits_rat_pos.ne', Int.cast_eq_zero] at h
  rw [sumOr_of_isFinite hx hy, if_pos h]

/-! ### Products, kind by kind of operand -/

theorem isNaN_fmul_of_isNaN {x y : F64} (h : isNaN x = true ∨ isNaN y = true) : isNaN (fmul x y) = true := by
  rcases h with h | h <;> simp [fmul, h, nanResult_isNaN]

theorem isNaN_fmul_of_isInf_of_isZero {x y : F64} (hx : isInf x = true) (hy : isZero y = true) :
    isNaN (fmul x y) = true ∧ isNaN (fmul y x) = true := by
  simp [fmul, hx, hy, nanResult_isNaN]

theorem fmul_of_isInf {x y : F64} (hx : isInf x = true) (hn : isNaN y = false) (hz : isZero y = false) :
    fmul x y = signedInf (fsign x != fsign y) ∧ fmul y x = signedInf (fsign x != fsign y) := by
  simp [fmul, hx, isNaN_of_isInf hx, isZero_of_isInf hx, hn, hz, Bool.xor_comm (fsign y)]

theorem fmul_of_isFinite {x y : F64} (hx : isFinite x = true) (hy : isFinite y = true) :
    fmul x y = fround (fsign x != fsign y) (fmag x * fmag y) oneUnits := by
  simp [fmul, isNaN_of_isFinite hx, isNaN_of_isFinite hy, isInf_of_isFinite hx, isInf_of_isFinite hy]

theorem fmul_roundsTo {x y : F64} (hx : isFinite x = true) (hy : isFinite y = true) :
    RoundsTo (fmul x y) (fvalue x * fvalue y) := by
  rw [fmul_of_isFinite hx hy]
  refine fround_roundsTo _ _ oneUnits_pos ?_
  rw [fvalue_eq_sign_mul x, fvalue_eq_sign_mul y, mul_mul_mul_comm, sign_mul_sign, Nat.cast_mul, div_mul_div_comm, div_div]

/-! ### Quotients, kind by kind of operand -/

theorem isNaN_fdiv_of_isNaN {x y : F64} (h : isNaN x = true ∨ isNaN y = true) : isNaN (fdiv x y) = true := by
  rcases h with h | h <;> simp [fdiv, h, nanResult_isNaN]

theorem isNaN_fdiv_of_isInf {x y : F64} (hx : isInf x = true) (hy : isInf y = true) : isNaN (fdiv x y) = true := by
  simp [fdiv, hx, hy, nanResult_isNaN]

theorem isNaN_fdiv_of_isZero {x y : F64} (hx : isZero x = true) (hy : isZero y = true) : isNaN (fdiv x y) = true := by
  simp [fdiv, hx, hy, nanResult_isNaN]

theorem fdiv_of_isInf_left {x y : F64} (hx : isInf x = true) (hy : isFinite y = true) :
    fdiv x y = signedInf (fsign x != fsign y) := by
  simp [fdiv, hx, isNaN_of_isInf hx, isZero_of_isInf hx, isNaN_of_isFinite hy, isInf_of_isFinite hy]

theorem fdiv_of_isInf_right {x y : F64} (hx : isFinite x = true) (hy : isInf y = true) :
    fdiv x y = signedZero (fsign x != fsign y) := by
  simp [fdiv, hy, isNaN_of_isInf hy, isZero_of_isInf hy, isNaN_of_isFinite hx, isInf_of_isFinite hx]

theorem isFinite_of_isZero {x : F64} (h : isZero x = true) : isFinite x = true := by
  rw [isZero_iff] at h
  rw [isFinite_iff, h]
  norm_num

theorem fdiv_of_isZero_right {x y : F64} (hx : isFinite x = true) (hz : isZero x = false) (hy : isZero y = true) :
    fdiv x y = signedInf (fsign x != fsign y) := by
  have hyf := isFinite_of_isZero hy
  simp [fdiv, hy, hz, isNaN_of_isFinite hx, isInf_of_isFinite hx, isNaN_of_isFinite hyf]

theorem fdiv_of_isFinite {x y : F64} (hx : isFinite x = true) (hy : isFinite y = true) (hz : isZero y = false) :
    fdiv x y = fround (fsign x != fsign y) (fmag x * oneUnits) (fmag y) := by
  simp [fdiv, hz, isNaN_of_isFinite hx, isNaN_of_isFinite hy, isInf_of_isFinite hx, isInf_of_isFinite hy]

theorem fdiv_roundsTo {x y : F64} (hx : isFinite x = true) (hy : isFinite y = true) (hz : isZero y = false) :
    RoundsTo (fdiv x y) (fvalue x / fvalue y) := by
  have hmag : 0 < fmag y := Nat.pos_of_ne_zero fun h => by simp [(fmag_eq_zero_iff hy).mp h] at hz
  have hU := oneUnits_rat_pos.ne'
  rw [fdiv_of_isFinite hx hy hz]
  refine fround_roundsTo _ _ hmag ?_
  rw [fvalue_eq_sign_mul x, fvalue_eq_sign_mul y, mul_div_mul_comm, sign_div_sign, Nat.cast_mul]
  field_simp

/-! ### The four operations round to nearest -/

/-- Every operation on finite operands rounds its exact result. -/
theorem operations_roundsTo {x y : F64} (hx : isFinite x = true) (hy : isFinite y = true) :
    ∀ rq ∈ ([(fadd x y, fvalue x + fvalue y), (fsub x y, fvalue x - fvalue y), (fmul x y, fvalue x * fvalue y)] :
      List (F64 × ℚ)) ++ (if isZero y then [] else [(fdiv x y, fvalue x / fvalue y)]), RoundsTo rq.1 rq.2 := by
  intro rq hrq
  rw [List.mem_append] at hrq
  rcases hrq with h | h
  · simp only [List.mem_cons, List.not_mem_nil, or_false] at h
    rcases h with rfl | rfl | rfl
    · exact sumOr_roundsTo hx hy
    · rw [sub_eq_add_neg, ← fvalue_fneg]
      exact sumOr_roundsTo hx (by rw [isFinite_fneg, hy])
    · exact fmul_roundsTo hx hy
  · cases hz : isZero y
    · obtain rfl : rq = (fdiv x y, fvalue x / fvalue y) := by simpa [hz] using h
      exact fdiv_roundsTo hx hy hz
    · simp [hz] at h

theorem operations_isNaN {x y : F64} (h : isNaN x = true ∨ isNaN y = true) :
    isNaN (fadd x y) = true ∧ isNaN (fsub x y) = true ∧ isNaN (fmul x y) = true ∧ isNaN (fdiv x y) = true := by
  refine ⟨?_, ?_, isNaN_fmul_of_isNaN h, isNaN_fdiv_of_isNaN h⟩
  · rw [fadd, sumOr_of_isNaN h]
    exact nanResult_isNaN _ _ _
  · rw [fsub, sumOr_of_isNaN (by rwa [isNaN_fneg])]
    exact nanResult_isNaN _ _ _

/-- Sums and differences of two infinities go by their signs. -/
theorem sums_of_isInf {x y : F64} (hx : isInf x = true) (hy : isInf y = true) :
    (fsign x = fsign y → fadd x y = x ∧ isNaN (fsub x y) = true) ∧
    (fsign x ≠ fsign y → isNaN (fadd x y) = true ∧ fsub x y = x) := by
  have hy' : isInf (fneg y) = true := by rwa [isInf_fneg]
  rw [fadd, fsub, sumOr_of_isInf hx hy, sumOr_of_isInf hx hy', fsign_fneg]
  constructor
  · intro h
    simp [h, nanResult_isNaN]
  · intro h
    have hs : fsign x = !fsign y := Bool.eq_not.mpr h
    simp [hs, nanResult_isNaN]

/-- Settles O58: each operation is `fround` of the exact result on finite operands, and its own case otherwise. -/
theorem arithmeticRoundsToNearest : Obligations.ArithmeticRoundsToNearest := by
  unfold Obligations.ArithmeticRoundsToNearest
  refine ⟨fun x y hx hy => operations_roundsTo hx hy, fun x y h => operations_isNaN h, fun x y hx hy => ?_,
    fun x y hx hy => ?_, fun x y hx hy => ?_, fun x y hx hy => ?_, fun x => ?_, fun v => ?_⟩
  case refine_1 =>
    have hy' : isFinite (fneg y) = true := by rwa [isFinite_fneg]
    have hx' : isInf (fneg x) = true := by rwa [isInf_fneg]
    exact ⟨sumOr_of_isInf_left hx hy, sumOr_of_isInf_right hy hx, sumOr_of_isInf_left hx hy', sumOr_of_isInf_right hy hx',
      fun hz => isNaN_fmul_of_isInf_of_isZero hx hz, fun hz => fmul_of_isInf hx (isNaN_of_isFinite hy) hz,
      fdiv_of_isInf_left hx hy, by rw [bne_comm]; exact fdiv_of_isInf_right hy hx⟩
  case refine_2 =>
    obtain ⟨same, opposite⟩ := sums_of_isInf hx hy
    exact ⟨same, opposite, (fmul_of_isInf hx (isNaN_of_isInf hy) (isZero_of_isInf hy)).1, isNaN_fdiv_of_isInf hx hy⟩
  case refine_3 => exact ⟨fun hz => isNaN_fdiv_of_isZero hz hy, fun hz => fdiv_of_isZero_right hx hz hy⟩
  case refine_4 =>
    refine ⟨sumOr_of_sum_zero hx hy, fun h => ?_, by rw [fmul_of_isFinite hx hy, fsign_fround],
      fun hz => by rw [fdiv_of_isFinite hx hy hz, fsign_fround]⟩
    rw [sub_eq_add_neg, ← fvalue_fneg] at h
    rw [fsub, sumOr_of_sum_zero hx (by rwa [isFinite_fneg]) h, fsign_fneg]
  case refine_5 =>
    exact ⟨fsign_fneg x, isNaN_fneg x, isInf_fneg x, fun h => ⟨by rwa [isFinite_fneg], fvalue_fneg x⟩⟩
  case refine_6 =>
    exact ⟨isInf_iff_eq_signedInf v, isZero_iff_eq_signedZero v, isNaN_iff v, by rw [fsign_eq, decide_eq_true_eq]⟩



/-! ### Conversions -/

theorem fround_magBits (neg : Bool) {b : Nat} (hb : b < 0x7FF0000000000000) : fround neg (magBits b) 1 = fpack neg b := by
  have h := roundBits_magBits Nat.one_pos hb
  rw [Nat.mul_one] at h
  rw [fround, h]

/-- An integer whose magnitude is that of a finite pattern is converted exactly. -/
theorem f64Int_exact {z : ℤ} {b : Nat} (hb : b < 0x7FF0000000000000) (h : magBits b = z.natAbs * oneUnits) :
    isFinite (f64Int z) = true ∧ fvalue (f64Int z) = z := by
  have hlt : b < 2 ^ 63 := by omega
  rw [f64Int, ← h, fround_magBits _ hb, isFinite_iff, fvalue_eq, lowBits_fpack _ hlt, fsign_fpack _ hlt, h, Nat.cast_mul,
    mul_div_cancel_right₀ _ oneUnits_rat_pos.ne', ← intCast_eq_sign_mul_natAbs]
  exact ⟨hb, rfl⟩

theorem f64Int_exact_of_natAbs_le {z : ℤ} (hz : z.natAbs ≤ 2 ^ 53) : isFinite (f64Int z) = true ∧ fvalue (f64Int z) = z := by
  obtain ⟨hb, hm⟩ := roundBits_f64 hz
  exact f64Int_exact hb hm

theorem f64Int_natCast (n : Nat) : f64Int n = f64 n := by
  rw [f64Int, f64, Int.natAbs_natCast, decide_eq_false (by omega)]

theorem fscaled_natAbs (x : F64) : (fscaled x).natAbs = magBits (lowBits x) := by
  rw [fscaled, fmag_eq]
  split <;> simp

/-- A finite value is a whole number, or below 2^52 in magnitude. -/
theorem fscaled_dvd_or_natAbs_lt (x : F64) : (∃ c : ℤ, fscaled x = c * oneUnits) ∨ (fscaled x).natAbs < 2 ^ 52 * oneUnits := by
  rw [fscaled_natAbs, oneUnits_eq]
  refine (magBits_dvd_or_lt (lowBits x) 1074).imp_left fun ⟨c, hc⟩ => ?_
  rw [← oneUnits_eq] at hc ⊢
  rw [fscaled, fmag_eq, hc]
  cases fsign x
  · exact ⟨c, by simp⟩
  · exact ⟨-c, by simp⟩

theorem natAbs_ediv_le {z : ℤ} {u k : Nat} (hu : 0 < u) (h : z.natAbs < k * u) : (z / (u : ℤ)).natAbs ≤ k := by
  have hu' : (0 : ℤ) < u := by exact_mod_cast hu
  have hz : |z| < (k : ℤ) * u := by rw [Int.abs_eq_natAbs]; exact_mod_cast h
  obtain ⟨hlow, hhigh⟩ := abs_lt.mp hz
  have hfloor : -(k : ℤ) ≤ z / u := by rw [Int.le_ediv_iff_mul_le hu', neg_mul]; exact hlow.le
  have hceil : z / u < (k : ℤ) := by rwa [Int.ediv_lt_iff_lt_mul hu']
  omega

theorem floor_fvalue (v : F64) : ⌊fvalue v⌋ = fscaled v / (oneUnits : ℤ) := Rat.floor_intCast_div_natCast _ _

/-- floor is exact (R18): a value with a fraction is small enough that its floor is a binary64. -/
theorem ffloor_exact {v : F64} (hv : isFinite v = true) :
    isFinite (ffloor v) = true ∧ fvalue (ffloor v) = (⌊fvalue v⌋ : ℤ) := by
  have hU : (0 : ℤ) < oneUnits := by exact_mod_cast oneUnits_pos
  rw [ffloor, if_pos hv, floor_fvalue]
  rcases fscaled_dvd_or_natAbs_lt v with ⟨c, hc⟩ | hlt
  · refine f64Int_exact ((isFinite_iff v).mp hv) ?_
    rw [hc, Int.mul_ediv_cancel _ hU.ne', ← fscaled_natAbs, hc, Int.natAbs_mul, Int.natAbs_natCast]
  · refine f64Int_exact_of_natAbs_le ?_
    have hle := natAbs_ediv_le oneUnits_pos hlt
    omega

/-! ### Comparisons -/

theorem flt_iff (x y : F64) : flt x y = true ↔ isNaN x = false ∧ isNaN y = false ∧ fkey x < fkey y := by
  simp [flt, and_assoc]

theorem fle_iff (x y : F64) : fle x y = true ↔ isNaN x = false ∧ isNaN y = false ∧ fkey x ≤ fkey y := by
  simp [fle, and_assoc]

theorem feq_iff (x y : F64) : feq x y = true ↔ isNaN x = false ∧ isNaN y = false ∧ fkey x = fkey y := by
  simp [feq, and_assoc]

theorem flt_eq_false_iff (x y : F64) : flt x y = false ↔ (isNaN x = false → isNaN y = false → fkey y ≤ fkey x) := by
  simp [flt]

theorem fkey_eq (x : F64) : fkey x = if fsign x then -(lowBits x : ℤ) else (lowBits x : ℤ) := rfl

theorem fscaled_eq (x : F64) : fscaled x = if fsign x then -(magBits (lowBits x) : ℤ) else (magBits (lowBits x) : ℤ) := by
  rw [fscaled, fmag_eq]

theorem magBits_pos_iff {b : Nat} (hb : b < 0x7FF0000000000000) : 0 < magBits b ↔ 0 < b := by
  simpa using magBits_lt_iff (a := 0) (by norm_num) hb

/-- On finite values the order of the keys is the order of the values. -/
theorem fkey_lt_iff {x y : F64} (hx : isFinite x = true) (hy : isFinite y = true) : fkey x < fkey y ↔ fvalue x < fvalue y := by
  rw [isFinite_iff] at hx hy
  have hxy := magBits_lt_iff hx hy
  have hyx := magBits_lt_iff hy hx
  have hx0 := magBits_pos_iff hx
  have hy0 := magBits_pos_iff hy
  rw [fvalue_lt_iff, fkey_eq, fkey_eq, fscaled_eq, fscaled_eq]
  cases fsign x <;> cases fsign y <;> simp only [if_true, if_false, Bool.false_eq_true] <;> omega

theorem comparisons_of_isFinite {x y : F64} (hx : isFinite x = true) (hy : isFinite y = true) :
    (flt x y = true ↔ fvalue x < fvalue y) ∧ (fle x y = true ↔ fvalue x ≤ fvalue y) ∧ (feq x y = true ↔ fvalue x = fvalue y) := by
  have hlt := fkey_lt_iff hx hy
  have hle : fkey x ≤ fkey y ↔ fvalue x ≤ fvalue y := by rw [← not_lt, fkey_lt_iff hy hx, not_lt]
  have hge : fkey y ≤ fkey x ↔ fvalue y ≤ fvalue x := by rw [← not_lt, hlt, not_lt]
  have heq : fkey x = fkey y ↔ fvalue x = fvalue y := by rw [le_antisymm_iff, le_antisymm_iff, hle, hge]
  simp only [flt_iff, fle_iff, feq_iff, isNaN_of_isFinite hx, isNaN_of_isFinite hy, true_and, hlt, hle, heq, and_self]

theorem fkey_bounds {x : F64} (hx : isFinite x = true) : -0x7FF0000000000000 < fkey x ∧ fkey x < 0x7FF0000000000000 := by
  rw [isFinite_iff] at hx
  rw [fkey_eq]
  split <;> omega

/-- A finite value lies between the infinities. -/
theorem flt_infinities {x : F64} (hx : isFinite x = true) : flt x 0x7FF0000000000000 = true ∧ flt 0xFFF0000000000000 x = true ∧
    flt 0x7FF0000000000000 x = false ∧ flt x 0xFFF0000000000000 = false := by
  obtain ⟨hlow, hhigh⟩ := fkey_bounds hx
  have hplus : isNaN 0x7FF0000000000000 = false ∧ fkey 0x7FF0000000000000 = 0x7FF0000000000000 := by decide
  have hminus : isNaN 0xFFF0000000000000 = false ∧ fkey 0xFFF0000000000000 = -0x7FF0000000000000 := by decide
  simp only [flt_iff, flt_eq_false_iff, hplus, hminus, isNaN_of_isFinite hx, true_and, forall_const]
  omega

theorem fle_eq_flt_or_feq (x y : F64) : fle x y = (flt x y || feq x y) := by
  rw [Bool.eq_iff_iff, Bool.or_eq_true, fle_iff, flt_iff, feq_iff, le_iff_lt_or_eq]
  tauto

theorem comparisons_of_isNaN {x y : F64} (h : isNaN x = true ∨ isNaN y = true) :
    flt x y = false ∧ fle x y = false ∧ feq x y = false := by
  rcases h with h | h <;> simp [flt, fle, feq, h]

theorem isFinite_iff_not_isInf_or_isNaN (v : F64) : isFinite v = true ↔ ¬(isInf v = true ∨ isNaN v = true) := by
  rw [isFinite_iff, isInf_iff, isNaN_iff]
  omega

/-! ### min, max and clamp (R14) -/

theorem flt_asymm {x y : F64} (h : flt x y = true) : flt y x = false := by
  obtain ⟨-, -, hk⟩ := (flt_iff x y).mp h
  exact (flt_eq_false_iff y x).mpr fun _ _ => hk.le

theorem flt_eq_false_of_fle {x y : F64} (h : fle x y = true) : flt y x = false := by
  obtain ⟨-, -, hk⟩ := (fle_iff x y).mp h
  exact (flt_eq_false_iff y x).mpr fun _ _ => hk

theorem fle_of_flt {x y : F64} (h : flt x y = true) : fle x y = true := by
  rw [fle_eq_flt_or_feq, h, Bool.true_or]

theorem flt_of_fle_of_flt {x y z : F64} (hxy : fle x y = true) (hyz : flt y z = true) : flt x z = true := by
  obtain ⟨hx, -, hk⟩ := (fle_iff x y).mp hxy
  obtain ⟨-, hz, hk'⟩ := (flt_iff y z).mp hyz
  exact (flt_iff x z).mpr ⟨hx, hz, by omega⟩

theorem feq_self {x : F64} (h : isNaN x = false) : feq x x = true := (feq_iff x x).mpr ⟨h, h, rfl⟩

theorem fmax_fmin_of_flt {x y : F64} (h : flt x y = true) : fmax x y = y ∧ fmax y x = y ∧ fmin x y = x ∧ fmin y x = x := by
  simp [fmax, fmin, h, flt_asymm h]

theorem fmax_fmin_of_feq {x y : F64} (h : feq x y = true) : fmax x y = x ∧ fmin x y = x := by
  obtain ⟨hx, hy, hk⟩ := (feq_iff x y).mp h
  simp [fmax, fmin, flt, hk]

theorem fclamp_of_not_isNaN {v : F64} (lo hi : F64) (h : isNaN v = false) : fclamp v lo hi = fmin (fmax v lo) hi := by
  simp [fclamp, h]

theorem fclamp_of_flt {v lo hi : F64} (hb : fle lo hi = true) (h : flt v lo = true) : fclamp v lo hi = lo := by
  obtain ⟨hv, -, -⟩ := (flt_iff v lo).mp h
  rw [fclamp_of_not_isNaN lo hi hv, (fmax_fmin_of_flt h).1, fmin, flt_eq_false_of_fle hb]
  simp

theorem fclamp_of_between {v lo hi : F64} (h : fle lo v = true) (h' : fle v hi = true) : fclamp v lo hi = v := by
  obtain ⟨-, hv, -⟩ := (fle_iff lo v).mp h
  rw [fclamp_of_not_isNaN lo hi hv, fmax, flt_eq_false_of_fle h]
  simp [fmin, flt_eq_false_of_fle h']

theorem fclamp_of_flt_hi {v lo hi : F64} (hb : fle lo hi = true) (h : flt hi v = true) : fclamp v lo hi = hi := by
  obtain ⟨-, hv, -⟩ := (flt_iff hi v).mp h
  have hmax : fmax v lo = v := (fmax_fmin_of_flt (flt_of_fle_of_flt hb h)).2.1
  rw [fclamp_of_not_isNaN lo hi hv, hmax]
  exact (fmax_fmin_of_flt h).2.2.2

theorem fclamp_cases {v lo hi : F64} (hb : fle lo hi = true) :
    (flt v lo = true → fclamp v lo hi = lo) ∧ (flt hi v = true → fclamp v lo hi = hi) ∧
    (flt lo v = true → flt v hi = true → fclamp v lo hi = v) ∧
    (fle lo v = true → fle v hi = true → feq (fclamp v lo hi) v = true) := by
  refine ⟨fclamp_of_flt hb, fclamp_of_flt_hi hb, fun h h' => fclamp_of_between (fle_of_flt h) (fle_of_flt h'), fun h h' => ?_⟩
  obtain ⟨-, hv, -⟩ := (fle_iff lo v).mp h
  rw [fclamp_of_between h h']
  exact feq_self hv

/-- Settles O59, a lemma per clause: exactness from `f64Int_exact`, comparisons from the order of the keys. -/
theorem conversionAndComparison : Obligations.ConversionAndComparison := by
  unfold Obligations.ConversionAndComparison
  refine ⟨fun n hn => ?_, fun v => ffloor_exact, fun v => by rw [rhu, half_eq], fun x y => comparisons_of_isFinite,
    fun x => flt_infinities, by decide, by decide, fun x hx => ?_, fle_eq_flt_or_feq, fun x y => comparisons_of_isNaN,
    isFinite_iff_not_isInf_or_isNaN, fun x y => fmax_fmin_of_flt, fun x y h => ?_, fun v lo hi => fclamp_cases⟩
  case refine_1 =>
    rw [← f64Int_natCast]
    exact f64Int_exact_of_natAbs_le (z := n) (by omega)
  case refine_2 =>
    have hn := isNaN_of_isInf hx
    simp [flt, fle, feq, hn]
  case refine_3 =>
    obtain ⟨hx, -, -⟩ := (feq_iff x y).mp h
    obtain ⟨hmax, hmin⟩ := fmax_fmin_of_feq h
    rw [hmax, hmin]
    exact ⟨feq_self hx, feq_self hx⟩

/-! ### The named constants (R20) -/

/-- The literal of a decimal is the binary64 nearest it. -/
theorem fdec_nearestEven {n d : Nat} (hd : 0 < d) (hf : isFinite (fdec n d) = true) : NearestEven (fdec n d) ((n : ℚ) / d) := by
  obtain ⟨nearest, overflow⟩ := fround_spec false (n * oneUnits) hd (q := (n : ℚ) / d)
    (by rw [Nat.cast_mul, div_right_comm, mul_div_cancel_right₀ _ oneUnits_rat_pos.ne', if_neg Bool.false_ne_true, one_mul])
  refine (nearest (not_le.mp fun hge => ?_)).2
  have hinf : isFinite (finf false) = true := overflow hge ▸ hf
  exact absurd hinf (by decide)

theorem fdec_isFinite_and_nearestEven {n d : Nat} {r : F64} {q : ℚ} (hd : 0 < d) (hr : fdec n d = r) (hf : isFinite r = true)
    (hq : (n : ℚ) / d = q) : isFinite r = true ∧ NearestEven r q := by
  subst hr hq
  exact ⟨hf, fdec_nearestEven hd hf⟩

/-- Of two reals the one nearer to both ends of an interval is nearer to each real in it: `nearer` is linear in the
real. -/
theorem abs_sub_le_of_mem_Icc {a b q r y : ℝ} (haq : a ≤ q) (hqb : q ≤ b) (ha : |r - a| ≤ |y - a|) (hb : |r - b| ≤ |y - b|) :
    |r - q| ≤ |y - q| := by
  have linear : ∀ c : ℝ, |r - c| ≤ |y - c| ↔ (r - y) * (r + y - 2 * c) ≤ 0 := fun c => by
    rw [← sq_le_sq, ← sub_nonpos, show (r - c) ^ 2 - (y - c) ^ 2 = (r - y) * (r + y - 2 * c) by ring]
  rw [linear] at ha hb ⊢
  rcases le_total r y with h | h
  · exact le_trans (mul_le_mul_of_nonpos_left (by linarith) (by linarith)) hb
  · exact le_trans (mul_le_mul_of_nonneg_left (by linarith) (by linarith)) ha

/-- A value that rounds both ends of an interval is the nearest to each real in it. -/
theorem nearest_of_mem_Icc {r : F64} {a b : ℚ} {q : ℝ} (ha : NearestEven r a) (hb : NearestEven r b) (haq : (a : ℝ) ≤ q)
    (hqb : q ≤ (b : ℝ)) (y : F64) (hy : isFinite y = true) : |((fvalue r : ℚ) : ℝ) - q| ≤ |((fvalue y : ℚ) : ℝ) - q| := by
  refine abs_sub_le_of_mem_Icc haq hqb ?_ ?_
  · exact_mod_cast (ha y hy).1
  · exact_mod_cast (hb y hy).1

theorem fdec_pi_lower : fdec 314159265358979323846 (10 ^ 20) = fpi := by decide +kernel
theorem fdec_pi_upper : fdec 314159265358979323847 (10 ^ 20) = fpi := by decide +kernel
theorem fdec_sqrt_half_lower : fdec 70710678118654752440 (10 ^ 20) = sqrt12 := by decide +kernel
theorem fdec_sqrt_half_upper : fdec 70710678118654752441 (10 ^ 20) = sqrt12 := by decide +kernel

/-- PI is the binary64 nearest π: both 20-digit bounds of π round to it. -/
theorem fpi_nearest (y : F64) (hy : isFinite y = true) : |((fvalue fpi : ℚ) : ℝ) - Real.pi| ≤ |((fvalue y : ℚ) : ℝ) - Real.pi| := by
  have hf : isFinite fpi = true := by decide
  obtain ⟨-, hlow⟩ := fdec_isFinite_and_nearestEven (by norm_num) fdec_pi_lower hf rfl
  obtain ⟨-, hupp⟩ := fdec_isFinite_and_nearestEven (by norm_num) fdec_pi_upper hf rfl
  refine nearest_of_mem_Icc hlow hupp ?_ ?_ y hy
  · have := Real.pi_gt_d20
    norm_num at this ⊢
    linarith
  · have := Real.pi_lt_d20
    norm_num at this ⊢
    linarith

theorem sqrt_half_bounds : (70710678118654752440 / 100000000000000000000 : ℝ) ≤ 1 / √2 ∧
    1 / √2 ≤ (70710678118654752441 / 100000000000000000000 : ℝ) := by
  rw [one_div, ← Real.sqrt_inv]
  exact ⟨Real.le_sqrt_of_sq_le (by norm_num), Real.sqrt_le_iff.mpr ⟨by norm_num, by norm_num⟩⟩

/-- SQRT1_2 is the binary64 nearest 1/√2: both 20-digit bounds round to it. -/
theorem sqrt12_nearest (y : F64) (hy : isFinite y = true) : |((fvalue sqrt12 : ℚ) : ℝ) - 1 / √2| ≤ |((fvalue y : ℚ) : ℝ) - 1 / √2| := by
  have hf : isFinite sqrt12 = true := by decide
  obtain ⟨-, hlow⟩ := fdec_isFinite_and_nearestEven (by norm_num) fdec_sqrt_half_lower hf rfl
  obtain ⟨-, hupp⟩ := fdec_isFinite_and_nearestEven (by norm_num) fdec_sqrt_half_upper hf rfl
  obtain ⟨ha, hb⟩ := sqrt_half_bounds
  exact nearest_of_mem_Icc hlow hupp (by push_cast; exact ha) (by push_cast; exact hb) y hy

/-- Values whose exact integers of units are in a ratio are in that ratio. -/
theorem mul_fvalue_eq {x y : F64} {a b : ℤ} (h : a * fscaled x = b * fscaled y) : (a : ℚ) * fvalue x = b * fvalue y := by
  have h' : (a : ℚ) * fscaled x = b * fscaled y := by exact_mod_cast h
  rw [fvalue, fvalue, ← mul_div_assoc, ← mul_div_assoc, h']

theorem twoPi_exact : isFinite twoPi = true ∧ fvalue twoPi = 2 * fvalue fpi := by
  have h := mul_fvalue_eq (x := twoPi) (y := fpi) (a := 1) (b := 2) (by decide +kernel)
  exact ⟨by decide +kernel, by simpa using h⟩

theorem halfPi_exact : isFinite halfPi = true ∧ fvalue halfPi = fvalue fpi / 2 := by
  have h := mul_fvalue_eq (x := halfPi) (y := fpi) (a := 2) (b := 1) (by decide +kernel)
  exact ⟨by decide +kernel, by push_cast at h; linarith⟩

theorem quarterPi_exact : isFinite quarterPi = true ∧ fvalue quarterPi = fvalue fpi / 4 := by
  have h := mul_fvalue_eq (x := quarterPi) (y := fpi) (a := 4) (b := 1) (by decide +kernel)
  exact ⟨by decide +kernel, by push_cast at h; linarith⟩

/-- The patterns of the literals, each computed by `fdec` from the decimal it stands for. -/
theorem literals_nearestEven :
    ∀ rq ∈ ([(0x3FC999999999999A, 1 / 5), (0x3FE999999999999A, 4 / 5), (0x3F50624DD2F1A9FC, 1 / 1000),
      (0x412E848000000000, 1000000), (0x3FF8000000000000, 3 / 2), (0x3FE0000000000000, 1 / 2), (0x3FF0000000000000, 1),
      (0x4000000000000000, 2), (0x4008000000000000, 3), (0x4014000000000000, 5), (0x401C000000000000, 7)] :
      List (F64 × ℚ)), isFinite rq.1 = true ∧ NearestEven rq.1 rq.2 := by
  simp only [List.forall_mem_cons, List.not_mem_nil, false_imp_iff, implies_true, and_true]
  exact ⟨fdec_isFinite_and_nearestEven (by norm_num) fdec_one_fifth (by decide) (by norm_num),
    fdec_isFinite_and_nearestEven (by norm_num) fdec_four_fifths (by decide) (by norm_num),
    fdec_isFinite_and_nearestEven (by norm_num) fdec_one_thousandth (by decide) (by norm_num),
    fdec_isFinite_and_nearestEven Nat.one_pos f64_million (by decide) (by norm_num),
    fdec_isFinite_and_nearestEven (by norm_num) fdec_three_halves (by decide) (by norm_num),
    fdec_isFinite_and_nearestEven (by norm_num) half_eq (by decide) (by norm_num),
    fdec_isFinite_and_nearestEven Nat.one_pos f64_one_eq (by decide) (by norm_num),
    fdec_isFinite_and_nearestEven Nat.one_pos f64_two (by decide) (by norm_num),
    fdec_isFinite_and_nearestEven Nat.one_pos f64_three (by decide) (by norm_num),
    fdec_isFinite_and_nearestEven Nat.one_pos f64_five (by decide) (by norm_num),
    fdec_isFinite_and_nearestEven Nat.one_pos f64_seven (by decide) (by norm_num)⟩

/-- Settles O60: the decimal bounds of π and 1/√2 round to PI and SQRT1_2, and the literals to their patterns. -/
theorem namedConstants : Obligations.NamedConstants := by
  unfold Obligations.NamedConstants
  exact ⟨rfl, rfl, fpi_nearest, sqrt12_nearest, twoPi_exact, halfPi_exact, quarterPi_exact, literals_nearestEven,
    fsin_zero, fcos_zero.trans fone_eq⟩

end Sys2Proof.Machine
end

section
/-! The state of the block (10_state.md): what the service of an input and a step can do, each said once; the invariant kept by every
operation and so by every step; who writes STATUS, RESULT, BITBUF and the fault mark; the written marks; and the state after reset. -/

namespace Sys2Proof.Machine

/-! ### What the service of an input and a step can do -/

@[simp] theorem registerWritten_status (s : State) (o : Nat) (v : Word) : (registerWritten s o v).status = s.status := by
  rw [(registerWritten_frame s o v).1]

@[simp] theorem registerWritten_mem (s : State) (o : Nat) (v : Word) : (registerWritten s o v).mem = s.mem := by
  rw [(registerWritten_frame s o v).1]

@[simp] theorem registerWritten_result (s : State) (o : Nat) (v : Word) : (registerWritten s o v).result = s.result := by
  rw [(registerWritten_frame s o v).1]

@[simp] theorem registerWritten_txCount (s : State) (o : Nat) (v : Word) : (registerWritten s o v).txCount = s.txCount := by
  rw [(registerWritten_frame s o v).1]

@[simp] theorem registerWritten_outCount (s : State) (o : Nat) (v : Word) : (registerWritten s o v).outCount = s.outCount := by
  rw [(registerWritten_frame s o v).1]

@[simp] theorem registerWritten_calcTime (s : State) (o : Nat) (v : Word) : (registerWritten s o v).calcTime = s.calcTime := by
  rw [(registerWritten_frame s o v).1]

/-- What the service of an input can leave (R63, R64, R183): the reset block; the fault mark set; no change; an answered read; an
accepted command; a stored register; or a stored word of BITBUF or INBUF. -/
inductive Served (s : State) : HostInput → State → Prop where
  | reset : Served s .reset (resetBlock s)
  | marked (i : HostInput) : Served s i (setFaultMark s)
  | ignored (i : HostInput) : Served s i s
  | drawn (i : HostInput) : Served s i (answerDraw s)
  | answered (i : HostInput) (v : Word) : Served s i (answerRead s v)
  | accepted (idle : s.busy = false) (w : Word) : Served s (.write 32 0 w) (acceptCommand s w)
  | registerStored (off v : Word) : Served s (.write 32 off v) (registerWritten s off.toNat v)
  | wordStored (idle : s.busy = false) (off v : Word) (aligned : off.toNat % 4 = 0) (inside : InBuffers off.toNat) :
      Served s (.write 32 off v) { s with mem := writeWord s.mem off.toNat v }

theorem served_serveInput (s : State) (i : HostInput) : Served s i (serveInput s i) := by
  cases i with
  | reset => exact .reset
  | read width off =>
    rcases hostRead_cases s width off with h | ⟨-, h⟩ | ⟨v, h⟩ <;> rw [serveInput, h]
    · exact .marked _
    · exact .drawn _
    · exact .answered _ v
  | write width off v =>
    rw [serveInput]
    rcases hostWrite_cases s width off v with h | h | ⟨idle, rfl, -, -, h⟩ | ⟨idle, rfl, aligned, inside, -, h⟩ <;> rw [h]
    · exact .marked _
    · exact .ignored _
    · rcases writeReg_cases s off.toNat v with ⟨h0, h⟩ | ⟨-, h⟩ <;> rw [h]
      · obtain rfl : off = 0 := BitVec.eq_of_toNat_eq h0
        exact .accepted idle v
      · exact .registerStored off v
    · exact .wordStored idle off v aligned inside

/-- What a step that answers a next state can be (R67): the service of the next input, the completion of the command in CMD, the
completion of a word that is no command, or the idle block holding its state. -/
inductive StepEffect (s : State) : State → Prop where
  | served {t : State} (i : HostInput) (rest : List HostInput) (head : s.inputs = i :: rest)
      (effect : Served (takeInput s rest) i t) : StepEffect s t
  | command {t : State} (due : completionDue s = true) (i : Instr) (decoded : decode s.cmd = .ok i)
      (run : exec i s = .next t) : StepEffect s t
  | noCommand (due : completionDue s = true) : StepEffect s (errorCompletion s none .unsupportedScheme)
  | idle : StepEffect s s

theorem stepEffect_of_step {s t : State} (h : step s = .next t) : StepEffect s t := by
  rcases step_cases h with ⟨-, rest, hi, rfl⟩ | ⟨-, due, hc⟩ | ⟨-, -, i, rest, hi, rfl⟩ | ⟨-, -, -, rfl⟩
  · exact .served _ rest hi .reset
  · unfold completeCommand at hc
    split at hc
    · exact .command due _ ‹_› hc
    · cases hc
      exact .noCommand due
  · exact .served i rest hi (served_serveInput _ i)
  · exact .idle

theorem busy_of_completionDue {s : State} (h : completionDue s = true) : s.busy = true :=
  ((completionDue_iff s).mp h).1

/-! ### The invariant of memory -/

/-- The clauses of `Inv` that speak of memory (R45 to R47). -/
structure MemoryInv (m : Memory) : Prop where
  canonical : Memory.wf m
  inBuffers : ∀ a, (memRead m a).isSome → InBuffers a
  byWords : ∀ a, (memRead m a).isSome → WordMarked m a

theorem Inv.memory {s : State} (h : Inv s) : MemoryInv s.mem := ⟨h.memCanonical, h.memInBuffers, h.memByWords⟩

theorem memoryInv_nil : MemoryInv [] := ⟨List.Pairwise.nil, by simp, by simp⟩

/-- A write of whole words inside the buffers keeps the invariant of memory. -/
theorem memoryInv_memWrite {m : Memory} (h : MemoryInv m) {base n : Nat} {bs : List Byte} (hb : base % 4 = 0)
    (hn : bs.length = 4 * n) (hin : ∀ a, base ≤ a → a < base + 4 * n → InBuffers a) : MemoryInv (memWrite m base bs) where
  canonical := memWrite_wf h.canonical _ _
  inBuffers a ha := by
    rcases (isSome_memRead_memWrite a).mp ha with ⟨h1, h2⟩ | hold
    · exact hin a h1 (hn ▸ h2)
    · exact h.inBuffers a hold
  byWords a ha := by
    rw [wordMarked_memWrite hb hn]
    rcases (isSome_memRead_memWrite a).mp ha with ⟨h1, h2⟩ | hold
    · exact .inl ⟨h1, hn ▸ h2⟩
    · exact .inr (h.byWords a hold)

/-- The buffers hold whole words: with its first byte, a word lies inside. -/
theorem inBuffers_word {off a : Nat} (h : InBuffers off) (ho : off % 4 = 0) (h1 : off ≤ a) (h2 : a < off + 4) : InBuffers a := by
  unfold InBuffers bitBase inBase txBase outBase bitBytes pointBufferBytes at *
  omega

theorem memoryInv_writeWord {m : Memory} (h : MemoryInv m) {off : Nat} (ho : off % 4 = 0) (hin : InBuffers off) (v : Word) :
    MemoryInv (writeWord m off v) :=
  memoryInv_memWrite h (n := 1) ho (wordBytes_length v) fun _ => inBuffers_word hin ho

/-- Points that fit a buffer, stored from its first byte, keep the invariant of memory. -/
theorem memoryInv_writePoints {m : Memory} (h : MemoryInv m) {base : Nat} (hb : base % 4 = 0)
    (hin : ∀ a, base ≤ a → a < base + pointBufferBytes → InBuffers a) {ps : List Point} (hps : ps.length ≤ Config.maxPoints) :
    MemoryInv (writePoints m base ps) := by
  have hlen : (ps.flatMap pointBytes).length = 4 * (4 * ps.length) := by rw [flatMap_pointBytes_length]; omega
  refine memoryInv_memWrite h hb hlen fun a h1 h2 => hin a h1 ?_
  unfold pointBufferBytes
  omega

theorem memoryInv_commitSignal {s : State} (h : MemoryInv s.mem) {r : Signal} (hr : r.Fits) :
    MemoryInv (commitSignal s r).mem := by
  obtain ⟨hi, ht, ho⟩ := hr
  have h1 := memoryInv_writePoints h (base := inBase) rfl (fun _ h1 h2 => .inr (.inl ⟨h1, h2⟩)) hi
  have h2 := memoryInv_writePoints h1 (base := txBase) rfl (fun _ h1 h2 => .inr (.inr (.inl ⟨h1, h2⟩))) ht
  exact memoryInv_writePoints h2 (base := outBase) rfl (fun _ h1 h2 => .inr (.inr (.inr ⟨h1, h2⟩))) ho

/-! ### The invariant of the block, kept by each operation -/

/-- Settles O22: every clause of the invariant at the values of R50. -/
theorem resetSatisfiesInvariant : Obligations.ResetSatisfiesInvariant := by
  unfold Obligations.ResetSatisfiesInvariant
  exact
    { memCanonical := memoryInv_nil.canonical
      memInBuffers := memoryInv_nil.inBuffers
      memByWords := memoryInv_nil.byWords
      status := by decide
      cfgInit := by decide
      txCount := Nat.zero_le _
      outCount := Nat.zero_le _
      calcTime := by decide }

theorem inv_resetBlock (s : State) : Inv (resetBlock s) :=
  have h : Inv State.reset := resetSatisfiesInvariant
  { h with }

theorem inv_takeInput {s : State} (h : Inv s) (rest : List HostInput) : Inv (takeInput s rest) := { h with }

theorem inv_setFaultMark {s : State} (h : Inv s) : Inv (setFaultMark s) := { h with }

theorem inv_answerDraw {s : State} (h : Inv s) : Inv (answerDraw s) := { h with }

theorem inv_answerRead {s : State} (h : Inv s) (v : Word) : Inv (answerRead s v) := { h with }

theorem inv_acceptCommand {s : State} (h : Inv s) (w : Word) : Inv (acceptCommand s w) :=
  { h with status := by rw [acceptCommand_status]; decide }

theorem inv_commitResult {s : State} (h : Inv s) (v : F64) : Inv (commitResult s v) :=
  { h with status := by rw [commitResult_status]; decide }

theorem statusLegal_statusError (e : ErrorCode) : statusLegal (statusError e) = true := by cases e <;> decide

/-- An error completion keeps each of the two counts or zeroes it (R171). -/
theorem inv_errorCompletion {s : State} (h : Inv s) (fam : Option Family) (e : ErrorCode) : Inv (errorCompletion s fam e) := by
  unfold errorCompletion
  split
  · exact { h with status := statusLegal_statusError e }
  · exact { h with status := statusLegal_statusError e, txCount := Nat.zero_le _, outCount := Nat.zero_le _ }

/-- A commit of a result that fits stores whole Points in the buffers, and the counts are the lengths (R88). -/
theorem inv_commitSignal {s : State} (h : Inv s) {r : Signal} (hr : r.Fits) : Inv (commitSignal s r) := by
  have ⟨_, ht, ho⟩ := hr
  have hm := memoryInv_commitSignal h.memory hr
  exact
    { memCanonical := hm.canonical
      memInBuffers := hm.inBuffers
      memByWords := hm.byWords
      status := by rw [commitSignal_status]; decide
      cfgInit := h.cfgInit
      txCount := (ofNat_toNat_of_le_maxPoints ht).trans_le ht
      outCount := (ofNat_toNat_of_le_maxPoints ho).trans_le ho
      calcTime := calcTimeDraw_nonneg _ }

theorem reservedBits_of_masked (v : Word) : v &&& 7 &&& 0xFFFFFFF8 = 0 :=
  (BitVec.and_assoc v 7 0xFFFFFFF8).trans BitVec.and_zero

/-- A register write stores none of what the invariant bounds but CFG_INIT, of which it stores three bits (R64). -/
theorem inv_registerWritten {s : State} (h : Inv s) (o : Nat) (v : Word) : Inv (registerWritten s o v) where
  memCanonical := by rw [registerWritten_mem]; exact h.memCanonical
  memInBuffers := by rw [registerWritten_mem]; exact h.memInBuffers
  memByWords := by rw [registerWritten_mem]; exact h.memByWords
  status := by rw [registerWritten_status]; exact h.status
  cfgInit := by
    rcases (registerWritten_frame s o v).2 with hc | hc <;> rw [hc]
    · exact h.cfgInit
    · exact reservedBits_of_masked v
  txCount := by rw [registerWritten_txCount]; exact h.txCount
  outCount := by rw [registerWritten_outCount]; exact h.outCount
  calcTime := by rw [registerWritten_calcTime]; exact h.calcTime

theorem inv_writeWord {s : State} (h : Inv s) {off : Nat} (ho : off % 4 = 0) (hin : InBuffers off) (v : Word) :
    Inv { s with mem := writeWord s.mem off v } :=
  have hm := memoryInv_writeWord h.memory ho hin v
  { h with memCanonical := hm.canonical, memInBuffers := hm.inBuffers, memByWords := hm.byWords }

theorem inv_of_served {s t : State} {i : HostInput} (h : Inv s) (hs : Served s i t) : Inv t := by
  cases hs with
  | reset => exact inv_resetBlock s
  | marked => exact inv_setFaultMark h
  | ignored => exact h
  | drawn => exact inv_answerDraw h
  | answered _ v => exact inv_answerRead h v
  | accepted _ w => exact inv_acceptCommand h w
  | registerStored off v => exact inv_registerWritten h off.toNat v
  | wordStored _ off v aligned inside => exact inv_writeWord h aligned inside v

theorem inv_of_completion {s t : State} {i : Instr} (h : Inv s) (hc : Completion i s t) : Inv t := by
  cases hc with
  | signal r fits => exact inv_commitSignal h fits
  | result v => exact inv_commitResult h v
  | error e => exact inv_errorCompletion h _ e
  | unwritten => exact inv_setFaultMark h

/-- Settles O21: each kind of step is an operation that keeps the invariant. -/
theorem stepKeepsInvariant : Obligations.StepKeepsInvariant := by
  intro s t h hstep
  cases stepEffect_of_step hstep with
  | served i rest _ effect => exact inv_of_served (inv_takeInput h rest) effect
  | command _ i _ run => exact inv_of_completion h (completion_of_exec run)
  | noCommand => exact inv_errorCompletion h _ _
  | idle => exact h

/-! ### STATUS -/

/-- A completion leaves STATUS alone, where it sets the fault mark, or ends the command with DONE (R88). -/
theorem status_of_completion {s t : State} {i : Instr} (hc : Completion i s t) :
    t.status = s.status ∨ (busyBit t.status = false ∧ doneBit t.status = true) := by
  cases hc with
  | signal r => exact .inr ⟨busyBit_statusDone, doneBit_statusDone⟩
  | result v => exact .inr ⟨busyBit_statusDone, doneBit_statusDone⟩
  | error e =>
    rw [errorCompletion_status]
    exact .inr ⟨busyBit_statusError e, doneBit_statusError e⟩
  | unwritten => exact .inl rfl

/-- Of the inputs, only a reset and an accepted write of CMD change STATUS. -/
theorem status_of_served {s t : State} {i : HostInput} (hs : Served s i t) :
    t.status = s.status ∨ (t.status = 0 ∧ i = .reset) ∨
    (s.busy = false ∧ t.status = 0x00000001 ∧ i = .write 32 0x00000000 t.cmd) := by
  cases hs with
  | reset => exact .inr (.inl ⟨rfl, rfl⟩)
  | accepted idle w => exact .inr (.inr ⟨idle, rfl, rfl⟩)
  | registerStored off v => exact .inl (registerWritten_status s _ v)
  | marked | ignored | drawn | answered | wordStored => exact .inl rfl

/-- Settles O11, by the kinds of step. -/
theorem statusWriters : Obligations.StatusWriters := by
  intro s t hstep
  cases stepEffect_of_step hstep with
  | served i rest head effect =>
    rcases status_of_served effect with h | ⟨h, rfl⟩ | ⟨idle, h, rfl⟩
    · exact .inl h
    · exact .inr (.inl ⟨h, rest, head⟩)
    · exact .inr (.inr (.inl ⟨idle, h, rest, head⟩))
  | command due i _ run =>
    rcases status_of_completion (completion_of_exec run) with h | ⟨hb, hd⟩
    · exact .inl h
    · exact .inr (.inr (.inr ⟨busy_of_completionDue due, due, hb, hd⟩))
  | noCommand due =>
    rw [errorCompletion_status]
    exact .inr (.inr (.inr ⟨busy_of_completionDue due, due, busyBit_statusError _, doneBit_statusError _⟩))
  | idle => exact .inl rfl

/-! ### The fault mark -/

/-- A completion sets the fault mark or leaves it (R49, R88). -/
theorem faultMark_of_completion {s t : State} {i : Instr} (hc : Completion i s t) (hm : s.faultMark = true) :
    t.faultMark = true := by
  cases hc with
  | signal | result => exact hm
  | error e => rw [errorCompletion_faultMark]; exact hm
  | unwritten => rfl

/-- Settles O23: a marked state serves a reset alone, which keeps the mark, and so does every completion. -/
theorem faultMarkIsSticky : Obligations.FaultMarkIsSticky := by
  refine ⟨fun s t hm hstep => ?_, fun i s t hm run => faultMark_of_completion (completion_of_exec run) hm, rfl,
    fun s mark r => by cases r <;> rfl⟩
  rcases step_cases hstep with ⟨-, rest, hi, rfl⟩ | ⟨hf, -⟩ | ⟨hf, -⟩ | ⟨hf, -⟩
  · exact ⟨hm, rest, hi⟩
  all_goals exact absurd (hm.symm.trans hf) (by decide)

/-! ### RESULT -/

/-- INTERP.LINEAR that changes RESULT has succeeded, with the interpolation of the loaded Points (R106). -/
theorem result_of_interp (s : State) :
    (finishResult s (interpOutcome s)).result = s.result ∨
    ((finishResult s (interpOutcome s)).status = 0x00000002 ∧
      ∃ ps, PointsLoaded s ps ∧ (finishResult s (interpOutcome s)).result = interp ps s.tQuery) := by
  refine finishResult_cases (P := fun t => t.result = s.result ∨ (t.status = 0x00000002 ∧
    ∃ ps, PointsLoaded s ps ∧ t.result = interp ps s.tQuery)) (fun v hv => ?_) (fun e => .inl ?_) (.inl rfl)
  · obtain ⟨ps, hps, -, rfl⟩ := (interpOutcome_eq_ok s v).mp hv
    exact .inr ⟨rfl, ps, hps, rfl⟩
  · exact errorCompletion_result s _ e

/-- Of the commands, only INTERP.LINEAR changes RESULT (R39). -/
theorem result_of_exec {s t : State} {i : Instr} (run : exec i s = .next t) :
    t.result = s.result ∨ (i = .interpLinear ∧ t.status = 0x00000002 ∧
      ∃ ps, PointsLoaded s ps ∧ t.result = interp ps s.tQuery) := by
  by_cases hi : i = .interpLinear
  · subst hi
    cases run
    exact (result_of_interp s).imp_right fun h => ⟨rfl, h⟩
  · cases completion_of_exec run with
    | signal => exact .inl rfl
    | result _ instr => exact absurd instr hi
    | error e => exact .inl (errorCompletion_result s _ e)
    | unwritten => exact .inl rfl

/-- Of the inputs, only a reset changes RESULT. -/
theorem result_of_served {s t : State} {i : HostInput} (hs : Served s i t) :
    t.result = s.result ∨ (t.result = 0 ∧ i = .reset) := by
  cases hs with
  | reset => exact .inr ⟨rfl, rfl⟩
  | registerStored off v => exact .inl (registerWritten_result s _ v)
  | marked | ignored | drawn | answered | accepted | wordStored => exact .inl rfl

/-- Settles O24, by the kinds of step. -/
theorem onlyInterpWritesResult : Obligations.OnlyInterpWritesResult := by
  refine ⟨fun s t hstep => ?_, fun s => ⟨rfl, rfl⟩, rfl⟩
  cases stepEffect_of_step hstep with
  | served i rest head effect =>
    rcases result_of_served effect with h | ⟨h, rfl⟩
    · exact .inl h
    · exact .inr (.inl ⟨h, rest, head⟩)
  | command due i decoded run =>
    rcases result_of_exec run with h | ⟨rfl, h⟩
    · exact .inl h
    · exact .inr (.inr ⟨due, decoded, h⟩)
  | noCommand => exact .inl (errorCompletion_result s _ _)
  | idle => exact .inl rfl

/-! ### BITBUF -/

/-- No completion changes a byte below INBUF: the Points of a commit go to the three point buffers (R94). -/
theorem memRead_of_completion {s t : State} {i : Instr} (hc : Completion i s t) {a : Nat} (ha : a < inBase) :
    memRead t.mem a = memRead s.mem a := by
  cases hc with
  | signal r => exact memRead_commitSignal s a (.inl ha) (.inl (ha.trans (by decide))) (.inl (ha.trans (by decide)))
  | error e => rw [errorCompletion_mem]
  | result | unwritten => rfl

/-- Of the inputs, only a reset and an idle write of its own word change a byte of memory. -/
theorem memRead_of_served {s t : State} {i : HostInput} (hs : Served s i t) (a : Nat) :
    memRead t.mem a = memRead s.mem a ∨ i = .reset ∨
    (s.busy = false ∧ ∃ off v, i = .write 32 off v ∧ off.toNat = a / 4 * 4) := by
  cases hs with
  | reset => exact .inr (.inl rfl)
  | registerStored off v => exact .inl (by rw [registerWritten_mem])
  | wordStored idle off v aligned inside =>
    by_cases ha : off.toNat ≤ a ∧ a < off.toNat + 4
    · exact .inr (.inr ⟨idle, off, v, rfl, by omega⟩)
    · exact .inl (memRead_memWrite_outside _ _ _ _ (by rw [wordBytes_length]; omega))
  | marked | ignored | drawn | answered | accepted => exact .inl rfl

/-- Settles O25, by the kinds of step. -/
theorem bitbufWrittenOnlyByHost : Obligations.BitbufWrittenOnlyByHost := by
  refine ⟨fun i s t a run ha => memRead_of_completion (completion_of_exec run) ha, fun s t a _ ha hstep => ?_⟩
  cases stepEffect_of_step hstep with
  | served i rest head effect =>
    rcases memRead_of_served effect a with h | rfl | ⟨idle, off, v, rfl, hoff⟩
    · exact .inl h
    · exact .inr (.inl ⟨rest, head⟩)
    · exact .inr (.inr ⟨idle, off, v, rest, head, hoff⟩)
  | command _ i _ run => exact .inl (memRead_of_completion (completion_of_exec run) ha)
  | noCommand => exact .inl (by rw [errorCompletion_mem])
  | idle => exact .inl rfl

/-! ### Written marks -/

theorem not_wordMarked_nil (a : Nat) : ¬ WordMarked [] a := fun h => absurd (h 0 (by decide)) (by simp)

/-- The mark of an aligned word is set exactly where the word is read (R47). -/
theorem wordMarked_iff_of_aligned (m : Memory) {a : Nat} (ha : a % 4 = 0) : WordMarked m a ↔ (readWord m a).isSome := by
  rw [readWord_isSome, WordMarked, show a / 4 * 4 = a by omega]

theorem readWord_eq_none_of_unmarked {m : Memory} {a : Nat} (ha : a % 4 = 0) (h : ¬ WordMarked m a) : readWord m a = none := by
  rwa [wordMarked_iff_of_aligned m ha, Option.not_isSome_iff_eq_none] at h

/-- An idle write of a word of BITBUF or INBUF stores it (R64). -/
theorem hostWrite_of_writable {s : State} {off : Word} (v : Word) (idle : s.busy = false) (ha : off.toNat % 4 = 0)
    (hin : InBuffers off.toNat) (hw : off.toNat < txBase) :
    hostWrite s 32 off v = { s with mem := writeWord s.mem off.toNat v } := by
  simp [hostWrite, target_buffer ha hin, idle, hw]

theorem wordMarked_writeWord (m : Memory) {off : Nat} (ho : off % 4 = 0) (v : Word) (a : Nat) :
    WordMarked (writeWord m off v) a ↔ a / 4 * 4 = off ∨ WordMarked m a := by
  rw [writeWord, wordMarked_memWrite (n := 1) ho (wordBytes_length v)]
  exact or_congr_left (by omega)

theorem wordMarked_writePoints (m : Memory) {base : Nat} (hb : base % 4 = 0) (ps : List Point) (a : Nat) :
    WordMarked (writePoints m base ps) a ↔ (base ≤ a ∧ a < base + 16 * ps.length) ∨ WordMarked m a := by
  rw [writePoints, wordMarked_memWrite (n := 4 * ps.length) hb (by rw [flatMap_pointBytes_length]; omega),
    show 4 * (4 * ps.length) = 16 * ps.length by omega]

/-- A commit marks the words of the Points it stores, as its counts give them, and no others (R88). -/
theorem wordMarked_commitSignal (s : State) {r : Signal} (hr : r.Fits) (a : Nat) :
    WordMarked (commitSignal s r).mem a ↔ WordMarked s.mem a ∨
      (inBase ≤ a ∧ a < inBase + 16 * (commitSignal s r).inCount.toNat) ∨
      (txBase ≤ a ∧ a < txBase + 16 * (commitSignal s r).txCount.toNat) ∨
      (outBase ≤ a ∧ a < outBase + 16 * (commitSignal s r).outCount.toNat) := by
  obtain ⟨hi, ht, ho⟩ := hr
  simp only [commitSignal_mem, commitSignal_inCount, commitSignal_txCount, commitSignal_outCount,
    ofNat_toNat_of_le_maxPoints hi, ofNat_toNat_of_le_maxPoints ht, ofNat_toNat_of_le_maxPoints ho]
  rw [wordMarked_writePoints _ (base := outBase) rfl, wordMarked_writePoints _ (base := txBase) rfl,
    wordMarked_writePoints _ (base := inBase) rfl]
  tauto

/-- A host read of an unmarked word does nothing but set the fault mark (R47, R63). -/
theorem hostRead_of_unmarked {s : State} {off : Word} (ha : off.toNat % 4 = 0) (hin : InBuffers off.toNat)
    (h : ¬ WordMarked s.mem off.toNat) : hostRead s 32 off = setFaultMark s := by
  simp [hostRead, target_buffer ha hin, readWord_eq_none_of_unmarked ha h]

/-- ReadBits stops at an unwritten byte after legal ones (R91). -/
theorem readBits_of_unmarked {s : State} {k : Nat} (hmax : s.bitLen.toNat ≤ Config.maxBits) (hk : k < s.bitLen.toNat)
    (hb : ∀ j < k, BitByteIs s.mem j 0x30 ∨ BitByteIs s.mem j 0x31) (h : ¬ WordMarked s.mem (bitBase + k)) :
    readBits s = .error .unwritten := by
  rw [readBits, if_neg (by omega)]
  exact (readBitsFrom_stop s.mem _ 0 k hk (by simpa using hb)).1 (by simpa using h)

/-- A Point with an unmarked word is not read (R105). -/
theorem readPoint_eq_none_of_unmarked {m : Memory} {a j : Nat} (ha : a % 4 = 0) (hj : j < 4) (h : ¬ WordMarked m (a + 4 * j)) :
    readPoint m a = none := by
  have hw := readWord_eq_none_of_unmarked (by omega) h
  obtain rfl | rfl | rfl | rfl : j = 0 ∨ j = 1 ∨ j = 2 ∨ j = 3 := by omega
  all_goals simp at hw; simp [readPoint, readF64, Nat.add_assoc, hw]

/-- ReadPoints stops at an unmarked word among its Points (R105). -/
theorem readPoints_of_unmarked {s : State} {k : Nat} (hmax : s.inCount.toNat ≤ Config.maxPoints)
    (hk : k < 4 * s.inCount.toNat) (h : ¬ WordMarked s.mem (inBase + 4 * k)) : readPoints s = .error .unwritten := by
  rw [readPoints, if_neg (by omega)]
  refine readPointsFrom_stop s.mem _ 0 ⟨k / 4, by omega, ?_⟩
  have hin : inBase = 0x20000000 := rfl
  refine readPoint_eq_none_of_unmarked (j := k % 4) (by omega) (by omega) ?_
  rwa [show inBase + 16 * (0 + k / 4) + 4 * (k % 4) = inBase + 4 * k by omega]

/-- INTERP.LINEAR whose ReadPoints fails does nothing but end with that failure (R90, R105). -/
theorem exec_of_readPoints_error {s : State} {e : Stop} (h : readPoints s = .error e) :
    exec .interpLinear s = .next (finishResult s (.error e)) := by
  simp only [exec, execInterpLinear, interpOutcome, h]
  rfl

/-- Settles O20, clause by clause from the lemmas above. -/
theorem writtenMarks : Obligations.WrittenMarks := by
  refine ⟨not_wordMarked_nil, fun _ => not_wordMarked_nil, fun s off v idle ha hin hw a => ?_,
    fun i s t hs run ht hi a => ?_, fun s off ha hin h => hostRead_of_unmarked ha hin h,
    fun i s k hi hmax hk hb h => ?_, fun s k hmax hk h => ?_⟩
  · rw [hostWrite_of_writable v idle ha hin hw]
    exact wordMarked_writeWord s.mem ha v a
  · rcases committed_of_done hs run ht with ⟨r, hr, rfl⟩ | hinterp
    · exact wordMarked_commitSignal s hr a
    · exact absurd hinterp hi
  · exact exec_of_readBits_error hi (readBits_of_unmarked hmax hk hb h)
  · exact exec_of_readPoints_error (readPoints_of_unmarked hmax hk h)

/-! ### The state after reset, and its first command -/

/-- Settles O6: the values of `State.reset`, register by register. -/
theorem resetValues : Obligations.ResetValues := by
  unfold Obligations.ResetValues
  exact ⟨rfl, rfl, rfl, rfl, rfl, rfl, rfl, rfl, rfl, rfl, rfl, rfl, rfl, rfl, rfl, rfl, rfl, not_wordMarked_nil, rfl⟩

theorem decode_encode (i : Instr) : decode (encode i) = .ok i := by cases i <;> rfl

/-- An idle write of CMD is its acceptance (R87). -/
theorem hostWrite_cmd {s : State} (idle : s.busy = false) (w : Word) : hostWrite s 32 0x00000000 w = acceptCommand s w := by
  rw [hostWrite, target_reg (by decide) (by decide)]
  simp [regWordAt, ignoredWhileBusy, idle, writeReg]

/-- An A2D or AMOD command whose CheckAnalog fails does nothing but end with that failure (R90, R92). -/
theorem exec_of_checkAnalog_error {i : Instr} {s : State} {e : Stop} (hi : i.family = .a2d ∨ i.family = .amod)
    (h : checkAnalog s = .error e) : exec i s = .next (finishSignal s i.family (.error e)) := by
  have hp : pcmOutcome s = .error e := by simp only [pcmOutcome, h]; rfl
  have hd : deltaOutcome s = .error e := by simp only [deltaOutcome, h]; rfl
  have ha : ∀ y, amodOutcome s y = .error e := fun y => by simp only [amodOutcome, h]; rfl
  cases i
  case a2dPcm => exact congrArg (fun o => Host.Outcome.next (finishSignal s .a2d o)) hp
  case a2dDelta => exact congrArg (fun o => Host.Outcome.next (finishSignal s .a2d o)) hd
  case amodAm | amodFm | amodPm => exact congrArg (fun o => Host.Outcome.next (finishSignal s .amod o)) (ha _)
  all_goals exact absurd hi (by decide)

/-- INTERP.LINEAR is the only command of its family (R81). -/
theorem eq_interpLinear_of_family {i : Instr} : i.family = .interp → i = .interpLinear := by cases i <;> decide

/-- A command that finds no parameter written ends with its family's error (R51): BIT_LEN, FREQ and IN_COUNT are illegal at 0. -/
theorem exec_of_no_parameter (i : Instr) {s : State} (hb : s.bitLen = 0) (hf : s.freq = 0) (hn : s.inCount = 0) :
    exec i s = .next (errorCompletion s (some i.family)
      (if i.family = .a2d ∨ i.family = .amod then .invalidParameter else .invalidInput)) := by
  have hbits : readBits s = .error (.error .invalidInput) := by simp [readBits, hb]
  have hanalog : checkAnalog s = .error (.error .invalidParameter) := by
    rw [checkAnalog_eq, hf, show isPositiveFinite 0 = false by decide]
    rfl
  have hpoints : readPoints s = .error (.error .invalidInput) := by simp [readPoints, hn]
  cases hfam : i.family with
  | line => rw [exec_of_readBits_error (.inl hfam) hbits, hfam]; rfl
  | dmod => rw [exec_of_readBits_error (.inr hfam) hbits, hfam]; rfl
  | a2d => rw [exec_of_checkAnalog_error (.inl hfam) hanalog, hfam]; rfl
  | amod => rw [exec_of_checkAnalog_error (.inr hfam) hanalog, hfam]; rfl
  | interp =>
    obtain rfl := eq_interpLinear_of_family hfam
    exact exec_of_readPoints_error hpoints

/-- Settles O8: CMD decodes to the command, which finds no parameter written. -/
theorem firstCommandAfterResetFails : Obligations.FirstCommandAfterResetFails := by
  intro i
  have run : completeCommand (acceptCommand State.reset (encode i)) = exec i (acceptCommand State.reset (encode i)) := by
    rw [completeCommand, acceptCommand_cmd, decode_encode]
  rw [hostWrite_cmd rfl, run, exec_of_no_parameter i rfl rfl rfl]
  refine ⟨_, rfl, ?_, ?_, ?_⟩ <;> rw [errorCompletion_status]
  · rintro (h | h) <;> rw [h] <;> decide
  · rintro (h | h) <;> rw [h] <;> decide
  · intro h; rw [h]; decide

end Sys2Proof.Machine
end

section
/-! The host's accesses and the layout of memory (20_memory.md): words, binary64 values and Points in memory, byte by byte; what a
refused, a register and a buffer access does, as an equation each; and what a step is, by the fault mark and the inputs. -/

namespace Sys2Proof.Machine

/-! ### Byte order (R57) -/

/-- The bytes of a word put together from four bytes are those bytes. -/
theorem wordBytes_append (b0 b1 b2 b3 : Byte) : wordBytes (b3 ++ b2 ++ b1 ++ b0) = [b0, b1, b2, b3] := by
  have byte (k : Nat) (b : Byte) (h : ∀ i < 8, (b3 ++ b2 ++ b1 ++ b0 : Word).getLsbD (k + i) = b.getLsbD i) :
      (b3 ++ b2 ++ b1 ++ b0 : Word).extractLsb' k 8 = b :=
    BitVec.eq_of_getLsbD_eq fun i hi => by rw [BitVec.getLsbD_extractLsb', h i hi]; simp [hi]
  unfold wordBytes
  rw [byte 0 b0, byte 8 b1, byte 16 b2, byte 24 b3]
  all_goals
    intro i hi
    simp only [BitVec.getLsbD_append]
    grind

/-- A word is read where its four bytes stand, and nowhere else. -/
theorem readWord_eq_some_iff {m : Memory} {a : Nat} {w : Word} :
    readWord m a = some w ↔
      memRead m a = some (w.extractLsb' 0 8) ∧ memRead m (a + 1) = some (w.extractLsb' 8 8) ∧
      memRead m (a + 2) = some (w.extractLsb' 16 8) ∧ memRead m (a + 3) = some (w.extractLsb' 24 8) := by
  constructor
  · intro h
    unfold readWord at h
    split at h
    case h_1 b0 b1 b2 b3 h0 h1 h2 h3 =>
      cases h
      have hbytes := wordBytes_append b0 b1 b2 b3
      simp only [wordBytes, List.cons.injEq] at hbytes
      obtain ⟨e0, e1, e2, e3, -⟩ := hbytes
      rw [e0, e1, e2, e3]
      exact ⟨h0, h1, h2, h3⟩
    case h_2 => cases h
  · rintro ⟨h0, h1, h2, h3⟩
    simp only [readWord, h0, h1, h2, h3, wordBytes_join]

/-- A binary64 is read where its two words stand, the low one first, and nowhere else. -/
theorem readF64_eq_some_iff {m : Memory} {a : Nat} {x : F64} :
    readF64 m a = some x ↔ readWord m a = some (lo32 x) ∧ readWord m (a + 4) = some (hi32 x) := by
  constructor
  · intro h
    unfold readF64 at h
    split at h
    case h_1 hlo hhi =>
      cases h
      rw [lo32_ofHalves, hi32_ofHalves]
      exact ⟨hlo, hhi⟩
    case h_2 => cases h
  · rintro ⟨hlo, hhi⟩
    simp only [readF64, hlo, hhi, ofHalves_halves]

/-- Settles O16: words and binary64 values by the equivalences above, the binary64 registers one by one. -/
theorem littleEndian : Obligations.LittleEndian := by
  refine ⟨fun _ _ _ => readWord_eq_some_iff, fun _ _ _ => readF64_eq_some_iff, fun s o x hx => ?_⟩
  simp only [List.mem_cons, Prod.mk.injEq, List.not_mem_nil, or_false] at hx
  rcases hx with ⟨rfl, rfl⟩ | ⟨rfl, rfl⟩ | ⟨rfl, rfl⟩ | ⟨rfl, rfl⟩ | ⟨rfl, rfl⟩ | ⟨rfl, rfl⟩ | ⟨rfl, rfl⟩
  all_goals exact ⟨rfl, rfl⟩

/-! ### Points (R58) -/

theorem readPoint_eq_some_iff {m : Memory} {a : Nat} {p : Point} :
    readPoint m a = some p ↔ readF64 m a = some p.x ∧ readF64 m (a + 8) = some p.y := by
  constructor
  · intro h
    unfold readPoint at h
    split at h
    case h_1 hx hy =>
      cases h
      exact ⟨hx, hy⟩
    case h_2 => cases h
  · rintro ⟨hx, hy⟩
    simp only [readPoint, hx, hy]

/-- The four words of a Point that is read: x, then y, each low word first. -/
theorem words_of_readPoint {m : Memory} {a : Nat} {p : Point} (h : readPoint m a = some p) :
    readWord m a = some (lo32 p.x) ∧ readWord m (a + 4) = some (hi32 p.x) ∧
    readWord m (a + 8) = some (lo32 p.y) ∧ readWord m (a + 12) = some (hi32 p.y) := by
  obtain ⟨hx, hy⟩ := readPoint_eq_some_iff.mp h
  obtain ⟨hxlo, hxhi⟩ := readF64_eq_some_iff.mp hx
  obtain ⟨hylo, hyhi⟩ := readF64_eq_some_iff.mp hy
  exact ⟨hxlo, hxhi, hylo, hyhi⟩

/-- Settles O17: each Point reads back, and so do its words; outside its range the write leaves memory alone. -/
theorem pointLayout : Obligations.PointLayout := by
  refine fun m base ps => ⟨fun k h => ?_, fun a ha => memRead_writePoints_outside m base a ps ha⟩
  have hread := readPoint_writePoints m base ps k h
  obtain ⟨hxlo, hxhi, hylo, hyhi⟩ := words_of_readPoint hread
  exact ⟨hxlo, hxhi, hylo, hyhi, hread⟩

/-! ### Refused accesses (R54, R55, R60) -/

/-- An access of another width, off alignment, to an unmapped space or past the end of a buffer reaches nothing. -/
theorem target_refused {width : Nat} {off : Word}
    (h : width ≠ 32 ∨ off.toNat % 4 ≠ 0 ∨ 5 ≤ off.toNat / 0x10000000 ∨
      (off.toNat / 0x10000000 = 1 ∧ bitBytes ≤ off.toNat % 0x10000000) ∨
      (2 ≤ off.toNat / 0x10000000 ∧ off.toNat / 0x10000000 ≤ 4 ∧ pointBufferBytes ≤ off.toNat % 0x10000000)) :
    target width off = .refused := by
  rcases target_cases width off with ht | ⟨hw, ha, hreg, -⟩ | ⟨hw, ha, hbuf, -⟩
  · exact ht
  · omega
  · have hb := bitBytes_le
    have hp := pointBufferBytes_le
    unfold InBuffers bitBase inBase txBase outBase at hbuf
    omega

theorem hostRead_of_refused {s : State} {width : Nat} {off : Word} (h : target width off = .refused) :
    hostRead s width off = setFaultMark s := by
  rw [hostRead, h]

theorem hostWrite_of_refused {s : State} {width : Nat} {off : Word} (v : Word) (h : target width off = .refused) :
    hostWrite s width off v = setFaultMark s := by
  rw [hostWrite, h]

/-- Settles O14: such an access reaches nothing, and then sets the fault mark. -/
theorem refusedAccessesMark : Obligations.RefusedAccessesMark := by
  intro s width off v h
  have ht : target width off = .refused := target_refused h
  exact ⟨hostRead_of_refused ht, hostWrite_of_refused v ht⟩

/-! ### Host reads (R63) -/

/-- A read of space REG answers a draw, for the registers of R63 while BUSY, or the word of the register map. -/
theorem hostRead_reg (s : State) {off : Word} (ha : off.toNat % 4 = 0) (hr : off.toNat < 0x10000000) :
    hostRead s 32 off =
      if s.busy = true ∧ off.toNat ∈ drawnOffsets then answerDraw s else answerRead s (registerWord s off.toNat) := by
  simp [hostRead, target_reg ha hr, drawnWhileBusy_regWordAt, readReg_regWordAt]

/-- A read of a written buffer word answers a draw while BUSY, and the word otherwise. -/
theorem hostRead_of_written {s : State} {off v : Word} (ha : off.toNat % 4 = 0) (hin : InBuffers off.toNat)
    (hv : readWord s.mem off.toNat = some v) :
    hostRead s 32 off = if s.busy then answerDraw s else answerRead s v := by
  simp [hostRead, target_buffer ha hin, hv]

/-- The mark of an aligned word that is not read is clear. -/
theorem not_wordMarked_of_readWord {m : Memory} {a : Nat} (ha : a % 4 = 0) (h : readWord m a = none) : ¬ WordMarked m a := by
  simp [wordMarked_iff_of_aligned m ha, h]

/-- Settles O12: space REG by whether the answer is a draw, a buffer by whether the word is written. -/
theorem hostReadRule : Obligations.HostReadRule := by
  refine fun s off ha => ⟨fun hr => ⟨fun drawn => ?_, fun plain => ?_⟩,
    fun hin => ⟨fun unwritten => ?_, fun v hv => ⟨fun busy => ?_, fun idle => ?_⟩⟩⟩
  · exact (hostRead_reg s ha hr).trans (if_pos drawn)
  · exact (hostRead_reg s ha hr).trans (if_neg plain)
  · exact hostRead_of_unmarked ha hin (not_wordMarked_of_readWord ha unwritten)
  · exact (hostRead_of_written ha hin hv).trans (if_pos busy)
  · exact (hostRead_of_written ha hin hv).trans (if_neg (by simp [idle]))

/-! ### Host writes to the idle block (R64) -/

theorem writeReg_of_ignored (s : State) {r : RegWord} (v : Word) (h : ignoredWhileBusy r = true) : writeReg s r v = s := by
  cases r
  case status | reserved => rfl
  all_goals cases h

/-- An idle write of space REG is the write of the register, also where the word is one that is ignored even while BUSY. -/
theorem hostWrite_reg {s : State} {off : Word} (v : Word) (idle : s.busy = false) (ha : off.toNat % 4 = 0)
    (hr : off.toNat < 0x10000000) : hostWrite s 32 off v = writeReg s (regWordAt off.toNat) v := by
  rw [hostWrite, target_reg ha hr]
  cases hi : ignoredWhileBusy (regWordAt off.toNat) with
  | true => simp [hi, writeReg_of_ignored s v hi]
  | false => simp [hi, idle]

/-- An idle write of a word of TXBUF or OUTBUF is ignored. -/
theorem hostWrite_of_readOnly {s : State} {off : Word} (v : Word) (idle : s.busy = false) (ha : off.toNat % 4 = 0)
    (hin : InBuffers off.toNat) (hro : txBase ≤ off.toNat) : hostWrite s 32 off v = s := by
  simp [hostWrite, target_buffer ha hin, idle, Nat.not_lt.mpr hro]

/-- A write of a word leaves every byte outside the word alone. -/
theorem memRead_writeWord_outside (m : Memory) {a x : Nat} (v : Word) (h : x < a ∨ a + 4 ≤ x) :
    memRead (writeWord m a v) x = memRead m x :=
  memRead_memWrite_outside m a x (wordBytes v) h

/-- Settles O13: space REG, the writable buffers and the read-only buffers. -/
theorem hostWriteIdle : Obligations.HostWriteIdle := by
  refine fun s off v idle ha => ⟨fun h0 hr => ?_, fun hin hw => ?_, fun hin hro => hostWrite_of_readOnly v idle ha hin hro⟩
  · rw [hostWrite_reg v idle ha hr]
    rcases writeReg_cases s off.toNat v with ⟨hcmd, -⟩ | ⟨-, h⟩
    · exact absurd hcmd h0
    · exact h
  · exact ⟨_, hostWrite_of_writable v idle ha hin hw, rfl, readWord_writeWord s.mem off.toNat v,
      fun a houtside => memRead_writeWord_outside s.mem v houtside⟩

/-! ### Steps (R49, R67, R71, R182) -/

theorem completionDue_of_idle {s : State} (idle : s.busy = false) : completionDue s = false := by
  simp [completionDue, idle]

theorem completionDue_of_waiting {s : State} {i : HostInput} {rest : List HostInput} (hi : s.inputs = i :: rest)
    (hl : s.busyLeft ≠ 0) : completionDue s = false := by
  simp [completionDue, hi, hl]

theorem step_of_marked {s : State} (hf : s.faultMark = true) : step s = markedStep s := by
  rw [step, stepBlock, if_pos hf]

/-- An unmarked block with no completion due takes a step of the host. -/
theorem step_of_not_due {s : State} (hf : s.faultMark = false) (hd : completionDue s = false) : step s = hostStep s := by
  simp [step, stepBlock, hf, hd]

theorem hostStep_of_input {s : State} {i : HostInput} {rest : List HostInput} (hi : s.inputs = i :: rest) :
    hostStep s = .next (serveInput (takeInput s rest) i) := by
  rw [hostStep, hi]

theorem hostStep_of_no_input {s : State} (hi : s.inputs = []) : hostStep s = .next s := by
  rw [hostStep, hi]

theorem markedStep_of_no_reset {s : State} (h : ∀ rest, s.inputs ≠ .reset :: rest) :
    markedStep s = .fault .faultMarkSet := by
  unfold markedStep
  split
  case h_1 rest hi => exact absurd hi (h rest)
  case h_2 => rfl

theorem takeInput_of_idle {s : State} (idle : s.busy = false) (rest : List HostInput) :
    takeInput s rest = { s with inputs := rest } := by
  simp [takeInput, idle]

theorem takeInput_of_busy {s : State} (busy : s.busy = true) (rest : List HostInput) :
    takeInput s rest = { s with inputs := rest, busyLeft := s.busyLeft - 1 } := by
  simp [takeInput, busy]

/-- Settles O5: an unmarked block, idle or waiting, serves its next input or holds its state; a marked one faults. -/
theorem stepServesInputs : Obligations.StepServesInputs := by
  refine ⟨fun s i rest hf hi => ⟨fun idle => ?_, fun busy hl => ?_⟩, fun s hf idle hi => ?_, fun s hf hr => ?_⟩
  · rw [step_of_not_due hf (completionDue_of_idle idle), hostStep_of_input hi, takeInput_of_idle idle]
  · rw [step_of_not_due hf (completionDue_of_waiting hi hl), hostStep_of_input hi, takeInput_of_busy busy]
  · rw [step_of_not_due hf (completionDue_of_idle idle), hostStep_of_no_input hi]
  · rw [step_of_marked hf, markedStep_of_no_reset hr]

/-- Two states that differ at most in the model's own fields (logs 1, 2 and 14): every register, every buffer and the
fault mark agree. -/
def SameBlock (s t : State) : Prop :=
  t = { s with inputs := t.inputs, busyLeft := t.busyLeft, hostReads := t.hostReads, draws := t.draws }

/-- What a BUSY block serves is a reset, sets the fault mark, or leaves every register and every buffer as they are. -/
theorem sameBlock_of_serveInput_busy {s : State} (busy : s.busy = true) (i : HostInput) :
    i = .reset ∨ (serveInput s i).faultMark = true ∨ SameBlock s (serveInput s i) := by
  rcases serveInput_busy busy i with hreset | h | h | h | ⟨v, h⟩
  · exact .inl hreset
  all_goals rw [h]
  · exact .inr (.inl rfl)
  · exact .inr (.inr rfl)
  · exact .inr (.inr rfl)
  · exact .inr (.inr rfl)

/-- Settles O19: of the kinds of step, an unmarked BUSY block with no completion due can only serve its next input. -/
theorem operandsStableWhileBusy : Obligations.OperandsStableWhileBusy := by
  intro s t busy notDue hstep unmarked
  rcases step_cases hstep with ⟨-, rest, hi, -⟩ | ⟨-, due, -⟩ | ⟨-, -, i, rest, hi, rfl⟩ | ⟨-, idle, -⟩
  · exact .inl ⟨rest, hi⟩
  · exact absurd (due.symm.trans notDue) (by decide)
  · rcases sameBlock_of_serveInput_busy (s := takeInput s rest) busy i with rfl | marked | same
    · exact .inl ⟨rest, hi⟩
    · exact absurd (marked.symm.trans unmarked) (by decide)
    · exact .inr same
  · exact absurd (busy.symm.trans idle) (by decide)

end Sys2Proof.Machine
end

section
/-! The command words and the host program that loads a bit string (30_encoding.md): the decoder as an equivalence on the three
fields of a word; what a word that is no command completes with; the selectors that share a meaning; and what WRBITS leaves in BITBUF. -/

namespace Sys2Proof.Machine

/-! ### Decoding (R75, R82) -/

/-- A word is put together from its three fields. -/
theorem toNat_eq_fields (w : Word) : w.toNat = 256 * rsvdField w + 16 * familyField w + schemeField w := by
  have hlt := w.isLt
  simp only [rsvdField, familyField, schemeField, BitVec.extractLsb'_toNat, Nat.shiftRight_eq_div_pow]
  omega

theorem word_eq_of_fields {v w : Word} (hr : rsvdField v = rsvdField w) (hf : familyField v = familyField w)
    (hs : schemeField v = schemeField w) : v = w := by
  apply BitVec.eq_of_toNat_eq
  rw [toNat_eq_fields v, toNat_eq_fields w, hr, hf, hs]

/-- FAMILY 5 to 15 defines no scheme (R75). -/
theorem schemeTable_of_undefined {f : Nat} (h : 4 < f) : schemeTable f = [] := by
  unfold schemeTable
  split
  case h_6 => rfl
  all_goals omega

/-- What the decoder accepts: RSVD is 0 and SCHEME stands in the table of its FAMILY. -/
theorem decode_eq_ok_iff {w : Word} {i : Instr} :
    decode w = .ok i ↔ rsvdField w = 0 ∧ (schemeTable (familyField w))[schemeField w]? = some i := by
  unfold decode
  by_cases hr : rsvdField w = 0
  · by_cases hf : 4 < familyField w
    · simp [hr, hf, schemeTable_of_undefined hf]
    · cases ht : (schemeTable (familyField w))[schemeField w]? <;> simp [hr, hf]
  · simp [hr]

theorem rsvdField_encode (i : Instr) : rsvdField (encode i) = 0 := by cases i <;> rfl

/-- Every entry of the tables stands where FAMILY and SCHEME of its command word say (R77 to R81). -/
theorem schemeTable_entries : ∀ f ≤ 4, ∀ p ∈ (schemeTable f).zipIdx,
    familyField (encode p.1) = f ∧ schemeField (encode p.1) = p.2 := by decide

/-- A place in the tables gives the fields of the command word that stands there. -/
theorem fields_of_schemeTable {f n : Nat} {i : Instr} (h : (schemeTable f)[n]? = some i) :
    familyField (encode i) = f ∧ schemeField (encode i) = n := by
  rcases Nat.lt_or_ge 4 f with undefined | defined
  · simp [schemeTable_of_undefined undefined] at h
  · exact schemeTable_entries f defined (i, n) (List.mem_zipIdx_iff_getElem?.mpr h)

/-- A word that decodes is the command word: the fields of both are those of the table's entry. -/
theorem eq_encode_of_decode {w : Word} {i : Instr} (h : decode w = .ok i) : w = encode i := by
  obtain ⟨hr, entry⟩ := decode_eq_ok_iff.mp h
  obtain ⟨hf, hs⟩ := fields_of_schemeTable entry
  exact word_eq_of_fields (hr.trans (rsvdField_encode i).symm) hf.symm hs.symm

theorem decode_error_of_ne_encode {w : Word} (h : ∀ i, w ≠ encode i) : ∃ e, decode w = .error e := by
  cases hd : decode w with
  | ok i => exact absurd (eq_encode_of_decode hd) (h i)
  | error e => exact ⟨e, rfl⟩

/-- A word that is no command completes with UnsupportedScheme and the counts zeroed (R83, R166, R171). -/
theorem completeCommand_of_decode_error {s : State} {e : DecodeReject} (h : decode s.cmd = .error e) :
    completeCommand s = .next (zeroedError s 0x00000306) := by
  rw [completeCommand, h]
  rfl

/-- Settles O2: a word that decodes is determined by its fields, and every other word is rejected. -/
theorem decodeExact : Obligations.DecodeExact := by
  refine ⟨fun i _ => decode_encode i, fun _ _ => eq_encode_of_decode, fun w h => ?_⟩
  obtain ⟨e, he⟩ := decode_error_of_ne_encode h
  refine ⟨⟨e, he⟩, fun s hs => completeCommand_of_decode_error (e := e) ?_⟩
  rw [hs, he]

/-- Settles O1: each sample word is the command word of its mnemonic. -/
theorem decodeSampleWords : Obligations.DecodeSampleWords :=
  ⟨decode_encode .lineNrzL, decode_encode .lineHdb3, decode_encode .dmodMfsk, decode_encode .dmodQam,
    decode_encode .a2dDelta, decode_encode .amodPm, decode_encode .interpLinear⟩

/-! ### Selectors that share a meaning (R84, R144) -/

theorem exec_dmodFsk (s : State) : exec .dmodFsk s = .next (finishSignal s .dmod (dmodOutcome s fskTx)) := rfl
theorem exec_dmodBfsk (s : State) : exec .dmodBfsk s = .next (finishSignal s .dmod (dmodOutcome s fskTx)) := rfl
theorem exec_dmodPsk (s : State) : exec .dmodPsk s = .next (finishSignal s .dmod (dmodOutcome s pskTx)) := rfl
theorem exec_dmodBpsk (s : State) : exec .dmodBpsk s = .next (finishSignal s .dmod (dmodOutcome s pskTx)) := rfl

/-- Settles O43: both words of a pair complete with the same transmitted sequence. -/
theorem aliasedSelectors : Obligations.AliasedSelectors :=
  ⟨by decide, by decide, fun s => (exec_dmodBfsk s).trans (exec_dmodFsk s).symm,
    fun s => (exec_dmodBpsk s).trans (exec_dmodPsk s).symm⟩

/-! ### WRBITS (R59, R86) -/

theorem bitChar_of_lt {b : List Bool} {i : Nat} (h : i < b.length) : bitChar b i = bitCode b[i] := by
  simp [bitChar, bitCode, h]

/-- Byte j of the word w_k is the character of bit 4·k + j. -/
theorem bitWord_byte (b : List Bool) (k : Nat) {j : Nat} (hj : j < 4) :
    (bitWord b k).extractLsb' (8 * j) 8 = bitChar b (4 * k + j) := by
  have hbytes := wordBytes_append (bitChar b (4 * k)) (bitChar b (4 * k + 1)) (bitChar b (4 * k + 2)) (bitChar b (4 * k + 3))
  simp only [wordBytes, List.cons.injEq] at hbytes
  obtain ⟨h0, h1, h2, h3, -⟩ := hbytes
  match j with
  | 0 => exact h0
  | 1 => exact h1
  | 2 => exact h2
  | 3 => exact h3

/-- BITBUF after the first `n` words of a bit string have been stored, as the writes of WRBITS leave it
(`foldl_serveInput_bitWords`). -/
def storeBitWords (m : Memory) (b : List Bool) : Nat → Memory
  | 0 => m
  | n + 1 => writeWord (storeBitWords m b n) (bitBase + 4 * n) (bitWord b n)

theorem memRead_storeBitWords_outside (m : Memory) (b : List Bool) (n : Nat) {a : Nat}
    (h : a < bitBase ∨ bitBase + 4 * n ≤ a) : memRead (storeBitWords m b n) a = memRead m a := by
  induction n with
  | zero => rfl
  | succ n ih => rw [storeBitWords, memRead_writeWord_outside _ _ (by omega), ih (by omega)]

theorem readWord_storeBitWords (m : Memory) (b : List Bool) {n k : Nat} (hk : k < n) :
    readWord (storeBitWords m b n) (bitBase + 4 * k) = some (bitWord b k) := by
  induction n with
  | zero => omega
  | succ n ih =>
    rw [storeBitWords]
    rcases Nat.lt_succ_iff_lt_or_eq.mp hk with hlt | rfl
    · rw [← ih hlt]
      exact readWord_congr fun j hj => memRead_writeWord_outside _ _ (by omega)
    · exact readWord_writeWord _ _ _

/-- Each bit of the string whose word is stored stands in its byte of BITBUF. -/
theorem bitByteIs_storeBitWords (m : Memory) {b : List Bool} {n i : Nat} (hi : i < b.length) (hn : i / 4 < n) :
    BitByteIs (storeBitWords m b n) i (bitCode b[i]) := by
  rw [← readBitByte_eq_some, readBitByte, readWord_storeBitWords m b hn, Option.map_some,
    bitWord_byte b (i / 4) (Nat.mod_lt i (by decide)), Nat.div_add_mod, bitChar_of_lt hi]

/-- An idle write of a word of BITBUF stores it. -/
theorem serveInput_write_bitbuf {s : State} (idle : s.busy = false) {k : Nat} (hk : 4 * k < bitBytes) (v : Word) :
    serveInput s (.write 32 (BitVec.ofNat 32 (bitBase + 4 * k)) v) =
      { s with mem := writeWord s.mem (bitBase + 4 * k) v } := by
  have hmax := bitBytes_le
  have hbase : bitBase = 0x10000000 := rfl
  have htx : txBase = 0x30000000 := rfl
  have hoff : (BitVec.ofNat 32 (bitBase + 4 * k)).toNat = bitBase + 4 * k := by rw [BitVec.toNat_ofNat]; omega
  have hin : InBuffers (bitBase + 4 * k) := .inl ⟨by omega, by omega⟩
  calc serveInput s (.write 32 (BitVec.ofNat 32 (bitBase + 4 * k)) v)
      = { s with mem := writeWord s.mem (BitVec.ofNat 32 (bitBase + 4 * k)).toNat v } :=
        hostWrite_of_writable v idle (by omega) (by rwa [hoff]) (by omega)
    _ = { s with mem := writeWord s.mem (bitBase + 4 * k) v } := by rw [hoff]

/-- The buffer writes of WRBITS store the words one after the other, and change nothing else. -/
theorem foldl_serveInput_bitWords {s : State} (idle : s.busy = false) (b : List Bool) {n : Nat} (hn : 4 * n ≤ bitBytes) :
    ((List.range n).flatMap fun k => wr32 (bitBase + 4 * k) (bitWord b k)).foldl serveInput s =
      { s with mem := storeBitWords s.mem b n } := by
  induction n with
  | zero => rfl
  | succ n ih =>
    rw [List.range_succ, List.flatMap_append, List.foldl_append, ih (by omega), List.flatMap_singleton]
    exact serveInput_write_bitbuf (s := { s with mem := storeBitWords s.mem b n }) idle (by omega) _

/-- An idle write of BIT_LEN stores it (R31). -/
theorem serveInput_write_bitLen {s : State} (idle : s.busy = false) (v : Word) :
    serveInput s (.write 32 (BitVec.ofNat 32 0x008) v) = { s with bitLen := v } :=
  hostWrite_reg (off := BitVec.ofNat 32 0x008) v idle (by decide) (by decide)

/-- WRBITS on an idle block: the words of the bit string in BITBUF, and its length in BIT_LEN. -/
theorem foldl_serveInput_wrbits {s : State} (idle : s.busy = false) {b : List Bool} (hmax : b.length ≤ Config.maxBits) :
    (wrbits b).foldl serveInput s =
      { s with mem := storeBitWords s.mem b ((b.length + 3) / 4), bitLen := BitVec.ofNat 32 b.length } := by
  have hfit : 4 * ((b.length + 3) / 4) ≤ bitBytes := by unfold bitBytes; omega
  rw [wrbits, List.foldl_append, foldl_serveInput_bitWords idle b hfit]
  exact serveInput_write_bitLen (s := { s with mem := storeBitWords s.mem b ((b.length + 3) / 4) }) idle _

/-- Settles O18: the bytes of the stored words are the bits, and only those words and BIT_LEN are written. -/
theorem writingBitsLoadsThem : Obligations.WritingBitsLoadsThem := by
  intro s b idle hpos hmax
  have hlen : b.length = (BitVec.ofNat 32 b.length).toNat := by
    have := Config.maxBits_le
    rw [BitVec.toNat_ofNat]
    omega
  exact ⟨_, foldl_serveInput_wrbits idle hmax,
    { length := hlen
      positive := hpos
      fits := hmax
      bytes := fun i hi => bitByteIs_storeBitWords s.mem hi (by omega) },
    rfl, fun a houtside => memRead_storeBitWords_outside s.mem b _ houtside⟩

end Sys2Proof.Machine
end

section
/-! The commands (40_command.md): acceptance, the step that completes, and that a BUSY block completes; what a completion leaves
unchanged; the outcome of each family as one kind of function; and the errors of the analog commands and of INTERP.LINEAR. -/

namespace Sys2Proof.Machine

/-! ### Acceptance and the completing step (R87, R88, R90) -/

/-- Settles O9: the write is the acceptance, with the delay it draws. -/
theorem acceptanceOnCmdWrite : Obligations.AcceptanceOnCmdWrite :=
  fun s w idle => ⟨Config.busyDelay s.draws, hostWrite_cmd idle w⟩

/-- An unmarked block whose completion is due takes the completion step. -/
theorem step_of_due {s : State} (hf : s.faultMark = false) (hd : completionDue s = true) : step s = completeCommand s := by
  simp [step, stepBlock, hf, hd]

theorem completeCommand_of_decode {s : State} {i : Instr} (h : decode s.cmd = .ok i) : completeCommand s = exec i s := by
  rw [completeCommand, h]

theorem decode_of_decodeTableWord {nbits w : Nat} {i : Instr} (h : decodeTableWord nbits w = some i) :
    decode (BitVec.ofNat 32 (w % 2 ^ nbits)) = .ok i := by
  unfold decodeTableWord at h
  split at h
  next j hj => rw [hj, Option.some.inj h]
  next => cases h

theorem completionDue_loadCommand (s : State) (w : Word) : completionDue (loadCommand s w) = true :=
  (completionDue_iff _).mpr ⟨busyBit_statusBusy, .inl rfl⟩

/-- Settles O4: the step completes the word in CMD, which decodes to the command. -/
theorem stepRunsDecodedCommand : Obligations.StepRunsDecodedCommand := by
  refine ⟨fun s i hf busy hdue _ hi => ?_, fun s nbits w i hi => ?_⟩
  · rw [step_of_due hf ((completionDue_iff s).mpr ⟨busy, hdue⟩), completeCommand_of_decode hi]
  · rw [State.withFetchWord, step_of_due rfl (completionDue_loadCommand s _)]
    exact completeCommand_of_decode (decode_of_decodeTableWord hi)

/-! ### A BUSY block completes (R88, R193) -/

/-- The block waits for nothing more: it is not BUSY, or it is marked. -/
def Settled (s : State) : Prop := s.faultMark = true ∨ s.busy = false

theorem settled_of_completion {s t : State} {i : Instr} (hc : Completion i s t) : Settled t := by
  cases hc with
  | signal | result => exact .inr busyBit_statusDone
  | error e => exact .inr (by rw [State.busy, errorCompletion_status, busyBit_statusError])
  | unwritten => exact .inl rfl

/-- A completion step always answers a next state, and leaves the block settled. -/
theorem exists_completeCommand (s : State) : ∃ t, completeCommand s = .next t ∧ Settled t := by
  cases hd : decode s.cmd with
  | ok i =>
    obtain ⟨t, run, hc⟩ := exec_completion i s
    exact ⟨t, (completeCommand_of_decode hd).trans run, settled_of_completion hc⟩
  | error e => exact ⟨_, completeCommand_of_decode_error hd, .inr (show busyBit 0x00000306 = false by decide)⟩

/-- Serving an input settles a BUSY block or leaves its countdown alone. -/
theorem settled_or_busyLeft_of_serveInput {s : State} (busy : s.busy = true) (i : HostInput) :
    Settled (serveInput s i) ∨ (serveInput s i).busyLeft = s.busyLeft := by
  rcases serveInput_busy busy i with rfl | h | h | h | ⟨v, h⟩
  · exact .inl (.inr (show busyBit 0 = false by decide))
  all_goals rw [h]
  · exact .inl (.inl rfl)
  all_goals exact .inr rfl

/-- A step of an unmarked BUSY block settles it or counts down. -/
theorem settled_or_busyLeft_of_step {s : State} (busy : s.busy = true) (hf : s.faultMark = false) :
    ∃ t, step s = .next t ∧ (Settled t ∨ t.busyLeft < s.busyLeft) := by
  cases hd : completionDue s with
  | true =>
    obtain ⟨t, run, ht⟩ := exists_completeCommand s
    exact ⟨t, (step_of_due hf hd).trans run, .inl ht⟩
  | false =>
    have waiting : ¬(s.busyLeft = 0 ∨ s.inputs = []) := fun h =>
      absurd (hd.symm.trans ((completionDue_iff s).mpr ⟨busy, h⟩)) (by decide)
    obtain ⟨hl, hi⟩ := not_or.mp waiting
    obtain ⟨i, rest, hi⟩ := List.exists_cons_of_ne_nil hi
    refine ⟨_, (step_of_not_due hf hd).trans (hostStep_of_input hi), ?_⟩
    refine (settled_or_busyLeft_of_serveInput (s := takeInput s rest) busy i).imp_right fun h => ?_
    rw [h, takeInput_of_busy busy]
    exact Nat.sub_one_lt hl

theorem run_succ_of_step {M : Host.Core} {s t : M.State} (h : M.step s = .next t) (k : Nat) : M.run (k + 1) s = M.run k t := by
  rw [Host.Core.run, h]

/-- The countdown bounds the steps until a BUSY block is settled. -/
theorem exists_run_settled {n : Nat} {s : State} (hn : s.busyLeft ≤ n) (busy : s.busy = true) (hf : s.faultMark = false) :
    ∃ k ≤ n + 1, ∃ t, Host.Core.run core k s = .next t ∧ Settled t := by
  induction n generalizing s with
  | zero =>
    obtain ⟨t, hstep, ht | hlt⟩ := settled_or_busyLeft_of_step busy hf
    · exact ⟨1, le_rfl, t, run_succ_of_step (M := core) hstep 0, ht⟩
    · omega
  | succ n ih =>
    obtain ⟨t, hstep, ht⟩ := settled_or_busyLeft_of_step busy hf
    by_cases settled : Settled t
    · exact ⟨1, by omega, t, run_succ_of_step (M := core) hstep 0, settled⟩
    · have hlt := ht.resolve_left settled
      obtain ⟨unmarked, busy'⟩ := not_or.mp settled
      obtain ⟨k, hk, u, hrun, hu⟩ := ih (s := t) (by omega) (eq_true_of_ne_false busy') (eq_false_of_ne_true unmarked)
      exact ⟨k + 1, by omega, u, (run_succ_of_step (M := core) hstep k).trans hrun, hu⟩

/-- Settles O10, by the countdown. -/
theorem busyBlockStopsBeingBusy : Obligations.BusyBlockStopsBeingBusy :=
  fun _ busy hf => exists_run_settled le_rfl busy hf

/-! ### What a completion leaves unchanged (R88, R94, R106, R171) -/

theorem sameParameters_of_completion {s t : State} {i : Instr} (hc : Completion i s t) : SameParameters s t := by
  cases hc with
  | signal r fits => exact (commitSignal_committed s fits).parameters
  | error e => constructor <;> simp
  | result | unwritten => constructor <;> rfl

/-- No completion changes a byte outside the three point buffers. -/
theorem memRead_outside_of_completion {s t : State} {i : Instr} (hc : Completion i s t) {a : Nat}
    (ha : a < inBase ∨ outBase + 0x10000000 ≤ a) : memRead t.mem a = memRead s.mem a := by
  cases hc with
  | signal r fits => exact (commitSignal_committed s fits).elsewhere a ha
  | error e => rw [errorCompletion_mem]
  | result | unwritten => rfl

/-- An error of INTERP keeps the counts (R171). -/
theorem errorCompletion_interp (s : State) (e : ErrorCode) :
    errorCompletion s (some .interp) e = { s with status := statusError e } := if_pos rfl

theorem interp_completion_frame {s t : State} (hc : Completion .interpLinear s t) :
    t = { s with result := t.result, status := t.status, faultMark := t.faultMark } := by
  cases hc with
  | signal _ _ family => exact absurd rfl family
  | error e => exact errorCompletion_interp s e
  | result | unwritten => rfl

theorem result_of_completion {s t : State} {i : Instr} (hi : i ≠ .interpLinear) (hc : Completion i s t) :
    t.result = s.result := by
  cases hc with
  | result _ instr => exact absurd instr hi
  | error e => exact errorCompletion_result s _ e
  | signal | unwritten => rfl

/-- A commit changes only the bytes of the Points it stores, as its counts give them. -/
theorem memRead_commitSignal_of_counts {s : State} {r : Signal} (fits : r.Fits) {a : Nat}
    (hin : ¬(inBase ≤ a ∧ a < inBase + 16 * (commitSignal s r).inCount.toNat))
    (htx : ¬(txBase ≤ a ∧ a < txBase + 16 * (commitSignal s r).txCount.toNat))
    (hout : ¬(outBase ≤ a ∧ a < outBase + 16 * (commitSignal s r).outCount.toNat)) :
    memRead (commitSignal s r).mem a = memRead s.mem a := by
  have h := commitSignal_committed s fits
  rw [h.inCount] at hin
  rw [h.txCount] at htx
  rw [h.outCount] at hout
  exact memRead_commitSignal s a (by omega) (by omega) (by omega)

/-- A completion without DONE alone changes no byte of memory, nor RESULT or CALC_TIME. -/
theorem unchanged_of_not_done {s t : State} {i : Instr} (hc : Completion i s t) (ht : t.status ≠ 0x00000002) :
    t.mem = s.mem ∧ t.result = s.result ∧ t.calcTime = s.calcTime := by
  cases hc with
  | signal | result => exact absurd rfl ht
  | error e => exact ⟨errorCompletion_mem s _ e, errorCompletion_result s _ e, errorCompletion_calcTime s _ e⟩
  | unwritten => exact ⟨rfl, rfl, rfl⟩

/-- Settles O26, clause by clause from the four completions. -/
theorem commandFrame : Obligations.CommandFrame := by
  intro i s t hs run
  have hc := completion_of_exec run
  refine ⟨sameParameters_of_completion hc, fun a => memRead_outside_of_completion hc, fun hi => ?_,
    fun hi => result_of_completion hi hc, fun ht => ?_, unchanged_of_not_done hc⟩
  · subst hi
    exact interp_completion_frame hc
  · cases hc with
    | signal r fits => exact ⟨rfl, fun _ _ => memRead_commitSignal_of_counts fits⟩
    | result _ instr => exact ⟨rfl, fun hi => absurd instr hi⟩
    | error e => exact absurd ((errorCompletion_status s _ e).symm.trans ht) (statusError_ne_done e)
    | unwritten => exact absurd (hs.symm.trans ht) (by decide)

/-! ### The commands but INTERP.LINEAR, as functions of their operands (R90, R96 to R98) -/

/-- Two states that differ at most in CALC_TIME and the model's own fields (logs 1, 2 and 14). -/
def SameButCalcTime (s t : State) : Prop :=
  ∃ calcTime inputs busyLeft hostReads draws, t = { s with
    calcTime := calcTime, inputs := inputs, busyLeft := busyLeft, hostReads := hostReads, draws := draws }

/-- `outcome` is the function of the state by which `i` completes: it reads neither CALC_TIME nor the model's own fields, and each
result fits, has input and transmitted Points, and outside A2D gives back its input. -/
structure SignalCommand (i : Instr) (outcome : State → Except Stop Signal) : Prop where
  run : ∀ s, exec i s = .next (finishSignal s i.family (outcome s))
  congr : ∀ {s t}, SameButCalcTime s t → outcome t = outcome s
  fits : ∀ {s r}, outcome s = .ok r → r.Fits
  positive : ∀ {s r}, outcome s = .ok r → 0 < r.input.length ∧ 0 < r.transmitted.length
  output : i.family ≠ .a2d → ∀ {s r}, outcome s = .ok r → r.output = r.input

/-- The transmitted sequence is not empty and fits its buffer. -/
def Transmittable (tx : List Point) : Prop := 0 < tx.length ∧ tx.length ≤ Config.maxPoints

theorem transmittable_flat {s : State} {b : List Bool} (h : BitsLoaded s b) {vs : List F64} (hv : vs.length = b.length) :
    Transmittable (flatSegs 0 vs) :=
  ⟨by rw [flatSegs_length, hv]; exact Nat.mul_pos (by decide) h.positive, flat_fits h hv⟩

theorem transmittable_split {s : State} {b : List Bool} (h : BitsLoaded s b) {vs : List (F64 × F64)} (hv : vs.length = b.length) :
    Transmittable (splitSegs 0 vs) :=
  ⟨by rw [splitSegs_length, hv]; exact Nat.mul_pos (by decide) h.positive, split_fits h hv⟩

theorem transmittable_binary {s : State} {b : List Bool} (h : BitsLoaded s b) (y : Nat → F64 → F64) :
    Transmittable (binaryGrid b y) :=
  ⟨by rw [binaryGrid_length]; exact Nat.succ_pos _, binary_fits h y⟩

theorem transmittable_symbol {s : State} {b : List Bool} (h : BitsLoaded s b) {k : Nat} (hk : 0 < k) (hk4 : k ≤ 4)
    (y : List Bool → F64 → F64) : Transmittable (symbolGrid b k y) :=
  ⟨by rw [symbolGrid_length b hk]; exact Nat.succ_pos _, symbol_fits h hk hk4 y⟩

theorem transmittable_oqpsk {s : State} {b : List Bool} (h : BitsLoaded s b) : Transmittable (oqpskTx b) :=
  ⟨by rw [oqpskTx_length]; exact Nat.succ_pos _, oqpsk_fits h⟩

/-- A LINE command is given by its transmitted sequence (R107). -/
theorem signalCommand_line {i : Instr} {tx : Word → List Bool → List Point}
    (run : ∀ s, exec i s = .next (finishSignal s i.family (lineOutcome s tx)))
    (htx : ∀ {s b}, BitsLoaded s b → Transmittable (tx s.cfgInit b)) : SignalCommand i fun s => lineOutcome s tx where
  run := run
  congr := by rintro s t ⟨_, _, _, _, _, rfl⟩; rfl
  fits h := by
    obtain ⟨b, hb, rfl⟩ := (lineOutcome_eq_ok _ tx _).mp h
    exact digitalSignal_fits hb (htx hb).2
  positive h := by
    obtain ⟨b, hb, rfl⟩ := (lineOutcome_eq_ok _ tx _).mp h
    exact ⟨by rw [digitalSignal, digitalInput_length]; exact Nat.mul_pos (by decide) hb.positive, (htx hb).1⟩
  output _ _ _ h := by
    obtain ⟨b, -, rfl⟩ := (lineOutcome_eq_ok _ tx _).mp h
    rfl

/-- A DMOD command is given by its transmitted sequence, which reads no CFG_INIT (R126). -/
theorem signalCommand_dmod {i : Instr} {tx : List Bool → List Point}
    (run : ∀ s, exec i s = .next (finishSignal s i.family (dmodOutcome s tx)))
    (htx : ∀ {s b}, BitsLoaded s b → Transmittable (tx b)) : SignalCommand i fun s => dmodOutcome s tx :=
  signalCommand_line (tx := fun _ => tx) run htx

/-- An AMOD command is given by its sample (R157). -/
theorem signalCommand_amod {i : Instr} {y : F64 → F64 → F64 → F64 → F64}
    (run : ∀ s, exec i s = .next (finishSignal s i.family (amodOutcome s y))) : SignalCommand i fun s => amodOutcome s y where
  run := run
  congr := by rintro s t ⟨_, _, _, _, _, rfl⟩; rfl
  fits h := by
    obtain ⟨-, -, rfl⟩ := (amodOutcome_eq_ok _ y _).mp h
    exact amod_fits _ _ y
  positive h := by
    obtain ⟨-, -, rfl⟩ := (amodOutcome_eq_ok _ y _).mp h
    simp [amodSignal]
  output _ _ _ h := by
    obtain ⟨-, -, rfl⟩ := (amodOutcome_eq_ok _ y _).mp h
    rfl

theorem isPositiveFinite_iff (x : F64) : isPositiveFinite x = true ↔ PositiveFinite x :=
  iff_of_eq (Bool.and_eq_true _ _)

/-- A legal rate is a positive pattern below infinity. -/
theorem nonnegFinite_of_isPositiveFinite {x : F64} (h : isPositiveFinite x = true) : NonnegFinite x ∧ x.toNat ≠ 0 := by
  obtain ⟨hfin, hpos⟩ := (isPositiveFinite_iff x).mp h
  obtain ⟨-, -, hkey⟩ := (flt_iff 0 x).mp hpos
  have hlow := (isFinite_iff x).mp hfin
  have hzero : fkey 0 = 0 := by decide
  rw [hzero, fkey_eq, fsign_eq] at hkey
  unfold NonnegFinite
  unfold lowBits at hkey hlow
  by_cases hsign : 2 ^ 63 ≤ x.toNat
  · rw [decide_eq_true hsign, if_pos rfl] at hkey
    omega
  · omega

theorem le_countInstants (fs : F64) (fuel k : Nat) : k ≤ countInstants fs fuel k := by
  induction fuel generalizing k with
  | zero => exact le_rfl
  | succ n ih =>
    rw [countInstants]
    split
    · exact (Nat.le_succ k).trans (ih (k + 1))
    · exact le_rfl

/-- The instant 0 is always sampled (R146). -/
theorem instantCount_pos {fs : F64} (h : isPositiveFinite fs = true) : 0 < instantCount fs := by
  obtain ⟨hfin, hne⟩ := nonnegFinite_of_isPositiveFinite h
  have hfirst : fle (sampleInstant fs 0) tEnd = true := by
    rw [sampleInstant_zero_toNat hfin hne, tEnd_eq]
    decide +kernel
  rw [instantCount, countInstants, if_pos hfirst]
  exact le_countInstants fs _ 1

theorem signalCommand_pcm : SignalCommand .a2dPcm pcmOutcome where
  run _ := rfl
  congr := by rintro s t ⟨_, _, _, _, _, rfl⟩; rfl
  fits h := by
    obtain ⟨-, -, -, -, hk, rfl⟩ := (pcmOutcome_eq_ok _ _).mp h
    exact pcm_fits hk
  positive h := by
    obtain ⟨-, -, hfs, -, -, rfl⟩ := (pcmOutcome_eq_ok _ _).mp h
    simpa [pcmSignal] using instantCount_pos hfs
  output hi := absurd rfl hi

theorem signalCommand_delta : SignalCommand .a2dDelta deltaOutcome where
  run _ := rfl
  congr := by rintro s t ⟨_, _, _, _, _, rfl⟩; rfl
  fits h := by
    obtain ⟨-, -, -, -, hk, rfl⟩ := (deltaOutcome_eq_ok _ _).mp h
    exact delta_fits hk
  positive h := by
    obtain ⟨-, -, hfs, -, -, rfl⟩ := (deltaOutcome_eq_ok _ _).mp h
    simpa [deltaSignal] using instantCount_pos hfs
  output hi := absurd rfl hi

/-- Every command but INTERP.LINEAR completes by such a function. -/
theorem exists_signalCommand {i : Instr} (hi : i ≠ .interpLinear) : ∃ outcome, SignalCommand i outcome := by
  cases i
  case lineNrzL | lineNrzI | lineAmi | linePseudoternary | lineB8zs | lineHdb3 =>
    exact ⟨_, signalCommand_line (fun _ => rfl) fun h => transmittable_flat h (by simp)⟩
  case lineManchester | lineDiffManchester =>
    exact ⟨_, signalCommand_line (fun _ => rfl) fun h => transmittable_split h (by simp)⟩
  case dmodAsk | dmodFsk | dmodPsk | dmodBfsk | dmodBpsk | dmodDpsk =>
    exact ⟨_, signalCommand_dmod (fun _ => rfl) fun h => transmittable_binary h _⟩
  case dmodMfsk | dmodQpsk | dmodMpsk | dmodQam =>
    exact ⟨_, signalCommand_dmod (fun _ => rfl) fun h => transmittable_symbol h (by decide) (by decide) _⟩
  case dmodOqpsk => exact ⟨_, signalCommand_dmod (fun _ => rfl) transmittable_oqpsk⟩
  case a2dPcm => exact ⟨_, signalCommand_pcm⟩
  case a2dDelta => exact ⟨_, signalCommand_delta⟩
  case amodAm | amodFm | amodPm => exact ⟨_, signalCommand_amod fun _ => rfl⟩
  case interpLinear => exact absurd rfl hi

/-- A BUSY block that reports DONE without an error has committed the result of its command. -/
theorem SignalCommand.committed {i : Instr} {outcome : State → Except Stop Signal} (c : SignalCommand i outcome) {s t : State}
    (hs : s.status = 0x00000001) (run : exec i s = .next t) (ht : t.status = 0x00000002) :
    ∃ r, outcome s = .ok r ∧ SignalCommitted s t r.input r.transmitted r.output := by
  rw [c.run] at run
  cases run
  revert ht
  refine finishSignal_cases (P := fun t => t.status = 0x00000002 →
    ∃ r, outcome s = .ok r ∧ SignalCommitted s t r.input r.transmitted r.output) (fun r hr _ => ?_) (fun e ht => ?_) fun ht => ?_
  · exact ⟨r, hr, commitSignal_committed s (c.fits hr)⟩
  · exact absurd ((errorCompletion_status s _ e).symm.trans ht) (statusError_ne_done e)
  · exact absurd (hs.symm.trans ht) (by decide)

/-- Settles O55: OUTBUF and INBUF are committed from the same Points. -/
theorem outputEqualsInput : Obligations.OutputEqualsInput := by
  intro i s t hi hs run ht
  obtain ⟨outcome, c⟩ := exists_signalCommand (i := i) (by rintro rfl; revert hi; decide)
  obtain ⟨r, hr, h⟩ := c.committed hs run ht
  have hsame : r.output = r.input := c.output (by rcases hi with hi | hi | hi <;> rw [hi] <;> decide) hr
  rw [hsame] at h
  refine ⟨BitVec.eq_of_toNat_eq (h.outCount.trans h.inCount.symm), fun k hk => ?_⟩
  rw [h.inCount] at hk
  exact ⟨r.input[k], h.inBuffer.1 k hk, h.outBuffer.1 k hk⟩

/-- Settles O56: the counts are the lengths of sequences that are not empty. -/
theorem successCountsPositive : Obligations.SuccessCountsPositive := by
  intro i s t hi hs run ht
  obtain ⟨outcome, c⟩ := exists_signalCommand hi
  obtain ⟨r, hr, h⟩ := c.committed hs run ht
  rw [h.inCount, h.txCount]
  exact c.positive hr

/-- An outcome is committed in the same way whatever CALC_TIME and the model's own fields are. -/
theorem sameButCalcTime_finishSignal {s t : State} (h : SameButCalcTime s t) (fam : Family) (o : Except Stop Signal) :
    SameButCalcTime (finishSignal s fam o) (finishSignal t fam o) := by
  obtain ⟨_, _, _, _, _, rfl⟩ := h
  match o with
  | .ok r => exact ⟨_, _, _, _, _, rfl⟩
  | .error .unwritten => exact ⟨_, _, _, _, _, rfl⟩
  | .error (.error e) =>
    simp only [finishSignal, errorCompletion]
    split <;> exact ⟨_, _, _, _, _, rfl⟩

theorem sameButCalcTime_finishResult {s t : State} (h : SameButCalcTime s t) (o : Except Stop F64) :
    SameButCalcTime (finishResult s o) (finishResult t o) := by
  obtain ⟨_, _, _, _, _, rfl⟩ := h
  match o with
  | .ok v => exact ⟨_, _, _, _, _, rfl⟩
  | .error .unwritten => exact ⟨_, _, _, _, _, rfl⟩
  | .error (.error e) => exact ⟨_, _, _, _, _, rfl⟩

theorem interpOutcome_congr {s t : State} (h : SameButCalcTime s t) : interpOutcome t = interpOutcome s := by
  obtain ⟨_, _, _, _, _, rfl⟩ := h
  rfl

/-- From two states that differ at most in CALC_TIME and the model's own fields, a command answers two such states. -/
theorem exec_sameButCalcTime (i : Instr) {s s' t : State} (h : SameButCalcTime s s') (run : exec i s = .next t) :
    ∃ t', exec i s' = .next t' ∧ SameButCalcTime t t' := by
  by_cases hi : i = .interpLinear
  · subst hi
    cases run
    refine ⟨_, rfl, ?_⟩
    rw [interpOutcome_congr h]
    exact sameButCalcTime_finishResult h _
  · obtain ⟨outcome, c⟩ := exists_signalCommand hi
    rw [c.run] at run
    cases run
    refine ⟨_, c.run s', ?_⟩
    rw [c.congr h]
    exact sameButCalcTime_finishSignal h _ _

/-- Settles O27: the outcome reads none of the fields that vary, and its commit writes none of what is compared from them. -/
theorem deterministicUpToDraw : Obligations.DeterministicUpToDraw := by
  intro i s t oldTime inputs busyLeft hostReads draws run
  obtain ⟨_, run', _, _, _, _, _, rfl⟩ := exec_sameButCalcTime i ⟨oldTime, inputs, busyLeft, hostReads, draws, rfl⟩ run
  exact ⟨_, run', rfl, rfl, rfl, rfl, rfl, rfl, rfl⟩

/-! ### The parameter errors of A2D and AMOD (R92, R148) -/

/-- An error of a family other than INTERP zeroes the counts (R171). -/
theorem errorCompletion_zeroed (s : State) {fam : Family} (hfam : fam ≠ .interp) (e : ErrorCode) :
    errorCompletion s (some fam) e = zeroedError s (statusError e) := if_neg (by simpa using hfam)

theorem checkAnalog_eq_ok {s : State} (hf : PositiveFinite s.freq) (ha : PositiveFinite s.ampl) : checkAnalog s = .ok () := by
  rw [checkAnalog_eq, (isPositiveFinite_iff _).mpr hf, (isPositiveFinite_iff _).mpr ha]
  rfl

theorem checkAnalog_eq_error {s : State} (h : ¬ PositiveFinite s.freq ∨ ¬ PositiveFinite s.ampl) :
    checkAnalog s = .error (.error .invalidParameter) := by
  rw [checkAnalog_eq, if_neg]
  rwa [Bool.and_eq_true, isPositiveFinite_iff, isPositiveFinite_iff, not_and_or]

theorem checkPcmConfig_eq_error {s : State} (h : ¬ PositiveFinite s.srate ∨ s.qlevels.toNat < 2) :
    checkPcmConfig s = .error (.error .invalidParameter) := by
  rw [checkPcmConfig_eq, if_neg]
  rwa [Bool.and_eq_true, isPositiveFinite_iff, decide_eq_true_iff, not_and_or, Nat.not_le]

theorem checkDeltaConfig_eq_error {s : State}
    (h : ¬ PositiveFinite s.srate ∨ ¬(flt 0 s.deltaRatio = true ∧ fle s.deltaRatio 0x3FF0000000000000 = true)) :
    checkDeltaConfig s = .error (.error .invalidParameter) := by
  rw [checkDeltaConfig_eq, if_neg]
  rwa [Bool.and_eq_true, Bool.and_eq_true, isPositiveFinite_iff, not_and_or, fone_eq]

/-- A2D.PCM with legal FREQ and AMPL whose own check fails does nothing but end with that failure. -/
theorem exec_pcm_of_config_error {s : State} {e : Stop} (ha : checkAnalog s = .ok ()) (h : checkPcmConfig s = .error e) :
    exec .a2dPcm s = .next (finishSignal s .a2d (.error e)) := by
  simp only [exec, execA2dPcm, pcmOutcome, ha, h]
  rfl

/-- A2D.DELTA with legal FREQ and AMPL whose own check fails does nothing but end with that failure. -/
theorem exec_delta_of_config_error {s : State} {e : Stop} (ha : checkAnalog s = .ok ()) (h : checkDeltaConfig s = .error e) :
    exec .a2dDelta s = .next (finishSignal s .a2d (.error e)) := by
  simp only [exec, execA2dDelta, deltaOutcome, ha, h]
  rfl

/-- What the three kinds of completion neither read nor write, the commit of an outcome neither reads nor writes. -/
theorem finishSignal_update {s : State} {update : State → State}
    (hcommit : ∀ r, commitSignal (update s) r = update (commitSignal s r))
    (herror : ∀ w, zeroedError (update s) w = update (zeroedError s w))
    (hmark : setFaultMark (update s) = update (setFaultMark s)) {fam : Family} (hfam : fam ≠ .interp) (o : Except Stop Signal) :
    finishSignal (update s) fam o = update (finishSignal s fam o) := by
  match o with
  | .ok r => exact hcommit r
  | .error .unwritten => exact hmark
  | .error (.error e) => simp only [finishSignal, errorCompletion_zeroed _ hfam, herror]

theorem exec_pcm_deltaRatio (s : State) (x : F64) :
    exec .a2dPcm { s with deltaRatio := x } = .next { finishSignal s .a2d (pcmOutcome s) with deltaRatio := x } := by
  have unread : pcmOutcome { s with deltaRatio := x } = pcmOutcome s := rfl
  rw [signalCommand_pcm.run, unread]
  exact congrArg Host.Outcome.next (finishSignal_update (update := fun s => { s with deltaRatio := x })
    (fun _ => rfl) (fun _ => rfl) rfl (by decide) _)

theorem exec_delta_qlevels (s : State) (n : Word) :
    exec .a2dDelta { s with qlevels := n } = .next { finishSignal s .a2d (deltaOutcome s) with qlevels := n } := by
  have unread : deltaOutcome { s with qlevels := n } = deltaOutcome s := rfl
  rw [signalCommand_delta.run, unread]
  exact congrArg Host.Outcome.next (finishSignal_update (update := fun s => { s with qlevels := n })
    (fun _ => rfl) (fun _ => rfl) rfl (by decide) _)

/-- Settles O46: the checks in their order, each the first that fails. -/
theorem analogParameterErrors : Obligations.AnalogParameterErrors := by
  refine ⟨fun i hi s h => ?_, fun s hf ha => ⟨fun h => ?_, fun h => ?_⟩, fun s x n => ?_⟩
  · rw [exec_of_checkAnalog_error hi (checkAnalog_eq_error h)]
    have hfam : i.family ≠ .interp := by rcases hi with hi | hi <;> rw [hi] <;> decide
    exact congrArg Host.Outcome.next (errorCompletion_zeroed s hfam .invalidParameter)
  · rw [exec_pcm_of_config_error (checkAnalog_eq_ok hf ha) (checkPcmConfig_eq_error h)]
    rfl
  · rw [exec_delta_of_config_error (checkAnalog_eq_ok hf ha) (checkDeltaConfig_eq_error h)]
    rfl
  · exact ⟨_, _, rfl, rfl, exec_pcm_deltaRatio s x, exec_delta_qlevels s n⟩

/-! ### INTERP.LINEAR (R101, R105, R106) -/

theorem exec_interpLinear (s : State) : exec .interpLinear s = .next (finishResult s (interpOutcome s)) := rfl

theorem interp_of_le_first {ps : List Point} {t : F64} (h : fle t (pointAt ps 0).x = true) :
    interp ps t = (pointAt ps 0).y := if_pos h

theorem interp_of_ge_last {ps : List Point} {t : F64} (hfirst : fle t (pointAt ps 0).x = false)
    (hlast : fle (pointAt ps (ps.length - 1)).x t = true) : interp ps t = (pointAt ps (ps.length - 1)).y := by
  rw [interp, if_neg (by simp [hfirst]), if_pos hlast]

theorem readPoints_of_count_error {s : State} (h : s.inCount.toNat = 0 ∨ Config.maxPoints < s.inCount.toNat) :
    readPoints s = .error (.error .invalidInput) := if_pos h

theorem readPoints_of_unreadable {s : State} (hmax : s.inCount.toNat ≤ Config.maxPoints)
    (h : ∃ k < s.inCount.toNat, readPoint s.mem (inBase + 16 * k) = none) : readPoints s = .error .unwritten := by
  obtain ⟨k, hk, hnone⟩ := h
  rw [readPoints, if_neg (by omega)]
  exact readPointsFrom_stop s.mem _ 0 ⟨k, hk, by rwa [Nat.zero_add]⟩

theorem interpOutcome_of_nan {s : State} {ps : List Point} (hps : PointsLoaded s ps) (hnan : isNaN s.tQuery = true) :
    interpOutcome s = .error (.error .invalidParameter) := by
  rw [interpOutcome, (readPoints_eq_ok s ps).mpr hps, hnan]
  rfl

/-- Settles O53: ReadPoints first, then the check of T_QUERY. -/
theorem interpCompletes : Obligations.InterpCompletes := by
  refine fun s => ⟨fun ps hps hquery => ⟨?_, interp_of_le_first, interp_of_ge_last⟩, fun hcount => ?_,
    fun hmax hread => ?_, fun ps hps hnan => ?_⟩
  · rw [exec_interpLinear, (interpOutcome_eq_ok s _).mpr ⟨ps, hps, hquery, rfl⟩]
    rfl
  · rw [exec_of_readPoints_error (readPoints_of_count_error hcount)]
    rfl
  · rw [exec_of_readPoints_error (readPoints_of_unreadable hmax hread)]
    rfl
  · rw [exec_interpLinear, interpOutcome_of_nan hps hnan]
    rfl

end Sys2Proof.Machine
end

section
/-! The sampler and the interpolation helper (41_sampler_interp.md): what an AMOD command makes of the 401 samples; and the search of `interp`,
which narrows a bracket of t to two neighbours, whose times have a positive difference. -/

namespace Sys2Proof.Machine

/-! ### Analog modulation (R99, R157, R160 to R162) -/

/-- An AMOD command with legal FREQ and AMPL commits the 401 samples and one transmitted Point for each (R157). -/
theorem exec_amod_committed {i : Instr} {y : F64 → F64 → F64 → F64 → F64} {s : State}
    (run : exec i s = .next (finishSignal s .amod (amodOutcome s y))) (hf : PositiveFinite s.freq) (ha : PositiveFinite s.ampl) :
    ∃ t, exec i s = .next t ∧ t.inCount = 401 ∧ t.txCount = 401 ∧ t.outCount = 401 ∧
      SignalCommitted s t (analogPoints s.freq s.ampl 200)
        ((analogPoints s.freq s.ampl 200).map fun p => ⟨p.x, y s.freq s.ampl p.x p.y⟩) (analogPoints s.freq s.ampl 200) := by
  have outcome : amodOutcome s y = .ok (amodSignal s.freq s.ampl y) :=
    (amodOutcome_eq_ok s y _).mpr ⟨(isPositiveFinite_iff _).mpr hf, (isPositiveFinite_iff _).mpr ha, rfl⟩
  rw [outcome] at run
  refine ⟨_, run, ?_, ?_, ?_, commitSignal_committed s (amod_fits _ _ y)⟩ <;> simp [finishSignal, amodSignal]

theorem amSample_eq (f amp t m : F64) : amSample f amp t m =
    fmul (fadd 0x3FF0000000000000 (fmul 0x3FE999999999999A (fdiv m amp)))
      (fsin (fmul (fmul twoPi (fmul 0x4014000000000000 f)) t)) := by
  rw [amSample, amodCarrier, f64_one_eq, fdec_four_fifths, f64_five, voltPlus]

theorem fmSample_eq (f amp t m : F64) : fmSample f amp t m =
    fsin (fadd (fmul (fmul twoPi (fmul 0x4014000000000000 f)) t)
      (fdiv (fmul (fmul (fmul twoPi (fmul 0x3FE0000000000000 (fmul 0x4014000000000000 f))) (fdiv m amp)) t) f)) := by
  rw [fmSample, amodCarrier, half_eq, f64_five]

theorem pmSample_eq (f amp t m : F64) : pmSample f amp t m =
    fsin (fadd (fmul (fmul twoPi (fmul 0x4014000000000000 f)) t) (fmul halfPi (fdiv m amp))) := by
  rw [pmSample, amodCarrier, f64_five]

/-- Settles O52: the commit of each scheme, its formula with the literals of R157 to R162. -/
theorem amodCompletes : Obligations.AmodCompletes := by
  intro s hf ha
  simp only [List.forall_mem_cons, List.not_mem_nil, false_imp_iff, implies_true, and_true]
  refine ⟨?am, ?fm, ?pm⟩
  case am =>
    simp only [← amSample_eq]
    exact exec_amod_committed rfl hf ha
  case fm =>
    simp only [← fmSample_eq]
    exact exec_amod_committed rfl hf ha
  case pm =>
    simp only [← pmSample_eq]
    exact exec_amod_committed rfl hf ha

/-! ### The order of the values that are not NaN -/

theorem flt_of_fle_eq_false {x y : F64} (hx : isNaN x = false) (hy : isNaN y = false) (h : fle x y = false) : flt y x = true := by
  refine (flt_iff y x).mpr ⟨hy, hx, not_le.mp fun hk => ?_⟩
  rw [(fle_iff x y).mpr ⟨hx, hy, hk⟩] at h
  exact absurd h (by decide)

theorem fle_trans {x y z : F64} (hxy : fle x y = true) (hyz : fle y z = true) : fle x z = true := by
  obtain ⟨hx, -, hk⟩ := (fle_iff x y).mp hxy
  obtain ⟨-, hz, hk'⟩ := (fle_iff y z).mp hyz
  exact (fle_iff x z).mpr ⟨hx, hz, hk.trans hk'⟩

@[simp] theorem fkey_fneg (x : F64) : fkey (fneg x) = -fkey x := by
  rw [fkey_eq, fkey_eq, fsign_fneg, lowBits_fneg]
  cases fsign x <;> simp

/-- Negation turns the order around. -/
theorem flt_fneg {x y : F64} (h : flt x y = true) : flt (fneg y) (fneg x) = true := by
  obtain ⟨hx, hy, hk⟩ := (flt_iff x y).mp h
  exact (flt_iff _ _).mpr ⟨by rwa [isNaN_fneg], by rwa [isNaN_fneg], by rw [fkey_fneg, fkey_fneg]; omega⟩

/-- Nothing is less than −∞. -/
theorem fkey_ge_of_not_isNaN {x : F64} (h : isNaN x = false) : -0x7FF0000000000000 ≤ fkey x := by
  rw [Bool.eq_false_iff, ne_eq, isNaN_iff] at h
  rw [fkey_eq]
  split <;> omega

/-- An infinity that is greater than some value is +∞. -/
theorem eq_plusInf_of_flt {x y : F64} (h : flt x y = true) (hy : isInf y = true) : y = signedInf false := by
  have hinf := (isInf_iff_eq_signedInf y).mp hy
  cases hs : fsign y with
  | false => rwa [hs] at hinf
  | true =>
    obtain ⟨hx, -, hk⟩ := (flt_iff x y).mp h
    have hlow := fkey_ge_of_not_isNaN hx
    have hminus : fkey (signedInf true) = -0x7FF0000000000000 := by decide
    rw [hinf, hs, hminus] at hk
    omega

/-! ### The sign of a difference -/

/-- A non-zero magnitude does not round to 0: one unit is the smallest positive binary64. -/
theorem fround_pos {n : Nat} (h : 0 < n) : flt 0 (fround false n 1) = true := by
  have hone : (0 : F64).toNat < roundBits 1 1 := by decide
  rw [flt_of_nonneg (Nat.zero_le _) (fround_nonneg n 1), fround_toNat, decide_eq_true_eq]
  exact hone.trans_le (roundBits_mono Nat.one_pos Nat.one_pos (by omega))

theorem isInf_or_isFinite {x : F64} (h : isNaN x = false) : isInf x = true ∨ isFinite x = true := by
  rw [isFinite_iff_not_isInf_or_isNaN, h]
  simp

theorem fsub_of_isInf_left {x y : F64} (h : flt x y = true) (hy : isInf y = true) : fsub y x = signedInf false := by
  obtain ⟨hx, -, -⟩ := (flt_iff x y).mp h
  rw [fsub]
  rcases isInf_or_isFinite ((isNaN_fneg x).trans hx) with hxi | hxf
  · rw [sumOr_of_isInf hy hxi, eq_plusInf_of_flt h hy, eq_plusInf_of_flt (flt_fneg h) hxi, if_pos rfl]
  · rw [sumOr_of_isInf_left hy hxf, eq_plusInf_of_flt h hy]

theorem fsub_of_isInf_right {x y : F64} (h : flt x y = true) (hx : isInf x = true) (hy : isFinite y = true) :
    fsub y x = signedInf false := by
  have hxi : isInf (fneg x) = true := (isInf_fneg x).trans hx
  rw [fsub, sumOr_of_isInf_right hy hxi, eq_plusInf_of_flt (flt_fneg h) hxi]

/-- The difference of two finite values in order rounds a positive number of units. -/
theorem fsub_of_isFinite {x y : F64} (h : flt x y = true) (hx : isFinite x = true) (hy : isFinite y = true) :
    fsub y x = fround false (fscaled y - fscaled x).natAbs 1 ∧ 0 < (fscaled y - fscaled x).natAbs := by
  obtain ⟨-, -, hk⟩ := (flt_iff x y).mp h
  have hlt : fscaled x < fscaled y := (fvalue_lt_iff x y).mp ((fkey_lt_iff hx hy).mp hk)
  rw [fsub, sumOr_of_isFinite hy (by rwa [isFinite_fneg]), fscaled_fneg, ← sub_eq_add_neg, if_neg (by omega),
    decide_eq_false (by omega)]
  exact ⟨rfl, by omega⟩

/-- The divisor of R101 is positive, infinite times included. -/
theorem fsub_pos {x y : F64} (h : flt x y = true) : flt 0 (fsub y x) = true := by
  obtain ⟨hx, hy, -⟩ := (flt_iff x y).mp h
  have hplus : flt 0 (signedInf false) = true := by decide
  rcases isInf_or_isFinite hy with hyi | hyf
  · rwa [fsub_of_isInf_left h hyi]
  · rcases isInf_or_isFinite hx with hxi | hxf
    · rwa [fsub_of_isInf_right h hxi hyf]
    · obtain ⟨hsub, hpos⟩ := fsub_of_isFinite h hxf hyf
      rw [hsub]
      exact fround_pos hpos

/-! ### The search of Interp (R101, R102) -/

/-- t is bracketed by Points `lo` and `hi`: the loop invariant of R101. -/
def Brackets (ps : List Point) (t : F64) (lo hi : Nat) : Prop :=
  fle (pointAt ps lo).x t = true ∧ fle (pointAt ps hi).x t = false

/-- From a bracket the search narrows to two neighbours that bracket t, within the first one. -/
theorem interpSearch_brackets {ps : List Point} {t : F64} {fuel lo hi : Nat} (hlt : lo < hi) (hfuel : hi - lo ≤ fuel + 1)
    (h : Brackets ps t lo hi) :
    ∃ l, interpSearch ps t fuel lo hi = (l, l + 1) ∧ l + 1 ≤ hi ∧ Brackets ps t l (l + 1) := by
  induction fuel generalizing lo hi with
  | zero =>
    obtain rfl : hi = lo + 1 := by omega
    exact ⟨lo, rfl, le_rfl, h⟩
  | succ fuel ih =>
    rw [interpSearch]
    split
    case isFalse hone =>
      obtain rfl : hi = lo + 1 := by omega
      exact ⟨lo, rfl, le_rfl, h⟩
    case isTrue hgap =>
      split
      case isTrue hmid => exact ih (by omega) (by omega) ⟨hmid, h.2⟩
      case isFalse hmid =>
        obtain ⟨l, hl, hle, hb⟩ := ih (hi := (lo + hi) / 2) (by omega) (by omega) ⟨h.1, Bool.eq_false_iff.mpr hmid⟩
        exact ⟨l, hl, by omega, hb⟩

/-- Between the ends, Interp is the line through the two Points the search answers. -/
theorem interp_of_search {ps : List Point} {t : F64} {lo hi : Nat} (hfirst : fle t (pointAt ps 0).x = false)
    (hlast : fle (pointAt ps (ps.length - 1)).x t = false) (h : interpSearch ps t ps.length 0 (ps.length - 1) = (lo, hi)) :
    interp ps t = interpBetween (pointAt ps lo) (pointAt ps hi) t := by
  rw [interp, if_neg (by simp [hfirst]), if_neg (by simp [hlast]), h]

/-- In a sorted sequence every Point from one that is after t is after t. -/
theorem after_of_sorted {ps : List Point} {t : F64} {n k : Nat}
    (sorted : ∀ k, k + 1 < ps.length → fle (pointAt ps k).x (pointAt ps (k + 1)).x = true)
    (hn : fle (pointAt ps n).x t = false) (hnk : n ≤ k) (hk : k < ps.length) : fle (pointAt ps k).x t = false := by
  induction k, hnk using Nat.le_induction with
  | base => exact hn
  | succ k _ ih =>
    refine Bool.eq_false_iff.mpr fun h => ?_
    have hprev := ih (by omega)
    rw [fle_trans (sorted k hk) h] at hprev
    exact absurd hprev (by decide)

/-- Settles O54: the ends bracket t, the search keeps the bracket, and Points in strict order have a positive difference. -/
theorem interpBracket : Obligations.InterpBracket := by
  intro ps t hlen ht hnan hfirst hlast
  have before : fle (pointAt ps 0).x t = true := fle_of_flt (flt_of_fle_eq_false ht (hnan 0 hlen) hfirst)
  have hends : 0 < ps.length - 1 := Nat.pos_of_ne_zero fun h => by
    rw [h, before] at hlast
    exact absurd hlast (by decide)
  obtain ⟨lo, hsearch, hle, hlo, hhi⟩ := interpSearch_brackets (fuel := ps.length) hends (by omega) ⟨before, hlast⟩
  have hbound : lo + 1 < ps.length := by omega
  have after : flt t (pointAt ps (lo + 1)).x = true := flt_of_fle_eq_false (hnan _ hbound) ht hhi
  exact ⟨lo, lo + 1, hsearch, rfl, hbound, hlo, after, fsub_pos (flt_of_fle_of_flt hlo after),
    interp_of_search hfirst hlast hsearch, fun sorted k hk hlt => after_of_sorted sorted hhi hlt hk⟩

end Sys2Proof.Machine
end

section
/-! Line coding (42_line_coding.md): the commands that read a bit string, and how they fail; the eight LINE commands by their transmitted
sequences; each sequence written out by bit index, or as the loop over the scan index; and what the sequences have in common. -/

namespace Sys2Proof.Machine

/-! ### ReadBits and its errors (R91, R111, R130) -/

theorem readBits_of_length_error {s : State} (h : s.bitLen.toNat = 0 ∨ Config.maxBits < s.bitLen.toNat) :
    readBits s = .error (.error .invalidInput) := if_pos h

theorem readBits_of_length_legal {s : State} (hpos : s.bitLen.toNat ≠ 0) (hmax : s.bitLen.toNat ≤ Config.maxBits) :
    readBits s = readBitsFrom s.mem s.bitLen.toNat 0 := if_neg (by omega)

/-- The loop of ReadBits stops with InvalidInput or at an unwritten byte. -/
theorem readBitsFrom_error_cases {m : Memory} {n i : Nat} {e : Stop} (h : readBitsFrom m n i = .error e) :
    e = .error .invalidInput ∨ e = .unwritten := by
  induction n generalizing i with
  | zero => cases h
  | succ n ih =>
    have next : ∀ c, (readBitsFrom m n (i + 1)).map (c :: ·) = .error e → e = .error .invalidInput ∨ e = .unwritten := by
      intro c h
      cases hr : readBitsFrom m n (i + 1) with
      | error e' => rw [hr] at h; cases h; exact ih hr
      | ok b => rw [hr] at h; cases h
    rw [readBitsFrom] at h
    split at h
    next => cases h; exact .inr rfl
    next c _ =>
      split at h
      next => exact next false h
      next =>
        split at h
        next => exact next true h
        next => cases h; exact .inl rfl

/-- ReadBits fails with InvalidInput or at an unwritten byte. -/
theorem readBits_error_cases {s : State} {e : Stop} (h : readBits s = .error e) : e = .error .invalidInput ∨ e = .unwritten := by
  rw [readBits] at h
  split at h
  next => cases h; exact .inl rfl
  next => exact readBitsFrom_error_cases h

theorem readBitsFrom_congr {m m' : Memory} {n i : Nat} (h : ∀ k, i ≤ k → k < i + n → readBitByte m' k = readBitByte m k) :
    readBitsFrom m' n i = readBitsFrom m n i := by
  induction n generalizing i with
  | zero => rfl
  | succ n ih => rw [readBitsFrom, readBitsFrom, h i le_rfl (by omega), ih fun k hk hlt => h k (by omega) (by omega)]

/-- ReadBits depends on BIT_LEN and the bytes it names alone. -/
theorem readBits_congr {s s' : State} (hlen : s'.bitLen = s.bitLen)
    (h : ∀ k < s.bitLen.toNat, readBitByte s'.mem k = readBitByte s.mem k) : readBits s' = readBits s := by
  rw [readBits, readBits, hlen, readBitsFrom_congr fun k _ hk => h k (by omega)]

theorem lineOutcome_of_loaded {s : State} {b : List Bool} (hb : BitsLoaded s b) (tx : Word → List Bool → List Point) :
    lineOutcome s tx = .ok (digitalSignal b (tx s.cfgInit b)) := (lineOutcome_eq_ok s tx _).mpr ⟨b, hb, rfl⟩

/-! ### The commands that read a bit string -/

/-- The transmitted sequence of each LINE command (R112 to R120), as `exec_line` says; a command of another family has none. -/
def lineTx : Instr → Word → List Bool → List Point
  | .lineNrzL => nrzLTx
  | .lineNrzI => nrzITx
  | .lineManchester => manchesterTx
  | .lineDiffManchester => diffManchesterTx
  | .lineAmi => amiTx
  | .linePseudoternary => pseudoternaryTx
  | .lineB8zs => b8zsTx
  | .lineHdb3 => hdb3Tx
  | _ => fun _ _ => []

/-- A LINE command completes with the outcome of its transmitted sequence (R90, R107). -/
theorem exec_line {i : Instr} (hi : i.family = .line) (s : State) :
    exec i s = .next (finishSignal s .line (lineOutcome s (lineTx i))) := by
  cases i
  case lineNrzL | lineNrzI | lineManchester | lineDiffManchester | lineAmi | linePseudoternary | lineB8zs | lineHdb3 => rfl
  all_goals cases hi

/-- The two Manchester codes send split segments, a pair of levels per bit; the others flat ones, a voltage per bit (R108). -/
theorem lineTx_segments {i : Instr} (hi : i.family = .line) (cfg : Word) (b : List Bool) :
    ((i = .lineManchester ∨ i = .lineDiffManchester) ∧
      ∃ vs : List (F64 × F64), vs.length = b.length ∧ lineTx i cfg b = splitSegs 0 vs) ∨
    (¬(i = .lineManchester ∨ i = .lineDiffManchester) ∧
      ∃ vs : List F64, vs.length = b.length ∧ lineTx i cfg b = flatSegs 0 vs) := by
  cases i
  case lineManchester => exact .inl ⟨.inl rfl, _, manchesterHalves_length b, rfl⟩
  case lineDiffManchester => exact .inl ⟨.inr rfl, _, diffManchesterHalves_length _ b, rfl⟩
  case lineNrzL => exact .inr ⟨by decide, _, nrzLVolts_length b, rfl⟩
  case lineNrzI => exact .inr ⟨by decide, _, nrzIVolts_length _ b, rfl⟩
  case lineAmi => exact .inr ⟨by decide, _, amiVolts_length _ b, rfl⟩
  case linePseudoternary => exact .inr ⟨by decide, _, pseudoternaryVolts_length _ b, rfl⟩
  case lineB8zs => exact .inr ⟨by decide, _, b8zsVolts_length _ b, rfl⟩
  case lineHdb3 => exact .inr ⟨by decide, _, hdb3Volts_length _ _ b, rfl⟩
  all_goals cases hi

theorem transmittable_lineTx {i : Instr} (hi : i.family = .line) {s : State} {b : List Bool} (hb : BitsLoaded s b) :
    Transmittable (lineTx i s.cfgInit b) := by
  rcases lineTx_segments hi s.cfgInit b with ⟨-, vs, hvs, htx⟩ | ⟨-, vs, hvs, htx⟩
  · exact htx ▸ transmittable_split hb hvs
  · exact htx ▸ transmittable_flat hb hvs

/-- The result of a LINE command on a loaded bit string fits its buffers. -/
theorem lineSignal_fits {i : Instr} (hi : i.family = .line) {s : State} {b : List Bool} (hb : BitsLoaded s b) :
    (digitalSignal b (lineTx i s.cfgInit b)).Fits := digitalSignal_fits hb (transmittable_lineTx hi hb).2

theorem exec_line_of_loaded {i : Instr} (hi : i.family = .line) {s : State} {b : List Bool} (hb : BitsLoaded s b) :
    exec i s = .next (commitSignal s (digitalSignal b (lineTx i s.cfgInit b))) := by
  rw [exec_line hi, lineOutcome_of_loaded hb]
  rfl

/-- A LINE command on a loaded bit string commits DigitalInput(b) and its transmitted sequence (R88, R107). -/
theorem exec_line_commits {i : Instr} (hi : i.family = .line) {s : State} {b : List Bool} (hb : BitsLoaded s b)
    {tx : List Point} (htx : lineTx i s.cfgInit b = tx) :
    ∃ t, exec i s = .next t ∧ SignalCommitted s t (digitalPoints b) tx (digitalPoints b) := by
  subst htx
  rw [← digitalInput_eq]
  exact ⟨_, exec_line_of_loaded hi hb, commitSignal_committed s (lineSignal_fits hi hb)⟩

/-- Every DMOD command completes with the outcome of a transmitted sequence that reads no CFG_INIT (R126). -/
theorem exists_dmodTx {i : Instr} (hi : i.family = .dmod) :
    ∃ tx, ∀ s, exec i s = .next (finishSignal s .dmod (dmodOutcome s tx)) := by
  cases i
  case dmodAsk | dmodFsk | dmodPsk | dmodBfsk | dmodMfsk | dmodBpsk | dmodDpsk | dmodQpsk | dmodOqpsk | dmodMpsk | dmodQam =>
    exact ⟨_, fun _ => rfl⟩
  all_goals cases hi

/-- A LINE or DMOD command whose ReadBits succeeds commits a result. -/
theorem exec_of_readBits_ok {i : Instr} (hi : i.family = .line ∨ i.family = .dmod) {s : State} {b : List Bool}
    (h : readBits s = .ok b) : ∃ r, exec i s = .next (commitSignal s r) := by
  have hb := (readBits_eq_ok s b).mp h
  rcases hi with hi | hi
  · exact ⟨_, exec_line_of_loaded hi hb⟩
  · obtain ⟨tx, run⟩ := exists_dmodTx hi
    refine ⟨digitalSignal b (tx b), ?_⟩
    rw [run, (dmodOutcome_eq_ok s tx _).mpr ⟨b, hb, rfl⟩]
    rfl

/-- A LINE or DMOD command with an illegal bit string ends with InvalidInput, the counts zeroed (R111, R130, R171). -/
theorem exec_of_invalid_bits {i : Instr} (hi : i.family = .line ∨ i.family = .dmod) {s : State}
    (h : readBits s = .error (.error .invalidInput)) : exec i s = .next (zeroedError s 0x00000206) := by
  have hfam : i.family ≠ .interp := by rcases hi with hi | hi <;> rw [hi] <;> decide
  rw [exec_of_readBits_error hi h]
  exact congrArg Host.Outcome.next (errorCompletion_zeroed s hfam .invalidInput)

/-- A LINE or DMOD command that reads an unwritten byte sets the fault mark (R88, R91). -/
theorem exec_of_unwritten_bits {i : Instr} (hi : i.family = .line ∨ i.family = .dmod) {s : State}
    (h : readBits s = .error .unwritten) : exec i s = .next { s with faultMark := true } := exec_of_readBits_error hi h

/-- The errors of ReadBits are those of every LINE and DMOD command. -/
theorem bitInputErrors {i : Instr} (hi : i.family = .line ∨ i.family = .dmod) : BitInputErrors i := by
  refine fun s => ⟨fun hlen => exec_of_invalid_bits hi (readBits_of_length_error hlen), fun hmax k hk hbits => ?_⟩
  obtain ⟨hmark, hcode⟩ := readBitsFrom_stop s.mem s.bitLen.toNat 0 k hk (by simpa only [Nat.zero_add] using hbits)
  rw [Nat.zero_add] at hmark hcode
  rw [← readBits_of_length_legal (by omega) hmax] at hmark hcode
  exact ⟨fun h => exec_of_unwritten_bits hi (hmark h), fun c hc h0 h1 => exec_of_invalid_bits hi (hcode c hc h0 h1)⟩

/-- A LINE or DMOD command has no other end than success and the two failures of ReadBits. -/
theorem bitCommand_ends {i : Instr} (hi : i.family = .line ∨ i.family = .dmod) {s t : State} (run : exec i s = .next t) :
    t.status = 0x00000002 ∨ t = zeroedError s 0x00000206 ∨ t = { s with faultMark := true } := by
  cases h : readBits s with
  | ok b =>
    obtain ⟨r, run'⟩ := exec_of_readBits_ok hi h
    rw [run] at run'
    cases run'
    exact .inl rfl
  | error e =>
    rcases readBits_error_cases h with rfl | rfl
    · exact .inr (.inl (Host.Outcome.next.inj (run.symm.trans (exec_of_invalid_bits hi h))))
    · exact .inr (.inr (Host.Outcome.next.inj (run.symm.trans (exec_of_unwritten_bits hi h))))

/-- No command word lies in the reserved schemes of LINE and DMOD (R77, R78). -/
theorem encode_not_reserved (i : Instr) :
    ¬((0x08 ≤ (encode i).toNat ∧ (encode i).toNat ≤ 0x0F) ∨ (0x1B ≤ (encode i).toNat ∧ (encode i).toNat ≤ 0x1F)) := by
  cases i <;> decide

/-- Settles O38: ReadBits is all that can fail, and the reserved words are no command words. -/
theorem bitCommandErrors : Obligations.BitCommandErrors := by
  refine ⟨fun i hi => ⟨bitInputErrors hi, fun s t => bitCommand_ends hi⟩, fun s hreserved => ?_⟩
  obtain ⟨e, he⟩ := decode_error_of_ne_encode (w := s.cmd) fun i hw => encode_not_reserved i (hw ▸ hreserved)
  exact completeCommand_of_decode_error he

/-! ### Independence of the history (R125) -/

/-- Two buffers that hold the same sequence are read alike. -/
theorem BufferHolds.readPoint_eq {s t s' t' : State} {base k : Nat} {ps : List Point} (h : BufferHolds s t base ps)
    (h' : BufferHolds s' t' base ps) (hk : k < ps.length) : readPoint t'.mem (base + 16 * k) = readPoint t.mem (base + 16 * k) :=
  (h'.1 k hk).trans (h.1 k hk).symm

/-- Settles O37: ReadBits answers the same, and with it the same failure or the same commit. -/
theorem lineIndependence : Obligations.LineIndependence := by
  intro i s s' t hi hlen hcfg hbytes hs hs' run
  have hread : readBits s' = readBits s := readBits_congr hlen hbytes
  cases h : readBits s with
  | ok b =>
    have hb := (readBits_eq_ok s b).mp h
    have hb' := (readBits_eq_ok s' b).mp (hread.trans h)
    obtain ⟨u, hu, c⟩ := exec_line_commits hi hb rfl
    obtain ⟨t', run', c'⟩ := exec_line_commits hi hb' (congrArg (lineTx i · b) hcfg)
    cases run.symm.trans hu
    refine ⟨t', run', c'.faultMark.trans (hs'.trans (c.faultMark.trans hs).symm), fun _ =>
      ⟨c'.status.trans c.status.symm, BitVec.eq_of_toNat_eq (c'.inCount.trans c.inCount.symm),
        BitVec.eq_of_toNat_eq (c'.txCount.trans c.txCount.symm), BitVec.eq_of_toNat_eq (c'.outCount.trans c.outCount.symm),
        fun k hk => c.txBuffer.readPoint_eq c'.txBuffer (c.txCount ▸ hk)⟩, fun _ k hk => ?_⟩
    rw [c.inCount] at hk
    exact ⟨c.inBuffer.readPoint_eq c'.inBuffer hk, c.outBuffer.readPoint_eq c'.outBuffer hk⟩
  | error e =>
    rcases readBits_error_cases h with rfl | rfl
    · cases run.symm.trans (exec_of_invalid_bits (.inl hi) h)
      exact ⟨_, exec_of_invalid_bits (.inl hi) (hread.trans h), hs'.trans hs.symm,
        fun _ => ⟨rfl, rfl, rfl, rfl, fun _ hk => absurd hk (Nat.not_lt_zero _)⟩, fun _ _ hk => absurd hk (Nat.not_lt_zero _)⟩
    · cases run.symm.trans (exec_of_unwritten_bits (.inl hi) h)
      exact ⟨_, exec_of_unwritten_bits (.inl hi) (hread.trans h), rfl, (nomatch ·), (nomatch ·)⟩

/-! ### Counts and times (R110) -/

/-- The first Point of `ps` is at time 0 and the last at time `n`. -/
def SpansSeconds (ps : List Point) (n : Nat) : Prop :=
  ps.head?.map Point.x = some (f64 0) ∧ ps.getLast?.map Point.x = some (f64 n)

/-- Slots of which each starts and ends on its second span the seconds they are. -/
theorem spansSeconds_flatMap_range {g : Nat → List Point} (hfirst : ∀ j, (g j).head?.map Point.x = some (f64 j))
    (hlast : ∀ j, (g j).getLast?.map Point.x = some (f64 (j + 1))) {n : Nat} (hn : 0 < n) :
    SpansSeconds ((List.range n).flatMap g) n := by
  obtain ⟨n, rfl⟩ : ∃ m, n = m + 1 := ⟨n - 1, by omega⟩
  obtain ⟨p, hp, hpx⟩ := Option.map_eq_some_iff.mp (hfirst 0)
  obtain ⟨q, hq, hqx⟩ := Option.map_eq_some_iff.mp (hlast n)
  constructor
  · rw [range_flatMap_succ, List.head?_append, hp, Option.some_or, Option.map_some, hpx]
  · rw [List.range_succ, List.flatMap_append, List.flatMap_singleton, List.getLast?_append, hq, Option.some_or, Option.map_some,
      hqx]

theorem spansSeconds_flatSegs {vs : List F64} (hvs : 0 < vs.length) : SpansSeconds (flatSegs 0 vs) vs.length := by
  simp only [flatSegs_eq 0 vs voltZero, Nat.zero_add]
  exact spansSeconds_flatMap_range (fun _ => rfl) (fun _ => rfl) hvs

theorem spansSeconds_splitSegs {vs : List (F64 × F64)} (hvs : 0 < vs.length) : SpansSeconds (splitSegs 0 vs) vs.length := by
  simp only [splitSegs_eq 0 vs (voltZero, voltZero), Nat.zero_add]
  exact spansSeconds_flatMap_range (fun _ => rfl) (fun _ => rfl) hvs

/-- The sequence of a LINE command spans its N seconds. -/
theorem spansSeconds_lineTx {i : Instr} (hi : i.family = .line) (cfg : Word) {b : List Bool} (hb : 0 < b.length) :
    SpansSeconds (lineTx i cfg b) b.length := by
  rcases lineTx_segments hi cfg b with ⟨-, vs, hvs, htx⟩ | ⟨-, vs, hvs, htx⟩
  · rw [htx, ← hvs]
    exact spansSeconds_splitSegs (hvs ▸ hb)
  · rw [htx, ← hvs]
    exact spansSeconds_flatSegs (hvs ▸ hb)

theorem lineTx_length {i : Instr} (hi : i.family = .line) (cfg : Word) (b : List Bool) :
    ((i = .lineManchester ∨ i = .lineDiffManchester) → (lineTx i cfg b).length = 4 * b.length) ∧
    (¬(i = .lineManchester ∨ i = .lineDiffManchester) → (lineTx i cfg b).length = 2 * b.length) := by
  rcases lineTx_segments hi cfg b with ⟨split, vs, hvs, htx⟩ | ⟨flat, vs, hvs, htx⟩
  · exact ⟨fun _ => by rw [htx, splitSegs_length, hvs], fun flat => absurd split flat⟩
  · exact ⟨fun split => absurd split flat, fun _ => by rw [htx, flatSegs_length, hvs]⟩

/-- The ends of a sequence that spans `n` seconds, as they are read from its buffer. -/
theorem BufferHolds.ends {s t : State} {base n : Nat} {ps : List Point} (h : BufferHolds s t base ps) (hps : SpansSeconds ps n) :
    (∃ p, readPoint t.mem base = some p ∧ p.x = f64 0) ∧
    ∃ p, readPoint t.mem (base + 16 * (ps.length - 1)) = some p ∧ p.x = f64 n := by
  obtain ⟨hfirst, hlast⟩ := hps
  obtain ⟨p, hp, hpx⟩ := Option.map_eq_some_iff.mp hfirst
  obtain ⟨q, hq, hqx⟩ := Option.map_eq_some_iff.mp hlast
  rw [List.head?_eq_getElem?] at hp
  rw [List.getLast?_eq_getElem?] at hq
  obtain ⟨hp0, rfl⟩ := List.getElem?_eq_some_iff.mp hp
  obtain ⟨hq0, rfl⟩ := List.getElem?_eq_some_iff.mp hq
  exact ⟨⟨_, h.1 0 hp0, hpx⟩, ⟨_, h.1 _ hq0, hqx⟩⟩

@[simp] theorem digitalPoints_length (b : List Bool) : (digitalPoints b).length = 2 * b.length := by
  rw [← digitalInput_eq, digitalInput_length]

/-- Settles O33: the counts are the lengths of the sequences, and the transmitted one spans its slots. -/
theorem lineCounts : Obligations.LineCounts := by
  intro i s b hi hb
  obtain ⟨t, run, h⟩ := exec_line_commits hi hb rfl
  have ends := h.txBuffer.ends (spansSeconds_lineTx hi s.cfgInit hb.positive)
  rw [← h.txCount] at ends
  have hlen := lineTx_length hi s.cfgInit b
  rw [← h.txCount] at hlen
  exact ⟨t, run, h.inCount.trans (digitalPoints_length b), h.outCount.trans (digitalPoints_length b), hlen.1, hlen.2, ends⟩

/-! ### Bits by index -/

@[simp] theorem bit_cons_zero (c : Bool) (b : List Bool) : bit (c :: b) 0 = c := rfl

@[simp] theorem bit_cons_succ (c : Bool) (b : List Bool) (i : Nat) : bit (c :: b) (i + 1) = bit b i := rfl

theorem bit_eq_getElem {b : List Bool} {i : Nat} (h : i < b.length) : bit b i = b[i] := List.getD_eq_getElem b false h

theorem bit_map_not {b : List Bool} {i : Nat} (h : i < b.length) : bit (b.map not) i = !bit b i := by
  rw [bit_eq_getElem h, bit_eq_getElem (by simpa using h), List.getElem_map]

/-- The bits from an index in range begin with the bit at it. -/
theorem drop_eq_bit_cons {b : List Bool} {i : Nat} (h : i < b.length) : b.drop i = bit b i :: b.drop (i + 1) := by
  rw [bit_eq_getElem h, List.drop_eq_getElem_cons h]

@[simp] theorem oddOnes_zero (b : List Bool) : oddOnes b 0 = false := rfl

/-- One 1 more in front turns the parity. -/
@[simp] theorem oddOnes_cons_succ (c : Bool) (b : List Bool) (n : Nat) : oddOnes (c :: b) (n + 1) = (c != oddOnes b n) := by
  cases c with
  | false => simp [oddOnes]
  | true =>
    rw [oddOnes, oddOnes, List.take_succ_cons, List.count_cons_self, Bool.true_bne, Bool.eq_iff_iff, Bool.not_eq_true', beq_iff_eq,
      beq_eq_false_iff_ne]
    omega

/-- The 0 bits of a string are the 1 bits of its complement. -/
theorem oddZeros_eq (b : List Bool) (n : Nat) : oddZeros b n = oddOnes (b.map not) n := by
  rw [oddZeros, oddOnes, ← List.map_take]
  exact congrArg (· % 2 == 1) (List.count_map_of_injective (b.take n) not (by decide) false).symm

/-! ### The level codes by index (R112 to R115) -/

theorem nrzLVolts_getElem? {b : List Bool} {i : Nat} (h : i < b.length) : (nrzLVolts b)[i]? = some (volt (bit b i)) := by
  rw [nrzLVolts, List.getElem?_map, List.getElem?_eq_getElem h, Option.map_some, lvl_eq, bit_eq_getElem h]

/-- A 1 turns the level of NRZ-I, before it is sent. -/
theorem nrzIVolts_cons (l c : Bool) (b : List Bool) :
    nrzIVolts (volt l) (c :: b) = volt (l != c) :: nrzIVolts (volt (l != c)) b := by
  cases c <;> simp [nrzIVolts, fneg_volt]

/-- The level of NRZ-I has turned at each 1 up to the bit itself. -/
theorem nrzIVolts_getElem? (l : Bool) {b : List Bool} {i : Nat} (h : i < b.length) :
    (nrzIVolts (volt l) b)[i]? = some (volt (l != oddOnes b (i + 1))) := by
  induction b generalizing l i with
  | nil => exact absurd h (Nat.not_lt_zero i)
  | cons c b ih =>
    rw [nrzIVolts_cons, oddOnes_cons_succ]
    cases i with
    | zero => simp
    | succ i => rw [List.getElem?_cons_succ, ih _ (Nat.lt_of_succ_lt_succ h), Bool.bne_assoc]

theorem manchesterHalves_getElem? {b : List Bool} {i : Nat} (h : i < b.length) :
    (manchesterHalves b)[i]? = some (volt (bit b i), volt (!bit b i)) := by
  rw [manchesterHalves, List.getElem?_map, List.getElem?_eq_getElem h, Option.map_some, bit_eq_getElem h]
  cases b[i] <;> simp [volt]

/-- A 1 turns the level of differential Manchester: the mid-bit transition turns it at each bit, and the transition at the start of a 0
turns it back. -/
theorem diffManchesterHalves_cons (l c : Bool) (b : List Bool) :
    diffManchesterHalves (volt l) (c :: b) =
      (volt (l != !c), volt (l != c)) :: diffManchesterHalves (volt (l != c)) b := by
  cases c <;> simp [diffManchesterHalves, fneg_volt]

/-- The level before a bit of differential Manchester has turned at each earlier 1. -/
theorem diffManchesterHalves_getElem? (l : Bool) {b : List Bool} {i : Nat} (h : i < b.length) :
    (diffManchesterHalves (volt l) b)[i]? =
      some (volt ((l != oddOnes b i) != !bit b i), volt ((l != oddOnes b i) != bit b i)) := by
  induction b generalizing l i with
  | nil => exact absurd h (Nat.not_lt_zero i)
  | cons c b ih =>
    rw [diffManchesterHalves_cons]
    cases i with
    | zero => simp
    | succ i =>
      rw [List.getElem?_cons_succ, ih _ (Nat.lt_of_succ_lt_succ h), oddOnes_cons_succ, ← Bool.bne_assoc l, bit_cons_succ]

/-! ### The alternate mark codes by index (R116, R117) -/

/-- A 1 turns the polarity of AMI and is sent with it. -/
theorem amiVolts_cons (p c : Bool) (b : List Bool) :
    amiVolts (volt p) (c :: b) = (if c then volt (p != c) else voltZero) :: amiVolts (volt (p != c)) b := by
  cases c <;> simp [amiVolts, fneg_volt]

/-- The polarity of AMI has turned at each pulse up to the bit itself. -/
theorem amiVolts_getElem? (p : Bool) {b : List Bool} {i : Nat} (h : i < b.length) :
    (amiVolts (volt p) b)[i]? = some (if bit b i then volt (p != oddOnes b (i + 1)) else voltZero) := by
  induction b generalizing p i with
  | nil => exact absurd h (Nat.not_lt_zero i)
  | cons c b ih =>
    rw [amiVolts_cons, oddOnes_cons_succ]
    cases i with
    | zero => simp
    | succ i => rw [List.getElem?_cons_succ, ih _ (Nat.lt_of_succ_lt_succ h), Bool.bne_assoc, bit_cons_succ]

/-- Pseudoternary is AMI of the complement (R122). -/
theorem pseudoternaryVolts_eq (p : F64) (b : List Bool) : pseudoternaryVolts p b = amiVolts p (b.map not) := by
  induction b generalizing p with
  | nil => rfl
  | cons c b ih => cases c <;> simp [pseudoternaryVolts, amiVolts, ih]

/-- The polarity of pseudoternary has turned at each pulse up to the bit itself. -/
theorem pseudoternaryVolts_getElem? (p : Bool) {b : List Bool} {i : Nat} (h : i < b.length) :
    (pseudoternaryVolts (volt p) b)[i]? = some (if bit b i then voltZero else volt (p != oddZeros b (i + 1))) := by
  rw [pseudoternaryVolts_eq, amiVolts_getElem? p (by simpa using h), bit_map_not h, oddZeros_eq]
  cases bit b i <;> rfl

/-! ### The six schemes without substitution, written out -/

theorem nrzLTx_eq (cfg : Word) (b : List Bool) : nrzLTx cfg b = flatSlots b.length fun i => volt (bit b i) :=
  flatSegs_eq_flatSlots (nrzLVolts_length b) fun _ => nrzLVolts_getElem?

theorem nrzITx_eq (cfg : Word) (b : List Bool) :
    nrzITx cfg b = flatSlots b.length fun i => volt (cfg.getLsbD 0 != oddOnes b (i + 1)) := by
  rw [nrzITx, lvl_eq]
  exact flatSegs_eq_flatSlots (nrzIVolts_length _ b) fun _ => nrzIVolts_getElem? _

theorem manchesterTx_eq (cfg : Word) (b : List Bool) :
    manchesterTx cfg b = splitSlots b.length (fun i => volt (bit b i)) (fun i => volt (!bit b i)) :=
  splitSegs_eq_splitSlots (manchesterHalves_length b) fun _ => manchesterHalves_getElem?

theorem diffManchesterTx_eq (cfg : Word) (b : List Bool) :
    diffManchesterTx cfg b = splitSlots b.length
      (fun i => volt ((cfg.getLsbD 1 != oddOnes b i) != !bit b i))
      (fun i => volt ((cfg.getLsbD 1 != oddOnes b i) != bit b i)) := by
  rw [diffManchesterTx, lvl_eq]
  exact splitSegs_eq_splitSlots (diffManchesterHalves_length _ b) fun _ => diffManchesterHalves_getElem? _

theorem amiTx_eq (cfg : Word) (b : List Bool) :
    amiTx cfg b = flatSlots b.length fun i =>
      if bit b i then volt (cfg.getLsbD 2 != oddOnes b (i + 1)) else voltZero := by
  rw [amiTx, lvl_eq]
  exact flatSegs_eq_flatSlots (amiVolts_length _ b) fun _ => amiVolts_getElem? _

theorem pseudoternaryTx_eq (cfg : Word) (b : List Bool) :
    pseudoternaryTx cfg b = flatSlots b.length fun i =>
      if bit b i then voltZero else volt (cfg.getLsbD 2 != oddZeros b (i + 1)) := by
  rw [pseudoternaryTx, lvl_eq]
  exact flatSegs_eq_flatSlots (pseudoternaryVolts_length _ b) fun _ => pseudoternaryVolts_getElem? _

/-- Settles O28: the commit of both codes, their voltages known by index. -/
theorem lineNrzCompletes : Obligations.LineNrzCompletes :=
  ⟨decode_encode .lineNrzL, decode_encode .lineNrzI, bitInputErrors (.inl rfl), bitInputErrors (.inl rfl), fun s b hb =>
    ⟨exec_line_commits rfl hb (nrzLTx_eq s.cfgInit b), exec_line_commits rfl hb (nrzITx_eq s.cfgInit b)⟩⟩

/-- Settles O29: the commit of both codes, their levels known by index. -/
theorem lineManchesterCompletes : Obligations.LineManchesterCompletes :=
  ⟨decode_encode .lineManchester, decode_encode .lineDiffManchester, bitInputErrors (.inl rfl), bitInputErrors (.inl rfl),
    fun s b hb =>
    ⟨exec_line_commits rfl hb (manchesterTx_eq s.cfgInit b), exec_line_commits rfl hb (diffManchesterTx_eq s.cfgInit b)⟩⟩

/-- Settles O30: the commit of both codes, their pulses known by index. -/
theorem lineAlternateMarkCompletes : Obligations.LineAlternateMarkCompletes :=
  ⟨decode_encode .lineAmi, decode_encode .linePseudoternary, bitInputErrors (.inl rfl), bitInputErrors (.inl rfl), fun s b hb =>
    ⟨exec_line_commits rfl hb (amiTx_eq s.cfgInit b), exec_line_commits rfl hb (pseudoternaryTx_eq s.cfgInit b)⟩⟩

theorem pseudoternaryTx_map_not (cfg : Word) (b : List Bool) : pseudoternaryTx cfg (b.map not) = amiTx cfg b := by
  rw [pseudoternaryTx, pseudoternaryVolts_eq, List.map_map, Bool.involutive_not.comp_self, List.map_id, amiTx]

/-- Settles O34: both commit one sequence, since pseudoternary is AMI of the complement. -/
theorem amiPseudoternaryComplement : Obligations.AmiPseudoternaryComplement := by
  intro s s' b hb hb' hcfg
  have hi : Instr.lineAmi.family = .line := rfl
  have htx : lineTx .linePseudoternary s'.cfgInit (b.map not) = lineTx .lineAmi s.cfgInit b :=
    hcfg ▸ pseudoternaryTx_map_not s'.cfgInit b
  obtain ⟨t, run, h⟩ := exec_line_commits hi hb rfl
  obtain ⟨t', run', h'⟩ := exec_line_commits rfl hb' htx
  refine ⟨t, t', run, run', BitVec.eq_of_toNat_eq (h'.txCount.trans h.txCount.symm), ?_, fun k hk => ?_⟩
  · rw [h.txCount]
    exact (transmittable_lineTx hi hb).1
  · rw [h.txCount] at hk
    exact ⟨_, h.txBuffer.1 k hk, h'.txBuffer.1 k hk⟩

/-! ### Runs of zeros (R119, R121) -/

/-- A run of zeros stands at an index where the bits from it start with as many zeros. -/
theorem zeroRun_iff_take {b : List Bool} {i n : Nat} (hi : i ≤ b.length) :
    zeroRun b i n = true ↔ (b.drop i).take n = List.replicate n false := by
  simp only [zeroRun, Bool.and_eq_true, decide_eq_true_iff, List.all_eq_true, List.mem_range, Bool.not_eq_true',
    List.eq_replicate_iff, List.forall_mem_iff_forall_getElem, List.length_take, List.length_drop, List.getElem_take,
    List.getElem_drop]
  constructor
  · rintro ⟨hlen, hzero⟩
    exact ⟨by omega, fun j hj => (bit_eq_getElem (by omega)).symm.trans (hzero j (by omega))⟩
  · rintro ⟨hlen, hzero⟩
    exact ⟨by omega, fun j hj => (bit_eq_getElem (by omega)).trans (hzero j (by omega))⟩

/-- The bits from a run on: its zeros, and those after it. -/
theorem drop_of_zeroRun {b : List Bool} {i n : Nat} (hi : i ≤ b.length) (run : zeroRun b i n = true) :
    b.drop i = List.replicate n false ++ b.drop (i + n) := by
  rw [← (zeroRun_iff_take hi).mp run, ← List.drop_drop, List.take_append_drop]

theorem zeroRun_cons_succ (c : Bool) (b : List Bool) (i n : Nat) : zeroRun (c :: b) (i + 1) n = zeroRun b i n := by
  simp only [zeroRun, Nat.add_right_comm i 1, bit_cons_succ, List.length_cons, Nat.add_le_add_iff_right]

/-- Eight zeros from the scan index are one substitution. -/
theorem b8zsVolts_run (p : F64) (b : List Bool) :
    b8zsVolts p (List.replicate 8 false ++ b) =
      [voltZero, voltZero, voltZero, p, fneg p, voltZero, p, fneg p] ++ b8zsVolts (fneg p) b := rfl

/-- A 0 that starts no run of eight is sent as 0 V. -/
theorem b8zsVolts_zero {b : List Bool} (h : (false :: b).take 8 ≠ List.replicate 8 false) (p : F64) :
    b8zsVolts p (false :: b) = voltZero :: b8zsVolts p b := by
  rw [b8zsVolts]
  · rfl
  · rintro bs rfl
    exact h rfl

theorem b8zsVolts_one (p : F64) (b : List Bool) : b8zsVolts p (true :: b) = fneg p :: b8zsVolts (fneg p) b := by
  rw [b8zsVolts]

/-- Four zeros from the scan index are one substitution, by the parity of the marks since the last. -/
theorem hdb3Volts_run (p : F64) (c : Nat) (b : List Bool) :
    hdb3Volts p c (List.replicate 4 false ++ b) =
      if c % 2 = 0 then [voltZero, voltZero, voltZero, p] ++ hdb3Volts p 0 b
      else [fneg p, voltZero, voltZero, fneg p] ++ hdb3Volts (fneg p) 0 b := rfl

/-- A 0 that starts no run of four is sent as 0 V. -/
theorem hdb3Volts_zero {b : List Bool} (h : (false :: b).take 4 ≠ List.replicate 4 false) (p : F64) (c : Nat) :
    hdb3Volts p c (false :: b) = voltZero :: hdb3Volts p c b := by
  rw [hdb3Volts]
  · rfl
  · rintro bs rfl
    exact h rfl

theorem hdb3Volts_one (p : F64) (c : Nat) (b : List Bool) :
    hdb3Volts p c (true :: b) = fneg p :: hdb3Volts (fneg p) (c + 1) b := by
  rw [hdb3Volts]

/-! ### The loops over the scan index (R118, R120) -/

/-- A substituted group is the flat segments of its pattern (R109). -/
theorem patternPoints_eq (i : Nat) (pat : List F64) : patternPoints i pat = flatSegs i pat :=
  (flatSegs_eq i pat voltZero).symm

/-- What a round sends and what the bits left to it send follow each other. -/
theorem patternPoints_append (i : Nat) (pat vs : List F64) :
    patternPoints i pat ++ flatSegs (i + pat.length) vs = flatSegs i (pat ++ vs) := by
  rw [patternPoints_eq, flatSegs_append]

/-- The loop of R118 from a scan index sends what the model's recursion sends for the bits from there. -/
theorem b8zsLoop_eq {b : List Bool} {fuel i : Nat} (h : b.length ≤ i + fuel) (p : F64) :
    b8zsLoop b fuel i p = flatSegs i (b8zsVolts p (b.drop i)) := by
  induction fuel generalizing i p with
  | zero =>
    rw [List.drop_of_length_le (by omega)]
    rfl
  | succ fuel ih =>
    rw [b8zsLoop]
    split
    next hi =>
      split
      next run =>
        rw [drop_of_zeroRun hi.le run, b8zsVolts_run, ih (by omega), ← patternPoints_append]
        rfl
      next norun =>
        rw [zeroRun_iff_take hi.le, drop_eq_bit_cons hi] at norun
        rw [drop_eq_bit_cons hi]
        cases hbit : bit b i with
        | true =>
          rw [if_pos rfl, b8zsVolts_one, ih (by omega)]
          exact patternPoints_append i [fneg p] _
        | false =>
          rw [if_neg Bool.false_ne_true, b8zsVolts_zero (hbit ▸ norun), ih (by omega)]
          exact patternPoints_append i [voltZero] _
    next hi =>
      rw [List.drop_of_length_le (by omega)]
      rfl

/-- The loop of R120 from a scan index sends what the model's recursion sends for the bits from there. -/
theorem hdb3Loop_eq {b : List Bool} {fuel i : Nat} (h : b.length ≤ i + fuel) (p : F64) (c : Nat) :
    hdb3Loop b fuel i p c = flatSegs i (hdb3Volts p c (b.drop i)) := by
  induction fuel generalizing i p c with
  | zero =>
    rw [List.drop_of_length_le (by omega)]
    rfl
  | succ fuel ih =>
    rw [hdb3Loop]
    split
    next hi =>
      split
      next run =>
        rw [drop_of_zeroRun hi.le run, hdb3Volts_run]
        split
        next =>
          rw [ih (by omega)]
          exact patternPoints_append i [voltZero, voltZero, voltZero, p] _
        next =>
          rw [ih (by omega)]
          exact patternPoints_append i [fneg p, voltZero, voltZero, fneg p] _
      next norun =>
        rw [zeroRun_iff_take hi.le, drop_eq_bit_cons hi] at norun
        rw [drop_eq_bit_cons hi]
        cases hbit : bit b i with
        | true =>
          rw [if_pos rfl, hdb3Volts_one, ih (by omega)]
          exact patternPoints_append i [fneg p] _
        | false =>
          rw [if_neg Bool.false_ne_true, hdb3Volts_zero (hbit ▸ norun), ih (by omega)]
          exact patternPoints_append i [voltZero] _
    next hi =>
      rw [List.drop_of_length_le (by omega)]
      rfl

theorem b8zsTx_eq (cfg : Word) (b : List Bool) : b8zsTx cfg b = b8zsLoop b b.length 0 (volt (cfg.getLsbD 2)) := by
  rw [b8zsLoop_eq (Nat.le_add_left _ 0), b8zsTx, lvl_eq]
  rfl

theorem hdb3Tx_eq (cfg : Word) (b : List Bool) : hdb3Tx cfg b = hdb3Loop b b.length 0 (volt (cfg.getLsbD 2)) 0 := by
  rw [hdb3Loop_eq (Nat.le_add_left _ 0), hdb3Tx, lvl_eq]
  rfl

/-- Settles O31: the recursion of the model is the loop. -/
theorem lineB8zsCompletes : Obligations.LineB8zsCompletes :=
  ⟨decode_encode .lineB8zs, bitInputErrors (.inl rfl), fun s b hb => exec_line_commits rfl hb (b8zsTx_eq s.cfgInit b)⟩

/-- Settles O32: the recursion of the model is the loop. -/
theorem lineHdb3Completes : Obligations.LineHdb3Completes :=
  ⟨decode_encode .lineHdb3, bitInputErrors (.inl rfl), fun s b hb => exec_line_commits rfl hb (hdb3Tx_eq s.cfgInit b)⟩

/-! ### B8ZS and HDB3 against AMI (R123, R124) -/

/-- A bit string without a run has none at its start, nor in its tail. -/
theorem no_zeroRun_cons {c : Bool} {b : List Bool} {n : Nat} (h : ∀ i, zeroRun (c :: b) i n = false) :
    (c :: b).take n ≠ List.replicate n false ∧ ∀ i, zeroRun b i n = false := by
  refine ⟨fun run => ?_, fun i => (zeroRun_cons_succ c b i n).symm.trans (h (i + 1))⟩
  have := (zeroRun_iff_take (Nat.zero_le _)).mpr run
  rw [h 0] at this
  cases this

/-- Without a run of eight zeros B8ZS is AMI. -/
theorem b8zsVolts_eq_amiVolts (p : F64) {b : List Bool} (h : ∀ i, zeroRun b i 8 = false) : b8zsVolts p b = amiVolts p b := by
  induction b generalizing p with
  | nil => rfl
  | cons c b ih =>
    obtain ⟨start, tail⟩ := no_zeroRun_cons h
    cases c with
    | false => rw [b8zsVolts_zero start, ih p tail, amiVolts, fzero_eq]
    | true => rw [b8zsVolts_one, ih _ tail, amiVolts]

/-- Without a run of four zeros HDB3 is AMI, whatever the count of marks. -/
theorem hdb3Volts_eq_amiVolts (p : F64) (m : Nat) {b : List Bool} (h : ∀ i, zeroRun b i 4 = false) :
    hdb3Volts p m b = amiVolts p b := by
  induction b generalizing p m with
  | nil => rfl
  | cons c b ih =>
    obtain ⟨start, tail⟩ := no_zeroRun_cons h
    cases c with
    | false => rw [hdb3Volts_zero start, ih p m tail, amiVolts, fzero_eq]
    | true => rw [hdb3Volts_one, ih _ _ tail, amiVolts]

/-- LINE commands that transmit the same answer the same next state, of success. -/
theorem exec_line_eq_of_tx_eq {i j : Instr} (hi : i.family = .line) (hj : j.family = .line) {s : State} {b : List Bool}
    (hb : BitsLoaded s b) (htx : lineTx i s.cfgInit b = lineTx j s.cfgInit b) :
    ∃ t, exec i s = .next t ∧ exec j s = .next t ∧ t.status = 0x00000002 :=
  ⟨_, exec_line_of_loaded hi hb, htx ▸ exec_line_of_loaded hj hb, rfl⟩

/-- Settles O35: the transmitted sequences are those of AMI. -/
theorem noRunSameAsAmi : Obligations.NoRunSameAsAmi := fun _ _ hb =>
  ⟨fun norun => exec_line_eq_of_tx_eq rfl rfl hb (congrArg (flatSegs 0) (b8zsVolts_eq_amiVolts _ norun)),
    fun norun => exec_line_eq_of_tx_eq rfl rfl hb (congrArg (flatSegs 0) (hdb3Volts_eq_amiVolts _ 0 norun))⟩

/-- The flat segments of a list of voltages are the slots of its elements. -/
theorem flatSegs_eq_flatSlots_getD (vs : List F64) : flatSegs 0 vs = flatSlots vs.length fun i => vs.getD i voltZero := by
  simp only [flatSegs_eq 0 vs voltZero, Nat.zero_add, flatSlots]

/-- Eight zeros are one substitution, from the level of POL_INIT. -/
theorem b8zsTx_eight_zeros (cfg : Word) :
    b8zsTx cfg (List.replicate 8 false) =
      flatSlots 8 fun i => [voltZero, voltZero, voltZero, volt (cfg.getLsbD 2), fneg (volt (cfg.getLsbD 2)), voltZero,
        volt (cfg.getLsbD 2), fneg (volt (cfg.getLsbD 2))].getD i voltZero := by
  rw [b8zsTx, lvl_eq]
  exact (congrArg (flatSegs 0) (b8zsVolts_run _ [])).trans (flatSegs_eq_flatSlots_getD _)

/-- Settles O36: one substitution; after reset V is −1, and its negation +1. -/
theorem b8zsEightZeros : Obligations.B8zsEightZeros := by
  refine ⟨b8zsTx_eight_zeros, ?_⟩
  have hpol : volt (State.reset.cfgInit.getLsbD 2) = voltMinus := rfl
  rw [b8zsTx_eight_zeros, hpol, fneg_voltMinus]

end Sys2Proof.Machine
end

section
/-! Digital modulation (43_digital_modulation.md): the eleven DMOD commands by their transmitted sequences and the width of their symbols;
the two sample grids written out by bit index; and each scheme on its grid. -/

namespace Sys2Proof.Machine

/-! ### The DMOD commands (R126, R143) -/

/-- The transmitted sequence of each DMOD command (R132 to R142), as `exec_dmod` says; a command of another family has none. -/
def dmodTx : Instr → List Bool → List Point
  | .dmodAsk => askTx
  | .dmodFsk | .dmodBfsk => fskTx
  | .dmodPsk | .dmodBpsk => pskTx
  | .dmodDpsk => dpskTx
  | .dmodQpsk => qpskTx
  | .dmodOqpsk => oqpskTx
  | .dmodMpsk => mpskTx
  | .dmodQam => qamTx
  | .dmodMfsk => mfskTx
  | _ => fun _ => []

/-- The bits of one symbol of each DMOD command (R129), as `dmodTx_length` says; 1 for the binary schemes. -/
def bitsPerSymbol : Instr → Nat
  | .dmodQpsk | .dmodOqpsk | .dmodMfsk => 2
  | .dmodMpsk => 3
  | .dmodQam => 4
  | _ => 1

theorem bitsPerSymbol_bounds (i : Instr) : 0 < bitsPerSymbol i ∧ bitsPerSymbol i ≤ 4 := by cases i <;> decide

@[simp] theorem paddedLength_one (n : Nat) : paddedLength n 1 = n := by simp [paddedLength]

/-- A DMOD command completes with the outcome of its transmitted sequence (R90, R126). -/
theorem exec_dmod {i : Instr} (hi : i.family = .dmod) (s : State) :
    exec i s = .next (finishSignal s .dmod (dmodOutcome s (dmodTx i))) := by
  cases i
  case dmodAsk | dmodFsk | dmodPsk | dmodBfsk | dmodMfsk | dmodBpsk | dmodDpsk | dmodQpsk | dmodOqpsk | dmodMpsk | dmodQam => rfl
  all_goals cases hi

/-- 100 samples for each bit of the padded string, and one more (R128, R129). -/
theorem dmodTx_length {i : Instr} (hi : i.family = .dmod) (b : List Bool) :
    (dmodTx i b).length = 100 * paddedLength b.length (bitsPerSymbol i) + 1 := by
  cases i
  case dmodAsk | dmodFsk | dmodBfsk | dmodPsk | dmodBpsk | dmodDpsk =>
    simp only [dmodTx, askTx, fskTx, pskTx, dpskTx, binaryGrid_length, bitsPerSymbol, paddedLength_one]
  case dmodQpsk | dmodMfsk | dmodMpsk | dmodQam =>
    simp [dmodTx, qpskTx, mfskTx, mpskTx, qamTx, symbolGrid_length, bitsPerSymbol]
  case dmodOqpsk => exact oqpskTx_length b
  all_goals cases hi

/-- The result of a DMOD command on a loaded bit string fits its buffers (R143). -/
theorem dmodSignal_fits {i : Instr} (hi : i.family = .dmod) {s : State} {b : List Bool} (hb : BitsLoaded s b) :
    (digitalSignal b (dmodTx i b)).Fits := by
  obtain ⟨hpos, hle⟩ := bitsPerSymbol_bounds i
  refine digitalSignal_fits hb ?_
  rw [dmodTx_length hi]
  exact padded_samples_le hpos hle hb.fits

/-- A DMOD command on a loaded bit string commits DigitalInput(b) and its transmitted sequence (R88, R126). -/
theorem exec_dmod_commits {i : Instr} (hi : i.family = .dmod) {s : State} {b : List Bool} (hb : BitsLoaded s b)
    {tx : List Point} (htx : dmodTx i b = tx) :
    ∃ t, exec i s = .next t ∧ SignalCommitted s t (digitalPoints b) tx (digitalPoints b) := by
  subst htx
  have ok : dmodOutcome s (dmodTx i) = .ok (digitalSignal b (dmodTx i b)) := (dmodOutcome_eq_ok s _ _).mpr ⟨b, hb, rfl⟩
  rw [exec_dmod hi, ok, ← digitalInput_eq]
  exact ⟨_, rfl, commitSignal_committed s (dmodSignal_fits hi hb)⟩

/-- Settles O42: the counts are the lengths of the sequences, and padding adds at most 3 bits. -/
theorem dmodCounts : Obligations.DmodCounts := by
  refine ⟨fun i s b hi hb => ?_, Config.samples_le⟩
  obtain ⟨t, run, h⟩ := exec_dmod_commits hi hb rfl
  obtain ⟨hpos, hle⟩ := bitsPerSymbol_bounds i
  have htx := h.txCount.trans (dmodTx_length hi b)
  have hwidth : ∀ k, bitsPerSymbol i = k → t.txCount.toNat = 100 * k * ((b.length + k - 1) / k) + 1 := by
    rintro k rfl
    rw [htx, paddedLength, Nat.mul_assoc]
  refine ⟨t, run, h.status, h.inCount.trans (digitalPoints_length b), h.outCount.trans (digitalPoints_length b),
    fun hmem => ?_, fun hmem => hwidth 2 ?_, fun heq => hwidth 3 (heq ▸ rfl), fun heq => hwidth 4 (heq ▸ rfl), ?_⟩
  · have hone : bitsPerSymbol i = 1 :=
      (by decide : ∀ j ∈ [Instr.dmodAsk, .dmodFsk, .dmodBfsk, .dmodPsk, .dmodBpsk, .dmodDpsk], bitsPerSymbol j = 1) i hmem
    rw [htx, hone, paddedLength_one]
  · exact (by decide : ∀ j ∈ [Instr.dmodQpsk, .dmodOqpsk, .dmodMfsk], bitsPerSymbol j = 2) i hmem
  · have := paddedLength_lt b.length _ hpos
    have := hb.fits
    omega

/-! ### The grids by bit index (R128, R129) -/

/-- The binary grid depends on the samples of the bits there are. -/
theorem binaryGrid_eq {b : List Bool} (hb : 0 < b.length) {y y' : Nat → F64 → F64} (h : ∀ m < b.length, ∀ t, y m t = y' m t) :
    binaryGrid b y = binarySamples b.length y' := by
  rw [binaryGrid, binarySamples, samplesPerBit, Nat.mul_comm]
  refine List.map_congr_left fun j _ => ?_
  rw [h _ (by omega)]
  rfl

/-- Padding adds 0 bits only: a bit past the end reads as the padding. -/
theorem bitAt_padBits (b : List Bool) (k i : Nat) : bitAt (padBits b k) i = bit b i := by
  rw [bitAt, padBits, bit]
  rcases Nat.lt_or_ge i b.length with h | h
  · rw [List.getD_append _ _ _ _ h]
  · rw [List.getD_append_right _ _ _ _ h, List.getD_eq_getElem?_getD, List.getElem?_getD_replicate_default_eq,
      List.getD_eq_default _ _ h]

theorem symbolCount_pos {n k : Nat} (hn : 0 < n) (hk : 0 < k) : 0 < symbolCount n k :=
  Nat.pos_of_mul_pos_left (hn.trans_le (le_mul_symbolCount n k hk))

theorem paddedLength_div {n k : Nat} (hk : 0 < k) : paddedLength n k / k = symbolCount n k := Nat.mul_div_cancel_left _ hk

/-- The bits of a symbol in range are the k bits from its first. -/
theorem symbol_bits_eq {b : List Bool} {k sym : Nat} (hk : 0 < k) (hsym : sym < symbolCount b.length k) :
    ((padBits b k).drop (k * sym)).take k = (List.range k).map fun r => bit b (k * sym + r) := by
  have hfits : k * sym + k ≤ (padBits b k).length := by
    rw [padBits_length b hk]
    exact Nat.mul_le_mul_left k hsym
  refine List.ext_getElem (by simp; omega) fun r hr _ => ?_
  rw [List.getElem_take, List.getElem_drop, List.getElem_map, List.getElem_range, ← bitAt_padBits b k, bitAt,
    List.getD_eq_getElem]

/-- The symbol grid as samples of the k bits from each symbol's first. -/
theorem symbolGrid_eq {b : List Bool} (hb : 0 < b.length) {k : Nat} (hk : 0 < k) {y : List Bool → F64 → F64}
    {y' : Nat → F64 → F64} (h : ∀ i t, y ((List.range k).map fun r => bit b (i + r)) t = y' i t) :
    symbolGrid b k y = symbolSamples b.length k y' := by
  have hcount := symbolCount_pos hb hk
  simp only [symbolGrid, symbolSamples, samplesPerBit, padBits_length b hk, paddedLength_div hk, Nat.mul_comm _ 100]
  refine List.map_congr_left fun j _ => ?_
  rw [symbol_bits_eq hk (by omega), h]
  rfl

/-! ### The values of the schemes as patterns (R127, R132 to R141) -/

theorem carrierArg_carrierHz (t : F64) : carrierArg carrierHz t = phaseArg 0x4014000000000000 t :=
  congrArg (phaseArg · t) f64_five

theorem askAmp_eq (c : Bool) : askAmp c = if c then 0x3FF0000000000000 else 0x3FC999999999999A := by
  rw [askAmp, f64_one_eq, fdec_one_fifth, voltPlus]

theorem fskHz_eq (c : Bool) : fskHz c = if c then 0x401C000000000000 else 0x4008000000000000 := by
  rw [fskHz, f64_seven, f64_three]

theorem qpskPhase_eq (c0 c1 : Bool) : qpskPhase c0 c1 = qpskAngle c0 c1 := by
  cases c0 <;> cases c1 <;> simp [qpskPhase, qpskAngle, f64_three, f64_five, f64_seven]

theorem iqSign_eq (c : Bool) : iqSign c = volt (!c) := by
  cases c <;> simp [iqSign, volt]

theorem qamLevel_eq (c0 c1 : Bool) : qamLevel c0 c1 = qamAxis c0 c1 := by
  cases c0 <;> cases c1 <;> decide +kernel

/-! ### The phase of DPSK (R137) -/

/-- PI where the phase is turned, +0.0 where it is not. -/
def turnedPhase (turned : Bool) : F64 := if turned then 0x400921FB54442D18 else 0

/-- A 0 bit turns the phase of DPSK, before it is sent. -/
theorem dpskPhases_cons (p c : Bool) (b : List Bool) :
    dpskPhases (turnedPhase p) (c :: b) = turnedPhase (p != !c) :: dpskPhases (turnedPhase (p != !c)) b := by
  have hturn : (if feq (turnedPhase p) fzero then fpi else fzero) = turnedPhase (!p) := by cases p <;> decide +kernel
  cases c with
  | true => simp [dpskPhases]
  | false => simp only [dpskPhases, hturn, Bool.not_false, Bool.bne_true]

/-- The phase of DPSK has turned at each 0 up to the bit itself. -/
theorem dpskPhases_getElem? (p : Bool) {b : List Bool} {i : Nat} (h : i < b.length) :
    (dpskPhases (turnedPhase p) b)[i]? = some (turnedPhase (p != oddZeros b (i + 1))) := by
  induction b generalizing p i with
  | nil => exact absurd h (Nat.not_lt_zero i)
  | cons c b ih =>
    rw [dpskPhases_cons, oddZeros_eq, List.map_cons, oddOnes_cons_succ]
    cases i with
    | zero => simp
    | succ i => rw [List.getElem?_cons_succ, ih _ (Nat.lt_of_succ_lt_succ h), oddZeros_eq, Bool.bne_assoc]

/-! ### The schemes of the binary grid, written out (R132 to R137) -/

theorem askTx_eq {b : List Bool} (hb : 0 < b.length) :
    askTx b = binarySamples b.length fun m t =>
      fmul (if bit b m then 0x3FF0000000000000 else 0x3FC999999999999A) (fsin (phaseArg 0x4014000000000000 t)) :=
  binaryGrid_eq hb fun m _ t => by rw [askAmp_eq, carrierArg_carrierHz, bitAt, bit]

theorem fskTx_eq {b : List Bool} (hb : 0 < b.length) :
    fskTx b = binarySamples b.length fun m t =>
      fsin (phaseArg (if bit b m then 0x401C000000000000 else 0x4008000000000000) t) :=
  binaryGrid_eq hb fun m _ t => by rw [fskHz_eq, carrierArg, phaseArg, bitAt, bit]

theorem pskTx_eq {b : List Bool} (hb : 0 < b.length) :
    pskTx b = binarySamples b.length fun m t =>
      fsin (fadd (phaseArg 0x4014000000000000 t) (if bit b m then 0 else 0x400921FB54442D18)) :=
  binaryGrid_eq hb fun m _ t => by rw [carrierArg_carrierHz]; rfl

theorem dpskTx_eq {b : List Bool} (hb : 0 < b.length) :
    dpskTx b = binarySamples b.length fun m t =>
      fsin (fadd (phaseArg 0x4014000000000000 t) (if oddZeros b (m + 1) then 0x400921FB54442D18 else 0)) :=
  binaryGrid_eq hb fun m hm t => by
    have hphase : (dpskPhases fzero b)[m]? = some (turnedPhase (oddZeros b (m + 1))) :=
      (dpskPhases_getElem? false hm).trans (by rw [Bool.false_bne])
    rw [carrierArg_carrierHz, List.getD_eq_getElem?_getD, hphase, Option.getD_some, turnedPhase]

/-- Settles O39: each of the six commits, its samples known by bit index. -/
theorem dmodBinaryCompletes : Obligations.DmodBinaryCompletes := by
  intro s b hb
  have hpos := hb.positive
  simp only [List.forall_mem_cons]
  exact ⟨exec_dmod_commits rfl hb (askTx_eq hpos), exec_dmod_commits rfl hb (fskTx_eq hpos),
    exec_dmod_commits rfl hb (fskTx_eq hpos), exec_dmod_commits rfl hb (pskTx_eq hpos),
    exec_dmod_commits rfl hb (pskTx_eq hpos), exec_dmod_commits rfl hb (dpskTx_eq hpos), List.forall_mem_nil _⟩

/-! ### The schemes of the symbol grid, written out (R138, R140 to R142) -/

theorem bitsValue_pair (c0 c1 : Bool) : bitsValue [c0, c1] = 2 * c0.toNat + c1.toNat := by simp [bitsValue]

theorem bitsValue_triple (c0 c1 c2 : Bool) : bitsValue [c0, c1, c2] = 4 * c0.toNat + 2 * c1.toNat + c2.toNat := by
  simp only [bitsValue, List.foldl_cons, List.foldl_nil]
  omega

theorem qpskTx_eq {b : List Bool} (hb : 0 < b.length) :
    qpskTx b = symbolSamples b.length 2 fun i t =>
      fsin (fadd (phaseArg 0x4014000000000000 t) (qpskAngle (bit b i) (bit b (i + 1)))) :=
  symbolGrid_eq hb (by decide) fun i t => by rw [carrierArg_carrierHz, qpskPhase_eq]; rfl

theorem mfskTx_eq {b : List Bool} (hb : 0 < b.length) :
    mfskTx b = symbolSamples b.length 2 fun i t =>
      fsin (phaseArg (f64 (3 + 2 * (2 * (bit b i).toNat + (bit b (i + 1)).toNat))) t) :=
  symbolGrid_eq hb (by decide) fun i t => by rw [← bitsValue_pair]; rfl

theorem mpskTx_eq {b : List Bool} (hb : 0 < b.length) :
    mpskTx b = symbolSamples b.length 3 fun i t =>
      fsin (fadd (phaseArg 0x4014000000000000 t)
        (fmul (f64 (4 * (bit b i).toNat + 2 * (bit b (i + 1)).toNat + (bit b (i + 2)).toNat)) quarterPi)) :=
  symbolGrid_eq hb (by decide) fun i t => by rw [carrierArg_carrierHz, ← bitsValue_triple]; rfl

theorem qamTx_eq {b : List Bool} (hb : 0 < b.length) :
    qamTx b = symbolSamples b.length 4 fun i t =>
      fdiv (fadd (fmul (qamAxis (bit b i) (bit b (i + 1))) (fsin (phaseArg 0x4014000000000000 t)))
        (fmul (qamAxis (bit b (i + 2)) (bit b (i + 3))) (fcos (phaseArg 0x4014000000000000 t)))) 0x4008000000000000 :=
  symbolGrid_eq hb (by decide) fun i t => by rw [carrierArg_carrierHz, qamLevel_eq, qamLevel_eq, f64_three]; rfl

/-- Settles O40: each of the four commits, its samples known by the index of the symbol's first bit. -/
theorem dmodSymbolCompletes : Obligations.DmodSymbolCompletes := by
  intro s b hb
  have hpos := hb.positive
  simp only [List.forall_mem_cons]
  exact ⟨exec_dmod_commits rfl hb (qpskTx_eq hpos), exec_dmod_commits rfl hb (mfskTx_eq hpos),
    exec_dmod_commits rfl hb (mpskTx_eq hpos), exec_dmod_commits rfl hb (qamTx_eq hpos), List.forall_mem_nil _⟩

/-! ### OQPSK (R139) -/

theorem oqpskTx_eq (b : List Bool) :
    oqpskTx b = (List.range (100 * paddedLength b.length 2 + 1)).map fun j =>
      ⟨sampleAt j, oqpskSample b (paddedLength b.length 2 / 2) j⟩ := by
  simp only [oqpskTx, padBits_length b two_pos, paddedLength_div two_pos, bitAt_padBits, iqSign_eq, carrierArg_carrierHz,
    Nat.mul_comm _ 100]
  rfl

/-- Settles O41: the commit of OQPSK, its two bits of each sample read from the unpadded string. -/
theorem dmodOqpskCompletes : Obligations.DmodOqpskCompletes := fun _ b hb => exec_dmod_commits rfl hb (oqpskTx_eq b)

end Sys2Proof.Machine
end

section
/-! Analog to digital (44_analog_to_digital.md): the sample instants grow with their index from +0.0 to +∞, so their count is the K of R146;
the results of the two commands and their errors of capacity; the levels of A2D.PCM; the output of A2D.DELTA by index. -/

namespace Sys2Proof.Machine

/-! ### Operations that grow with their operand, +∞ included -/

/-- `g` maps values that are not negative to such values, and keeps their order. -/
def Grows (g : F64 → F64) : Prop :=
  ∀ x y, Nonneg y → x.toNat ≤ y.toNat → Nonneg (g y) ∧ (g x).toNat ≤ (g y).toNat

theorem Grows.comp {g h : F64 → F64} (hg : Grows g) (hh : Grows h) : Grows (g ∘ h) := fun x y hy hxy =>
  hg (h x) (h y) (hh x y hy hxy).1 (hh x y hy hxy).2

theorem nonneg_plusInf : Nonneg (signedInf false) := by unfold Nonneg; decide

theorem eq_plusInf_of_nonneg {x : F64} (hx : Nonneg x) (h : ¬ NonnegFinite x) : x = signedInf false :=
  BitVec.eq_of_toNat_eq (Nat.le_antisymm hx (Nat.not_lt.mp h))

/-- An operation grows if it does on finite values and keeps +∞. -/
theorem grows_of_finite {g : F64 → F64} (hinf : g (signedInf false) = signedInf false)
    (hnonneg : ∀ x, NonnegFinite x → Nonneg (g x))
    (hmono : ∀ x y, NonnegFinite x → NonnegFinite y → x.toNat ≤ y.toNat → (g x).toNat ≤ (g y).toNat) : Grows g := by
  intro x y hy hxy
  by_cases hyf : NonnegFinite y
  · exact ⟨hnonneg y hyf, hmono x y (hxy.trans_lt hyf) hyf hxy⟩
  rw [eq_plusInf_of_nonneg hy hyf, hinf]
  refine ⟨nonneg_plusInf, ?_⟩
  by_cases hxf : NonnegFinite x
  · exact hnonneg x hxf
  · rw [eq_plusInf_of_nonneg (hxy.trans hy) hxf, hinf]

theorem isZero_eq_false_of_toNat_ne_zero {x : F64} (hx : NonnegFinite x) (h0 : x.toNat ≠ 0) : isZero x = false := by
  rwa [Bool.eq_false_iff, ne_eq, isZero_iff, hx.nonneg.lowBits]

theorem grows_fadd {y : F64} (hy : NonnegFinite y) : Grows fun x => fadd x y :=
  grows_of_finite (sumOr_of_isInf_left (by decide) hy.isFinite)
    (fun x hx => by rw [fadd_nonneg hx hy]; exact fround_nonneg _ _) fun _ _ hx hx' => fadd_mono hx hx' hy

theorem grows_fmul {y : F64} (hy : NonnegFinite y) (h0 : y.toNat ≠ 0) : Grows fun x => fmul x y := by
  refine grows_of_finite ?_ (fun x hx => by rw [fmul_nonneg hx hy]; exact fround_nonneg _ _)
    fun _ _ hx hx' => fmul_mono hx hx' hy
  rw [(fmul_of_isInf (by decide) hy.nonneg.isNaN (isZero_eq_false_of_toNat_ne_zero hy h0)).1, hy.nonneg.fsign]
  rfl

theorem grows_fdiv {y : F64} (hy : NonnegFinite y) (h0 : y.toNat ≠ 0) : Grows fun x => fdiv x y := by
  refine grows_of_finite ?_ (fun x hx => by rw [fdiv_nonneg hx hy h0]; exact fround_nonneg _ _)
    fun _ _ hx hx' => fdiv_mono hx hx' hy h0
  rw [fdiv_of_isInf_left (by decide) hy.isFinite, hy.nonneg.fsign]
  rfl

theorem grows_ffloor : Grows ffloor :=
  grows_of_finite (by decide) (fun x hx => by rw [ffloor_nonneg hx]; exact f64_nonneg _) fun _ _ => ffloor_mono

theorem nonnegFinite_half : NonnegFinite (fdec 1 2) := by rw [half_eq]; unfold NonnegFinite; decide

theorem nonnegFinite_million : NonnegFinite (f64 1000000) ∧ (f64 1000000).toNat ≠ 0 := by
  rw [f64_million]
  unfold NonnegFinite
  decide

theorem grows_rhu : Grows rhu := grows_ffloor.comp (grows_fadd nonnegFinite_half)

theorem grows_round6 : Grows round6 := by
  obtain ⟨hfin, hne⟩ := nonnegFinite_million
  exact (grows_fdiv hfin hne).comp (grows_rhu.comp (grows_fmul hfin hne))

/-! ### The sample instants (R146) -/

theorem PositiveFinite.nonnegFinite {x : F64} (h : PositiveFinite x) : NonnegFinite x ∧ x.toNat ≠ 0 :=
  nonnegFinite_of_isPositiveFinite ((isPositiveFinite_iff x).mpr h)

theorem sampleInstant_eq (fs : F64) (k : Nat) : sampleInstant fs k =
    fdiv (ffloor (fadd (fmul (fdiv (f64 k) fs) 0x412E848000000000) 0x3FE0000000000000)) 0x412E848000000000 := by
  rw [sampleInstant, round6, rhu, half_eq, f64_million]

/-- T[k] is an operation that grows, at f64(k). -/
theorem grows_instant {fs : F64} (h : PositiveFinite fs) : Grows fun x => round6 (fdiv x fs) := by
  obtain ⟨hfin, hne⟩ := h.nonnegFinite
  exact grows_round6.comp (grows_fdiv hfin hne)

theorem sampleInstant_grows {fs : F64} (h : PositiveFinite fs) {j k : Nat} (hjk : j ≤ k) :
    Nonneg (sampleInstant fs k) ∧ (sampleInstant fs j).toNat ≤ (sampleInstant fs k).toNat := by
  rw [sampleInstant, sampleInstant]
  exact grows_instant h (f64 j) (f64 k) (f64_nonneg k) (f64_mono hjk)

theorem sampleInstant_nonneg {fs : F64} (h : PositiveFinite fs) (k : Nat) : Nonneg (sampleInstant fs k) :=
  (sampleInstant_grows h (le_refl k)).1

theorem sampleInstant_mono {fs : F64} (h : PositiveFinite fs) {j k : Nat} (hjk : j ≤ k) :
    fle (sampleInstant fs j) (sampleInstant fs k) = true := by
  rw [fle_of_nonneg (sampleInstant_nonneg h j) (sampleInstant_nonneg h k), decide_eq_true_eq]
  exact (sampleInstant_grows h hjk).2

theorem sampleInstant_zero {fs : F64} (h : PositiveFinite fs) : sampleInstant fs 0 = 0 := by
  obtain ⟨hfin, hne⟩ := h.nonnegFinite
  exact sampleInstant_zero_toNat hfin hne

/-- 2^1024 overflows to +∞ (R17). -/
theorem exists_f64_eq_plusInf : ∃ n, f64 n = signedInf false := by
  have hpow : 2 ^ 1024 * oneUnits = 2 ^ 2098 := by rw [oneUnits_eq, ← pow_add]
  refine ⟨2 ^ 1024, eq_plusInf_of_nonneg (f64_nonneg _) ?_⟩
  rw [NonnegFinite, f64, fround_toNat, roundBits_lt_inf_iff Nat.one_pos, hpow, Nat.mul_one, Nat.not_lt]
  exact Nat.sub_le _ _

/-- The instants do not stay before t = 2.0: the index itself overflows in the end. -/
theorem exists_instant_after {fs : F64} (h : PositiveFinite fs) : ∃ k, fle (sampleInstant fs k) (f64 2) = false := by
  obtain ⟨hfin, -⟩ := h.nonnegFinite
  obtain ⟨n, hn⟩ := exists_f64_eq_plusInf
  refine ⟨n, ?_⟩
  rw [sampleInstant, hn, fdiv_of_isInf_left (by decide) hfin.isFinite, hfin.nonneg.fsign]
  decide +kernel

/-- Settles O48: every operation of R146 grows with its operand, and an instant in the end is +∞. -/
theorem sampleInstants : Obligations.SampleInstants := by
  refine ⟨sampleInstant_eq, fun fs h => ⟨fun j k => sampleInstant_mono h, sampleInstant_zero h, ?_⟩⟩
  have hafter := exists_instant_after h
  have hbefore : ∀ j < Nat.find hafter, fle (sampleInstant fs j) (f64 2) = true := fun j hj =>
    Bool.eq_true_of_not_eq_false (Nat.find_min hafter hj)
  refine ⟨Nat.find hafter, ?_, ⟨hbefore, Nat.find_spec hafter⟩, fun j => ⟨fun hj => ?_, hbefore j⟩⟩
  · refine (Nat.find_pos hafter).mpr ?_
    rw [sampleInstant_zero h]
    decide +kernel
  · by_contra hle
    have hle2 := fle_trans (sampleInstant_mono h (Nat.not_lt.mp hle)) hj
    rw [Nat.find_spec hafter] at hle2
    exact absurd hle2 (by decide)

/-! ### The count of the instants (R146, R149) -/

/-- All the instants counted are sampled. -/
theorem fle_of_lt_countInstants {fs : F64} {fuel i j : Nat} (hij : i ≤ j) (hj : j < countInstants fs fuel i) :
    fle (sampleInstant fs j) tEnd = true := by
  induction fuel generalizing i with
  | zero => exact absurd hj (Nat.not_lt.mpr hij)
  | succ fuel ih =>
    rw [countInstants] at hj
    split at hj
    case isTrue hi =>
      rcases Nat.eq_or_lt_of_le hij with rfl | hlt
      · exact hi
      · exact ih hlt hj
    case isFalse => exact absurd hj (Nat.not_lt.mpr hij)

theorem fle_of_lt_instantCount {fs : F64} {j : Nat} (hj : j < instantCount fs) : fle (sampleInstant fs j) (f64 2) = true := by
  rw [← tEnd_eq]
  exact fle_of_lt_countInstants (Nat.zero_le j) hj

/-- Instants that are sampled are counted, as far as the count goes. -/
theorem le_countInstants_of_sampled {fs : F64} {fuel i k : Nat} (hk : k ≤ i + fuel)
    (h : ∀ j, i ≤ j → j < k → fle (sampleInstant fs j) tEnd = true) : k ≤ countInstants fs fuel i := by
  induction fuel generalizing i with
  | zero => exact hk
  | succ fuel ih =>
    rcases Nat.lt_or_ge i k with hik | hik
    · rw [countInstants, if_pos (h i le_rfl hik)]
      exact ih (by omega) fun j hj => h j (by omega)
    · exact hik.trans (le_countInstants fs _ i)

theorem lt_instantCount_of_sampled {fs : F64} {n : Nat} (hn : n ≤ Config.maxPoints)
    (h : ∀ j ≤ n, fle (sampleInstant fs j) (f64 2) = true) : n < instantCount fs :=
  le_countInstants_of_sampled (by omega) fun j _ hj => tEnd_eq ▸ h j (by omega)

/-- A number of instants within capacity is counted exactly. -/
theorem instantCount_eq {fs : F64} {k : Nat} (h : InstantsAre fs k) (hk : k ≤ Config.maxPoints) : instantCount fs = k :=
  countInstants_eq (Nat.zero_le k) (by omega) (fun j _ hj => tEnd_eq ▸ h.before j hj) (tEnd_eq ▸ h.after)

/-! ### A2D.PCM within capacity (R151) -/

theorem exec_pcm_of_legal {s : State} {k : Nat} (hf : PositiveFinite s.freq) (ha : PositiveFinite s.ampl)
    (hs : PositiveFinite s.srate) (hq : 2 ≤ s.qlevels.toNat) (hk : InstantsAre s.srate k) (hmax : k ≤ Config.maxPoints) :
    exec .a2dPcm s = .next (commitSignal s (pcmSignal s.freq s.ampl s.srate s.qlevels.toNat k)) := by
  have hcount := instantCount_eq hk hmax
  have outcome := (pcmOutcome_eq_ok s _).mpr ⟨(isPositiveFinite_iff _).mpr hf, (isPositiveFinite_iff _).mpr ha,
    (isPositiveFinite_iff _).mpr hs, hq, hcount.le.trans hmax, rfl⟩
  rw [signalCommand_pcm.run, outcome, hcount]
  rfl

theorem pcmLevel_eq (amp d v : F64) : pcmLevel amp d v =
    rhu (fmul (fclamp (fdiv (fadd v amp) (fmul 0x4000000000000000 amp)) 0 0x3FF0000000000000) d) := by
  rw [pcmLevel, f64_two, fone_eq, fzero_eq, voltZero, voltPlus]

theorem pcmReconstruct_eq (amp d q : F64) :
    pcmReconstruct amp d q = fsub (fmul (fdiv q d) (fmul 0x4000000000000000 amp)) amp := by
  rw [pcmReconstruct, f64_two]

/-- Settles O44: the count of the instants is K, and the result is `pcmSignal` with the literals of R151. -/
theorem pcmCompletes : Obligations.PcmCompletes := by
  intro s k hf ha hs hq hk hmax
  refine ⟨fun j => interp (analogPoints s.freq s.ampl 100) (sampleInstant s.srate j),
    fun j => pcmLevel s.ampl (f64 (s.qlevels.toNat - 1)) (interp (analogPoints s.freq s.ampl 100) (sampleInstant s.srate j)),
    _, fun _ _ => rfl, fun _ _ => pcmLevel_eq _ _ _, exec_pcm_of_legal hf ha hs hq hk hmax, ?_, ?_⟩
  · simp [pcmSignal]
  · simp only [← pcmReconstruct_eq]
    exact commitSignal_committed s (pcm_fits hmax)

/-! ### A2D.DELTA within capacity (R154) -/

theorem exec_delta_of_legal {s : State} {k : Nat} (hf : PositiveFinite s.freq) (ha : PositiveFinite s.ampl)
    (hs : PositiveFinite s.srate) (hr : flt 0 s.deltaRatio = true) (hr' : fle s.deltaRatio 0x3FF0000000000000 = true)
    (hk : InstantsAre s.srate k) (hmax : 2 * k ≤ Config.maxPoints) :
    exec .a2dDelta s = .next (commitSignal s (deltaSignal s.freq s.ampl s.srate s.deltaRatio k)) := by
  have hcount := instantCount_eq hk (by omega)
  have outcome := (deltaOutcome_eq_ok s _).mpr ⟨(isPositiveFinite_iff _).mpr hf, (isPositiveFinite_iff _).mpr ha,
    (isPositiveFinite_iff _).mpr hs, by rw [fone_eq]; exact Bool.and_eq_true_iff.mpr ⟨hr, hr'⟩, by rwa [hcount], rfl⟩
  rw [signalCommand_delta.run, outcome, hcount]
  rfl

theorem deltaNext_eq (amp ratio v a : F64) : deltaNext amp ratio v a =
    fclamp (if flt a v then fadd a (fmul amp ratio) else fsub a (fmul amp ratio))
      (fneg (fmul 0x3FF8000000000000 amp)) (fmul 0x3FF8000000000000 amp) := by
  rw [deltaNext, deltaBit, fdec_three_halves]

theorem bitLevel_eq (b : Bool) : bitLevel b = if b then 0x3FF0000000000000 else 0 := by cases b <;> decide +kernel

/-- The output of A2D.DELTA is the staircase of its approximations. -/
theorem deltaSignal_output (f amp fs ratio : F64) (k : Nat) : (deltaSignal f amp fs ratio k).output =
    staircase k (sampleInstant fs) (deltaApprox f amp fs ratio) := by
  rw [deltaSignal, staircase, tEnd_eq, f64_two]
  refine congrArg (· ++ _) (flatMap_range_congr fun j _ => ?_)
  rw [deltaOutput, fdec_one_thousandth]
  split
  next h => rw [h]
  next => rfl

/-- Settles O45: the count of the instants is K, and the result is `deltaSignal` with the literals of R154. -/
theorem deltaCompletes : Obligations.DeltaCompletes := by
  intro s k hf ha hs hr hr' hk hmax
  refine ⟨fun j => interp (analogPoints s.freq s.ampl 100) (sampleInstant s.srate j),
    deltaApprox s.freq s.ampl s.srate s.deltaRatio, _, fun _ _ => rfl, rfl, fun _ _ => deltaNext_eq _ _ _ _,
    exec_delta_of_legal hf ha hs hr hr' hk hmax, ?_, ?_⟩
  · simp [deltaSignal]
  · simp only [← bitLevel_eq, ← deltaSignal_output]
    exact commitSignal_committed s (delta_fits hmax)

/-! ### CapacityExceeded (R149, R167) -/

theorem exec_pcm_of_full {s : State} (hf : PositiveFinite s.freq) (ha : PositiveFinite s.ampl) (hs : PositiveFinite s.srate)
    (hq : 2 ≤ s.qlevels.toNat) (hk : Config.maxPoints < instantCount s.srate) :
    exec .a2dPcm s = .next (zeroedError s 0x00000406) := by
  have hconfig : checkPcmConfig s = .ok () := by
    rw [checkPcmConfig_eq, (isPositiveFinite_iff _).mpr hs, decide_eq_true hq]
    rfl
  have outcome : pcmOutcome s = .error (.error .capacityExceeded) := by
    rw [pcmOutcome, checkAnalog_eq_ok hf ha, hconfig, checkCapacity, if_pos hk]
    rfl
  rw [signalCommand_pcm.run, outcome]
  exact congrArg Host.Outcome.next (errorCompletion_zeroed s (by decide) .capacityExceeded)

theorem exec_delta_of_full {s : State} (hf : PositiveFinite s.freq) (ha : PositiveFinite s.ampl) (hs : PositiveFinite s.srate)
    (hr : flt 0 s.deltaRatio = true) (hr' : fle s.deltaRatio 0x3FF0000000000000 = true)
    (hk : Config.maxPoints < 2 * instantCount s.srate) : exec .a2dDelta s = .next (zeroedError s 0x00000406) := by
  have hconfig : checkDeltaConfig s = .ok () := by
    rw [checkDeltaConfig_eq, (isPositiveFinite_iff _).mpr hs, fone_eq, if_pos]
    exact Bool.and_eq_true_iff.mpr ⟨rfl, Bool.and_eq_true_iff.mpr ⟨hr, hr'⟩⟩
  have outcome : deltaOutcome s = .error (.error .capacityExceeded) := by
    rw [deltaOutcome, checkAnalog_eq_ok hf ha, hconfig, checkCapacity, if_pos hk]
    rfl
  rw [signalCommand_delta.run, outcome]
  exact congrArg Host.Outcome.next (errorCompletion_zeroed s (by decide) .capacityExceeded)

/-- Every AMOD command completes with the outcome of a sample (R157). -/
theorem exists_amodSample {i : Instr} (hi : i.family = .amod) :
    ∃ y, ∀ s, exec i s = .next (finishSignal s .amod (amodOutcome s y)) := by
  cases i
  case amodAm | amodFm | amodPm => exact ⟨_, fun _ => rfl⟩
  all_goals cases hi

/-- An AMOD command has no other end than success and InvalidParameter. -/
theorem amod_ends {i : Instr} (hi : i.family = .amod) {s t : State} (run : exec i s = .next t) :
    t.status = 0x00000002 ∨ t = zeroedError s 0x00000106 := by
  by_cases legal : PositiveFinite s.freq ∧ PositiveFinite s.ampl
  · obtain ⟨y, hy⟩ := exists_amodSample hi
    obtain ⟨t', run', -, -, -, h⟩ := exec_amod_committed (hy s) legal.1 legal.2
    cases run.symm.trans run'
    exact .inl h.status
  · have run' := analogParameterErrors.1 i (.inr hi) s (not_and_or.mp legal)
    exact .inr (Host.Outcome.next.inj (run.symm.trans run'))

theorem readPointsFrom_error {m : Memory} {n i : Nat} {e : Stop} (h : readPointsFrom m n i = .error e) : e = .unwritten := by
  induction n generalizing i with
  | zero => cases h
  | succ n ih =>
    rw [readPointsFrom] at h
    split at h
    next => cases h; rfl
    next =>
      cases hr : readPointsFrom m n (i + 1) with
      | error e' => rw [hr] at h; cases h; exact ih hr
      | ok ps => rw [hr] at h; cases h

/-- ReadPoints fails with InvalidInput or at an unwritten word (R105). -/
theorem readPoints_error_cases {s : State} {e : Stop} (h : readPoints s = .error e) :
    e = .error .invalidInput ∨ e = .unwritten := by
  rw [readPoints] at h
  split at h
  next => cases h; exact .inl rfl
  next => exact .inr (readPointsFrom_error h)

/-- INTERP.LINEAR has no other end than success, InvalidInput, InvalidParameter and the fault mark. -/
theorem interp_ends {s t : State} (run : exec .interpLinear s = .next t) :
    t.status = 0x00000002 ∨ t.status = 0x00000206 ∨ t.status = 0x00000106 ∨ t.status = s.status := by
  cases hp : readPoints s with
  | error e =>
    cases run.symm.trans (exec_of_readPoints_error hp)
    rcases readPoints_error_cases hp with rfl | rfl
    · exact .inr (.inl rfl)
    · exact .inr (.inr (.inr rfl))
  | ok ps =>
    have hps := (readPoints_eq_ok s ps).mp hp
    rw [exec_interpLinear] at run
    cases hn : isNaN s.tQuery with
    | false =>
      rw [(interpOutcome_eq_ok s _).mpr ⟨ps, hps, hn, rfl⟩] at run
      cases run
      exact .inl rfl
    | true =>
      rw [interpOutcome_of_nan hps hn] at run
      cases run
      exact .inr (.inr (.inl rfl))

/-- No family but A2D ends with ERRCODE 4: each has named ends, of other codes. -/
theorem errCodeField_ne_four {i : Instr} {s t : State} (hi : i.family ≠ .a2d) (hs : s.status = 0x00000001)
    (run : exec i s = .next t) : errCodeField t.status ≠ 4 := by
  have bits (h : i.family = .line ∨ i.family = .dmod) : errCodeField t.status ≠ 4 := by
    rcases bitCommand_ends h run with ht | rfl | rfl
    · rw [ht]; decide
    · exact (by decide : errCodeField 0x00000206 ≠ 4)
    · rw [hs]; decide
  cases hfam : i.family with
  | line => exact bits (.inl hfam)
  | dmod => exact bits (.inr hfam)
  | a2d => exact absurd hfam hi
  | amod =>
    rcases amod_ends hfam run with ht | rfl
    · rw [ht]; decide
    · exact (by decide : errCodeField 0x00000106 ≠ 4)
  | interp =>
    obtain rfl := eq_interpLinear_of_family hfam
    rcases interp_ends run with ht | ht | ht | ht
    · rw [ht]; decide
    · rw [ht]; decide
    · rw [ht]; decide
    · rw [ht, hs]; decide

/-- Settles O47: instants sampled up to n are more than n, and every other family has its own ends. -/
theorem capacityErrors : Obligations.CapacityErrors := by
  refine ⟨fun s hf ha hs => ⟨fun hq hall => ?_, fun hr hr' hall => ?_⟩, fun i s t => errCodeField_ne_four⟩
  · exact exec_pcm_of_full hf ha hs hq (lt_instantCount_of_sampled le_rfl hall)
  · have hlt := lt_instantCount_of_sampled (by omega) hall
    exact exec_delta_of_full hf ha hs hr hr' (by omega)

/-! ### A clamp lies within its bounds (R14, log 6) -/

theorem fle_self {x : F64} (h : isNaN x = false) : fle x x = true := (fle_iff x x).mpr ⟨h, h, le_rfl⟩

theorem fclamp_mem {lo hi : F64} (v : F64) (h : fle lo hi = true) :
    fle lo (fclamp v lo hi) = true ∧ fle (fclamp v lo hi) hi = true := by
  obtain ⟨hlo, hhi, -⟩ := (fle_iff lo hi).mp h
  cases hv : isNaN v with
  | true =>
    rw [fclamp, if_pos hv]
    split
    next hfree => exact Bool.and_eq_true_iff.mp hfree
    next => exact ⟨fle_self hlo, h⟩
  | false =>
    cases hbelow : fle lo v with
    | false =>
      rw [fclamp_of_flt h (flt_of_fle_eq_false hlo hv hbelow)]
      exact ⟨fle_self hlo, h⟩
    | true =>
      cases habove : fle v hi with
      | false =>
        rw [fclamp_of_flt_hi h (flt_of_fle_eq_false hv hhi habove)]
        exact ⟨h, fle_self hhi⟩
      | true =>
        rw [fclamp_of_between hbelow habove]
        exact ⟨hbelow, habove⟩

/-! ### The levels of A2D.PCM (R152) -/

/-- A value within [0, 1] is −0.0, or a pattern from that of +0.0 to that of 1.0. -/
theorem unit_cases {c : F64} (h0 : fle 0 c = true) (h1 : fle c voltPlus = true) :
    c = signedZero true ∨ NonnegFinite c ∧ c.toNat ≤ voltPlus.toNat := by
  obtain ⟨-, -, hk0⟩ := (fle_iff 0 c).mp h0
  obtain ⟨-, -, hk1⟩ := (fle_iff c voltPlus).mp h1
  rw [show fkey 0 = 0 by decide, fkey_eq] at hk0
  rw [show fkey voltPlus = (0x3FF0000000000000 : Nat) by decide, fkey_eq] at hk1
  cases hsign : fsign c with
  | true =>
    rw [hsign, if_pos rfl] at hk0
    have hzero : lowBits c = 0 := by omega
    exact .inl (hsign ▸ (isZero_iff_eq_signedZero c).mp ((isZero_iff c).mpr hzero))
  | false =>
    rw [hsign, if_neg Bool.false_ne_true] at hk1
    have hpat := fsign_eq c
    rw [hsign, eq_comm, decide_eq_false_iff_not] at hpat
    have hle : c.toNat ≤ voltPlus.toNat := by
      rw [show voltPlus.toNat = 0x3FF0000000000000 by decide]
      unfold lowBits at hk1
      omega
    exact .inr ⟨hle.trans_lt (by decide), hle⟩

/-- A whole number of at most 2^53 is a finite pattern of exactly its units. -/
theorem f64_units {n : Nat} (hn : n ≤ 2 ^ 53) : NonnegFinite (f64 n) ∧ fmag (f64 n) = n * oneUnits := by
  obtain ⟨hfin, hmag⟩ := roundBits_f64 hn
  have hpat : (f64 n).toNat = roundBits (n * oneUnits) 1 := fround_toNat _ _
  rw [NonnegFinite, fmag_eq, (f64_nonneg n).lowBits, hpat]
  exact ⟨hfin, hmag⟩

theorem fround_fmag {x : F64} (hx : NonnegFinite x) {d : Nat} (hd : 0 < d) : roundBits (fmag x * d) d = x.toNat := by
  rw [fmag_eq, hx.nonneg.lowBits, roundBits_magBits hd hx]

/-- 1.0 × x is x. -/
theorem fmul_voltPlus {x : F64} (hx : NonnegFinite x) : (fmul voltPlus x).toNat = x.toNat := by
  obtain ⟨hone, hmag⟩ := f64_units (n := 1) (by norm_num)
  rw [f64_one_eq] at hone hmag
  rw [fmul_nonneg hone hx, fround_toNat, hmag, Nat.one_mul, Nat.mul_comm, fround_fmag hx oneUnits_pos]

/-- A finite value is at most scaled down by a factor within [0, 1]. -/
theorem fmul_unit_le {c x : F64} (hc : NonnegFinite c) (hc1 : c.toNat ≤ voltPlus.toNat) (hx : NonnegFinite x) :
    (fmul c x).toNat ≤ x.toNat :=
  (fmul_mono hc (show NonnegFinite voltPlus by unfold NonnegFinite; decide) hx hc1).trans_eq (fmul_voltPlus hx)

/-- An integer of fewer than 53 bits and a power of two in range make a finite magnitude. -/
theorem exists_magBits_eq {m e : Nat} (hm : 0 < m) (hm' : m < 2 ^ 53) (he : 52 ≤ e) (he' : e ≤ 2000) :
    ∃ b < 0x7FF0000000000000, magBits b = m * 2 ^ e := by
  have hlog : m.log2 ≤ 52 := Nat.le_of_lt_succ ((Nat.log2_lt hm.ne').mpr hm')
  have hlow : 2 ^ 52 ≤ m * 2 ^ (52 - m.log2) := by
    calc 2 ^ 52 = 2 ^ m.log2 * 2 ^ (52 - m.log2) := by rw [← pow_add, Nat.add_sub_cancel' hlog]
      _ ≤ m * 2 ^ (52 - m.log2) := Nat.mul_le_mul_right _ (Nat.log2_self_le hm.ne')
  have hhigh : m * 2 ^ (52 - m.log2) < 2 ^ 53 := by
    calc m * 2 ^ (52 - m.log2) < 2 ^ (m.log2 + 1) * 2 ^ (52 - m.log2) :=
          Nat.mul_lt_mul_of_pos_right Nat.lt_log2_self (by positivity)
      _ = 2 ^ 53 := by rw [← pow_add]; congr 1; omega
  refine ⟨(e - (52 - m.log2)) * 2 ^ 52 + m * 2 ^ (52 - m.log2), by omega, ?_⟩
  rw [magBits_pattern hhigh.le (.inr hlow), Nat.mul_assoc, ← pow_add, Nat.add_sub_cancel' (by omega)]

theorem fmag_half : fmag (fdec 1 2) = 2 ^ 1073 := by rw [half_eq]; decide +kernel

theorem oneUnits_eq_fmag_half_mul_two : oneUnits = fmag (fdec 1 2) * 2 := by rw [oneUnits_eq, fmag_half]; exact pow_succ 2 1073

/-- n + 0.5 is exact. -/
theorem fadd_half_units {n : Nat} (hn : n < 2 ^ 52) :
    NonnegFinite (fadd (f64 n) (fdec 1 2)) ∧ fmag (fadd (f64 n) (fdec 1 2)) = (2 * n + 1) * fmag (fdec 1 2) := by
  obtain ⟨hfin, hmag⟩ := f64_units (n := n) (by omega)
  obtain ⟨b, hb, hbm⟩ := exists_magBits_eq (m := 2 * n + 1) (e := 1073) (by omega) (by omega) (by norm_num) (by norm_num)
  have hsum : fmag (f64 n) + fmag (fdec 1 2) = magBits b * 1 := by
    rw [hmag, hbm, ← fmag_half, oneUnits_eq_fmag_half_mul_two]
    ring
  have hnn : Nonneg (fadd (f64 n) (fdec 1 2)) := by rw [fadd_nonneg hfin nonnegFinite_half]; exact fround_nonneg _ _
  have hpat : (fadd (f64 n) (fdec 1 2)).toNat = b := by
    rw [fadd_nonneg hfin nonnegFinite_half, fround_toNat, hsum, roundBits_magBits Nat.one_pos hb]
  rw [NonnegFinite, fmag_eq (fadd _ _), hnn.lowBits, hpat, fmag_half]
  exact ⟨hb, hbm⟩

/-- A value from +0.0 to a whole number n rounds to a whole number of at most n. -/
theorem rhu_le {x : F64} (hx : NonnegFinite x) {n : Nat} (hn : n < 2 ^ 52) (h : x.toNat ≤ (f64 n).toNat) :
    ∃ q ≤ n, rhu x = f64 q := by
  obtain ⟨hfin, -⟩ := f64_units (n := n) (by omega)
  obtain ⟨hsum, hmag⟩ := fadd_half_units hn
  have hle := fadd_mono hx hfin nonnegFinite_half h
  have hx' : NonnegFinite (fadd x (fdec 1 2)) := hle.trans_lt hsum
  refine ⟨fmag (fadd x (fdec 1 2)) / oneUnits, Nat.le_of_lt_succ ((Nat.div_lt_iff_lt_mul oneUnits_pos).mpr ?_),
    by rw [rhu, ffloor_nonneg hx']⟩
  calc fmag (fadd x (fdec 1 2)) ≤ (2 * n + 1) * fmag (fdec 1 2) := hmag ▸ fmag_mono hx'.nonneg hsum.nonneg hle
    _ < (2 * n + 2) * fmag (fdec 1 2) :=
        Nat.mul_lt_mul_of_pos_right (by omega) (fmag_pos nonnegFinite_half (by rw [half_eq]; decide))
    _ = (n + 1) * oneUnits := by rw [oneUnits_eq_fmag_half_mul_two]; ring

theorem fmul_negZero {x : F64} (hx : NonnegFinite x) : fmul (signedZero true) x = signedZero true := by
  rw [fmul_of_isFinite (by decide) hx.isFinite, hx.nonneg.fsign, show fmag (signedZero true) = 0 by decide, Nat.zero_mul]
  simp [fround, roundBits, rneDiv, fsign, signedZero, fpack, oneUnits_pos]

/-- Every level is a whole number of at most D, whatever the value quantised (R152). -/
theorem exists_pcmLevel_eq (amp v : F64) {n : Nat} (hn : n < 2 ^ 52) : ∃ q ≤ n, pcmLevel amp (f64 n) v = f64 q := by
  obtain ⟨hfin, -⟩ := f64_units (n := n) (by omega)
  rw [pcmLevel, fone_eq]
  obtain ⟨h0, h1⟩ := fclamp_mem (fdiv (fadd v amp) (fmul (f64 2) amp)) (lo := fzero) (hi := voltPlus) (by decide)
  rcases unit_cases h0 h1 with hc | ⟨hc, hc1⟩
  · refine ⟨0, Nat.zero_le n, ?_⟩
    rw [hc, fmul_negZero hfin]
    decide +kernel
  · have hle := fmul_unit_le hc hc1 hfin
    exact rhu_le (hle.trans_lt hfin) hn hle

theorem fvalue_f64 {n : Nat} (hn : n ≤ 2 ^ 53) : fvalue (f64 n) = n := by
  have h := (f64Int_exact_of_natAbs_le (z := n) (by omega)).2
  rwa [f64Int_natCast] at h

/-- Settles O49: the clamp lies within [0, 1], so the rounded product lies within [0, D]. -/
theorem pcmLevelsInRange : Obligations.PcmLevelsInRange := by
  intro s t hs run ht k hk
  obtain ⟨r, hr, h⟩ := signalCommand_pcm.committed hs run ht
  obtain ⟨-, -, -, -, -, rfl⟩ := (pcmOutcome_eq_ok s r).mp hr
  rw [h.txCount] at hk
  have hlevels := s.qlevels.isLt
  obtain ⟨q, hq, heq⟩ := exists_pcmLevel_eq s.ampl (interp (analogInput s.freq s.ampl 100) (sampleInstant s.srate k))
    (n := s.qlevels.toNat - 1) (by omega)
  refine ⟨_, q, h.txBuffer.1 k hk, hq, ?_⟩
  simp only [pcmSignal, List.getElem_map, List.getElem_range, heq, true_and]
  exact fvalue_f64 (by omega)

/-! ### The output of A2D.DELTA by index (R154) -/

/-- Point i of the output but for the last: the step of instant i / 2, and between two steps the hold Point of the later instant. -/
def deltaPoint (f amp fs ratio : F64) (i : Nat) : Point :=
  ⟨if i % 2 = 0 then sampleInstant fs (i / 2)
    else fmax (fsub (sampleInstant fs (i / 2 + 1)) (fdec 1 1000)) (sampleInstant fs (i / 2)),
   deltaApprox f amp fs ratio (i / 2 + 1)⟩

theorem deltaPoint_even (f amp fs ratio : F64) (j : Nat) :
    deltaPoint f amp fs ratio (2 * j) = ⟨sampleInstant fs j, deltaApprox f amp fs ratio (j + 1)⟩ := by
  rw [deltaPoint, if_pos (Nat.mul_mod_right 2 j), Nat.mul_div_cancel_left j two_pos]

theorem deltaPoint_odd (f amp fs ratio : F64) (j : Nat) : deltaPoint f amp fs ratio (2 * j + 1) =
    ⟨fmax (fsub (sampleInstant fs (j + 1)) (fdec 1 1000)) (sampleInstant fs j), deltaApprox f amp fs ratio (j + 1)⟩ := by
  rw [deltaPoint, if_neg (by omega), show (2 * j + 1) / 2 = j by omega]

theorem deltaOutputs_eq (f amp fs ratio : F64) (n : Nat) :
    (List.range (n + 1)).flatMap (deltaOutput f amp fs ratio) = (List.range (2 * n + 1)).map (deltaPoint f amp fs ratio) := by
  induction n with
  | zero => rfl
  | succ n ih =>
    have hlast : deltaOutput f amp fs ratio (n + 1) =
        [deltaPoint f amp fs ratio (2 * n + 1), deltaPoint f amp fs ratio (2 * (n + 1))] := by
      rw [deltaPoint_odd, deltaPoint_even]
      rfl
    rw [List.range_succ, List.flatMap_append, ih, List.flatMap_singleton, hlast, Nat.mul_succ, List.range_succ (n := 2 * n + 2),
      List.range_succ (n := 2 * n + 1)]
    simp

/-- The output over K instants: 2K − 1 steps and hold Points, and the last approximation at tEnd. -/
theorem deltaSignal_output_eq (f amp fs ratio : F64) {k : Nat} (hk : 0 < k) : (deltaSignal f amp fs ratio k).output =
    (List.range (2 * k - 1)).map (deltaPoint f amp fs ratio) ++ [⟨f64 2, deltaApprox f amp fs ratio k⟩] := by
  obtain ⟨n, rfl⟩ := Nat.exists_eq_add_of_le' hk
  rw [deltaSignal, deltaOutputs_eq, tEnd_eq, show 2 * (n + 1) - 1 = 2 * n + 1 by omega]

theorem deltaSignal_output_length (f amp fs ratio : F64) {k : Nat} (hk : 0 < k) :
    (deltaSignal f amp fs ratio k).output.length = 2 * k := by
  rw [deltaSignal_output_eq f amp fs ratio hk]
  simp
  omega

/-- The output at each index: `deltaPoint`, and at the last one the approximation after the last instant, at 2.0. -/
theorem deltaSignal_output_getElem {f amp fs ratio : F64} {k i : Nat} (hk : 0 < k)
    (hi : i < (deltaSignal f amp fs ratio k).output.length) :
    (i + 1 < 2 * k → (deltaSignal f amp fs ratio k).output[i] = deltaPoint f amp fs ratio i) ∧
    (i + 1 = 2 * k → (deltaSignal f amp fs ratio k).output[i] = ⟨f64 2, deltaApprox f amp fs ratio (i / 2 + 1)⟩) := by
  simp only [deltaSignal_output_eq f amp fs ratio hk]
  constructor
  · intro h
    rw [List.getElem_append_left (by simp; omega), List.getElem_map, List.getElem_range]
  · intro h
    rw [List.getElem_append_right (by simp; omega), List.getElem_singleton, show i / 2 + 1 = k by omega]

/-- At every index the output is an approximation, that of the instant before or at it. -/
theorem deltaSignal_output_y {f amp fs ratio : F64} {k i : Nat} (hk : 0 < k)
    (hi : i < (deltaSignal f amp fs ratio k).output.length) :
    (deltaSignal f amp fs ratio k).output[i].y = deltaApprox f amp fs ratio (i / 2 + 1) := by
  obtain ⟨inner, last⟩ := deltaSignal_output_getElem hk hi
  rw [deltaSignal_output_length f amp fs ratio hk] at hi
  rcases Nat.lt_or_ge (i + 1) (2 * k) with h | h
  · rw [inner h]; rfl
  · rw [last (by omega)]

/-- A successful A2D.DELTA has committed its signal over K instants up to 2.0, at least one. -/
theorem delta_committed {s t : State} (hs : s.status = 0x00000001) (run : exec .a2dDelta s = .next t)
    (ht : t.status = 0x00000002) : PositiveFinite s.ampl ∧ PositiveFinite s.srate ∧
      ∃ k r, 0 < k ∧ (∀ j < k, fle (sampleInstant s.srate j) (f64 2) = true) ∧
        r = deltaSignal s.freq s.ampl s.srate s.deltaRatio k ∧ SignalCommitted s t r.input r.transmitted r.output := by
  obtain ⟨r, hr, h⟩ := signalCommand_delta.committed hs run ht
  obtain ⟨-, hampl, hsrate, -, -, hsignal⟩ := (deltaOutcome_eq_ok s r).mp hr
  exact ⟨(isPositiveFinite_iff _).mp hampl, (isPositiveFinite_iff _).mp hsrate, _, r, instantCount_pos hsrate,
    fun _ => fle_of_lt_instantCount, hsignal, h⟩

/-! ### The bound of the output (R155) -/

theorem fle_fneg_self {x : F64} (hx : Nonneg x) : fle (fneg x) x = true := by
  refine (fle_iff _ _).mpr ⟨by rw [isNaN_fneg, hx.isNaN], hx.isNaN, ?_⟩
  rw [fkey_fneg, fkey_of_nonneg hx]
  omega

/-- 1.5 × A is not negative. -/
theorem deltaLimit_nonneg {amp : F64} (h : PositiveFinite amp) : Nonneg (fmul 0x3FF8000000000000 amp) := by
  obtain ⟨hfin, -⟩ := h.nonnegFinite
  rw [fmul_nonneg (by unfold NonnegFinite; decide) hfin]
  exact fround_nonneg _ _

theorem deltaApprox_succ_mem (f fs ratio : F64) {amp : F64} (h : PositiveFinite amp) (k : Nat) :
    fle (fneg (fmul 0x3FF8000000000000 amp)) (deltaApprox f amp fs ratio (k + 1)) = true ∧
    fle (deltaApprox f amp fs ratio (k + 1)) (fmul 0x3FF8000000000000 amp) = true := by
  rw [deltaApprox, deltaNext_eq]
  exact fclamp_mem _ (fle_fneg_self (deltaLimit_nonneg h))

/-- Settles O50: every output is an approximation after an instant, which is a clamp to ±1.5 A. -/
theorem deltaOutputBounded : Obligations.DeltaOutputBounded := by
  intro s t hs run ht i hi
  obtain ⟨hampl, -, k, _, hk, -, rfl, h⟩ := delta_committed hs run ht
  rw [h.outCount] at hi
  refine ⟨_, h.outBuffer.1 i hi, ?_⟩
  rw [deltaSignal_output_y hk]
  exact deltaApprox_succ_mem _ _ _ hampl _

/-! ### The order of the output (R156) -/

/-- A finite value less something rounds to no more than that value, which is itself a candidate. -/
theorem fvalue_le_of_roundsTo_sub {r x : F64} {y : ℚ} (hx : isFinite x = true) (h : RoundsTo r (fvalue x - y)) (hy : 0 ≤ y)
    (hr : |fvalue x - y| < 2 ^ 1024 - 2 ^ 970) : isFinite r = true ∧ fvalue r ≤ fvalue x := by
  obtain ⟨hfin, near⟩ := h.1 hr
  have hdist := (near x hx).1
  rw [sub_sub_cancel, abs_of_nonneg hy] at hdist
  exact ⟨hfin, by linarith [(abs_le.mp hdist).2]⟩

theorem two_lt_overflow_bound : (2 : ℚ) < 2 ^ 1024 - 2 ^ 970 := by
  have hone : (1 : ℚ) ≤ 2 ^ 970 := one_le_pow₀ one_le_two
  rw [show (2 : ℚ) ^ 1024 = 2 ^ 970 * 2 ^ 54 from pow_add 2 970 54]
  generalize (2 : ℚ) ^ 970 = u at hone ⊢
  linarith

/-- A value that is not negative and at most 2.0 is finite, with a value in [0, 2]. -/
theorem fvalue_mem_of_fle_two {x : F64} (hx : Nonneg x) (h : fle x (f64 2) = true) :
    isFinite x = true ∧ 0 ≤ fvalue x ∧ fvalue x ≤ 2 := by
  obtain ⟨htwo, -⟩ := f64_units (n := 2) (by norm_num)
  have hfin : NonnegFinite x := by
    rw [fle_of_nonneg hx htwo.nonneg, decide_eq_true_eq] at h
    exact h.trans_lt htwo
  refine ⟨hfin.isFinite, ?_, ?_⟩
  · rw [fvalue_eq_sign_mul, hx.fsign, if_neg Bool.false_ne_true]
    positivity
  · have hle := (comparisons_of_isFinite hfin.isFinite htwo.isFinite).2.1.mp h
    rwa [fvalue_f64 (by norm_num), Nat.cast_ofNat] at hle

/-- The hold time T − 0.001 of an instant up to 2.0 is not after it. -/
theorem fsub_thousandth_le {x : F64} (hx : Nonneg x) (h : fle x (f64 2) = true) : fle (fsub x (fdec 1 1000)) x = true := by
  obtain ⟨hxf, hx0, hx2⟩ := fvalue_mem_of_fle_two hx h
  obtain ⟨hyf, hy0, hy2⟩ := fvalue_mem_of_fle_two (x := fdec 1 1000) (fround_nonneg _ _) (by decide +kernel)
  have hround : RoundsTo (fsub x (fdec 1 1000)) (fvalue x - fvalue (fdec 1 1000)) := by
    rw [sub_eq_add_neg, ← fvalue_fneg]
    exact sumOr_roundsTo hxf (by rw [isFinite_fneg, hyf])
  obtain ⟨hfin, hle⟩ := fvalue_le_of_roundsTo_sub hxf hround hy0
    ((abs_sub_le_of_nonneg_of_le hx0 hx2 hy0 hy2).trans_lt two_lt_overflow_bound)
  exact (comparisons_of_isFinite hfin hxf).2.1.mpr hle

/-- The greater of two values lies from the second to whatever bounds both. -/
theorem fmax_between {x y z : F64} (hxz : fle x z = true) (hyz : fle y z = true) :
    fle y (fmax x y) = true ∧ fle (fmax x y) z = true := by
  obtain ⟨hx, -, -⟩ := (fle_iff x z).mp hxz
  obtain ⟨hy, -, -⟩ := (fle_iff y z).mp hyz
  rw [fmax]
  split
  next => exact ⟨fle_self hy, hyz⟩
  next h =>
    have hle := (flt_eq_false_iff x y).mp (Bool.eq_false_iff.mpr h) hx hy
    exact ⟨(fle_iff y x).mpr ⟨hy, hx, hle⟩, hxz⟩

/-- A hold Point lies between its two instants. -/
theorem hold_between {fs : F64} (h : PositiveFinite fs) {j : Nat} (hj : fle (sampleInstant fs (j + 1)) (f64 2) = true) :
    fle (sampleInstant fs j) (fmax (fsub (sampleInstant fs (j + 1)) (fdec 1 1000)) (sampleInstant fs j)) = true ∧
    fle (fmax (fsub (sampleInstant fs (j + 1)) (fdec 1 1000)) (sampleInstant fs j)) (sampleInstant fs (j + 1)) = true :=
  fmax_between (fsub_thousandth_le (sampleInstant_nonneg h _) hj) (sampleInstant_mono h (Nat.le_succ j))

/-- Neighbouring output Points: in order, no change of y after an even index, and the next instant after an odd one. -/
theorem deltaSignal_output_neighbours {f amp fs ratio : F64} {k : Nat} (h : PositiveFinite fs) (hpos : 0 < k)
    (before : ∀ j < k, fle (sampleInstant fs j) (f64 2) = true) {i : Nat}
    (hi : i + 1 < (deltaSignal f amp fs ratio k).output.length) :
    fle (deltaSignal f amp fs ratio k).output[i].x (deltaSignal f amp fs ratio k).output[i + 1].x = true ∧
    (i % 2 = 0 → (deltaSignal f amp fs ratio k).output[i + 1].y = (deltaSignal f amp fs ratio k).output[i].y) ∧
    (i % 2 = 1 → (deltaSignal f amp fs ratio k).output[i + 1].x = sampleInstant fs ((i + 1) / 2)) := by
  obtain ⟨inner, -⟩ := deltaSignal_output_getElem hpos (Nat.lt_of_succ_lt hi)
  obtain ⟨inner', last'⟩ := deltaSignal_output_getElem hpos hi
  have hlen := deltaSignal_output_length f amp fs ratio hpos
  rw [inner (by omega)]
  rcases Nat.even_or_odd' i with ⟨j, rfl | rfl⟩
  · have hy : (deltaSignal f amp fs ratio k).output[2 * j + 1].y = (deltaPoint f amp fs ratio (2 * j)).y := by
      rw [deltaSignal_output_y hpos, deltaPoint_even, show (2 * j + 1) / 2 = j by omega]
    refine ⟨?_, fun _ => hy, fun h => by omega⟩
    rw [deltaPoint_even]
    rcases Nat.lt_or_ge (2 * j + 1 + 1) (2 * k) with hlt | hge
    · rw [inner' hlt, deltaPoint_odd]
      exact (hold_between h (before (j + 1) (by omega))).1
    · rw [last' (by omega)]
      exact before j (by omega)
  · rw [inner' (by omega), show 2 * j + 1 + 1 = 2 * (j + 1) by omega, deltaPoint_even, deltaPoint_odd]
    exact ⟨(hold_between h (before (j + 1) (by omega))).2, fun h => by omega, fun _ => by
      rw [Nat.mul_div_cancel_left _ two_pos]⟩

/-- Settles O51: the output is `deltaPoint` by index, and a hold Point lies between its two instants. -/
theorem deltaOutputAscending : Obligations.DeltaOutputAscending := by
  intro s t hs run ht i hi
  obtain ⟨-, hsrate, k, _, hpos, before, rfl, h⟩ := delta_committed hs run ht
  rw [h.outCount] at hi
  exact ⟨_, _, h.outBuffer.1 i (Nat.lt_of_succ_lt hi), h.outBuffer.1 (i + 1) hi,
    deltaSignal_output_neighbours hsrate hpos before hi⟩

end Sys2Proof.Machine
end

section
/-! Errors (60_exceptions.md): the words that select no command; and what a failed command leaves, which is its error code and no
partial result. -/

namespace Sys2Proof.Machine

/-! ### The words that are not commands (R83, R166) -/

/-- The words of the tables of R77 to R81, family by family. -/
def commandWords : List Word := ((List.range 5).flatMap schemeTable).map encode

theorem nodup_commandWords : commandWords.Nodup := by decide

theorem length_commandWords : commandWords.length = 25 := by decide

theorem encode_mem_commandWords (i : Instr) : encode i ∈ commandWords := List.mem_map_of_mem (by cases i <;> decide)

/-- The command words are exactly the words that decode. -/
theorem mem_commandWords_iff {w : Word} : w ∈ commandWords ↔ ∃ i, decode w = .ok i := by
  constructor
  · intro hw
    obtain ⟨i, -, rfl⟩ := List.mem_map.mp hw
    exact ⟨i, decode_encode i⟩
  · rintro ⟨i, hi⟩
    exact eq_encode_of_decode hi ▸ encode_mem_commandWords i

theorem decode_error_of_not_mem {w : Word} (hw : w ∉ commandWords) : ∃ e, decode w = .error e :=
  decode_error_of_ne_encode fun i hi => hw (hi ▸ encode_mem_commandWords i)

theorem rsvdField_eq_div (w : Word) : rsvdField w = w.toNat / 256 := by
  have hfamily : familyField w < 16 := (w.extractLsb' 4 4).isLt
  have hscheme : schemeField w < 16 := (w.extractLsb' 0 4).isLt
  rw [toNat_eq_fields w]
  omega

/-- A non-zero bit in [31:8] is the first of the decoder's checks (R82). -/
theorem decode_of_rsvd {w : Word} (hw : w.toNat / 256 ≠ 0) : decode w = .error .reservedBits :=
  if_pos (by rwa [rsvdField_eq_div])

/-- CMD can always be read, BUSY or not (R63). -/
theorem hostRead_cmd (s : State) : hostRead s 32 0x00000000 = answered s s.cmd :=
  (hostRead_reg s rfl (by decide)).trans (if_neg fun h => absurd h.2 (by decide))

/-- Settles O3: a word outside the tables of the five families is rejected, and the error completion keeps CMD. -/
theorem reservedWordCompletes : Obligations.ReservedWordCompletes := by
  refine ⟨⟨commandWords, nodup_commandWords, length_commandWords, fun s => ⟨mem_commandWords_iff.mp, fun hw => ?_⟩⟩,
    fun s hrsvd => completeCommand_of_decode_error (decode_of_rsvd hrsvd)⟩
  obtain ⟨e, he⟩ := decode_error_of_not_mem hw
  exact ⟨_, completeCommand_of_decode_error he, errBit_statusError .unsupportedScheme,
    errCodeField_statusError .unsupportedScheme, rfl, hostRead_cmd _⟩

/-! ### A failed command (R163, R170, R171) -/

/-- From STATUS = BUSY, of the four completions the error completion alone reports ERR. -/
theorem eq_errorCompletion_of_errBit {i : Instr} {s t : State} (hs : s.status = 0x00000001) (hc : Completion i s t)
    (ht : errBit t.status = true) : ∃ e, t = errorCompletion s (some i.family) e := by
  cases hc with
  | error e => exact ⟨e, rfl⟩
  | signal | result => exact absurd (ht.symm.trans errBit_statusDone) (by decide)
  | unwritten => rw [setFaultMark_status, hs] at ht; exact absurd ht (by decide)

/-- What a failed command leaves: STATUS with one error code, and the counts zeroed for every word but INTERP.LINEAR. -/
theorem completeCommand_failed {s t : State} (hs : s.status = 0x00000001) (run : completeCommand s = .next t)
    (ht : errBit t.status = true) :
    ∃ e, (decode s.cmd = .ok .interpLinear ∧ t = { s with status := statusError e }) ∨
      (decode s.cmd ≠ .ok .interpLinear ∧ t = zeroedError s (statusError e)) := by
  rcases completeCommand_cases run with ⟨i, hi, hc⟩ | ⟨⟨reject, hd⟩, rfl⟩
  · obtain ⟨e, rfl⟩ := eq_errorCompletion_of_errBit hs hc ht
    rw [hi]
    by_cases hfam : i.family = .interp
    · obtain rfl := eq_interpLinear_of_family hfam
      exact ⟨e, .inl ⟨rfl, errorCompletion_interp s e⟩⟩
    · refine ⟨e, .inr ⟨fun h => hfam ?_, errorCompletion_zeroed s hfam e⟩⟩
      cases h
      rfl
  · exact ⟨.unsupportedScheme, .inr ⟨by simp [hd], rfl⟩⟩

theorem errorNumber_mem (e : ErrorCode) : (errorNumber e).toNat ∈ [1, 2, 3, 4] := by cases e <;> decide

theorem statusError_eq (e : ErrorCode) :
    statusError e = 0x00000006 ||| (BitVec.ofNat 32 (errorNumber e).toNat <<< 8) := by
  rw [BitVec.ofNat_toNat, BitVec.setWidth_eq]
  rfl

/-- Settles O57: only STATUS, and for every word but INTERP.LINEAR the counts, differ after a failed command. -/
theorem errorIsPrecise : Obligations.ErrorIsPrecise := by
  intro s t hs run ht
  obtain ⟨e, ⟨hd, rfl⟩ | ⟨hd, rfl⟩⟩ := completeCommand_failed hs run ht
  all_goals refine ⟨_, errorNumber_mem e, statusError_eq e, errCodeField_statusError e, ?_⟩
  · exact ⟨fun _ => rfl, fun h => absurd hd h⟩
  · exact ⟨fun h => absurd h hd, fun _ => rfl⟩

end Sys2Proof.Machine
end

section
/-! Reset and hazards (70_reset_and_hazards.md): what a write does to a BUSY block, and the reset event. -/

namespace Sys2Proof.Machine

/-! ### Writes while BUSY (R187) -/

/-- The words whose write is ignored even while BUSY, by offset: STATUS and the words that R28 does not name. -/
theorem ignoredWhileBusy_regWordAt (o : Nat) :
    ignoredWhileBusy (regWordAt o) = decide (o = 0x004 ∨ o ∉ namedOffsets) := by
  refine regWord_cases (P := fun o r => ignoredWhileBusy r = decide (o = 0x004 ∨ o ∉ namedOffsets)) (by decide) ?_ o
  intro o ho
  simp [ho, ignoredWhileBusy]

/-- The gaps of the register map below 0x068 are 0x02C and 0x054 (R28, R53). -/
theorem mem_namedOffsets_iff {o : Nat} (ha : o % 4 = 0) : o ∈ namedOffsets ↔ o < 0x068 ∧ o ≠ 0x02C ∧ o ≠ 0x054 := by
  simp only [namedOffsets, List.mem_cons, List.not_mem_nil, or_false]
  omega

/-- A write of space REG while BUSY is ignored for STATUS and the reserved words, and refused for every other register. -/
theorem hostWrite_reg_of_busy {s : State} {off : Word} (v : Word) (busy : s.busy = true) (ha : off.toNat % 4 = 0)
    (hr : off.toNat < 0x10000000) :
    hostWrite s 32 off v = if off.toNat = 0x004 ∨ off.toNat ∉ namedOffsets then s else setFaultMark s := by
  simp only [hostWrite, target_reg ha hr, ignoredWhileBusy_regWordAt, decide_eq_true_eq, busy, if_true]

/-- A write of a buffer word while BUSY is refused, whether the host may write the buffer or not. -/
theorem hostWrite_buffer_of_busy {s : State} {off : Word} (v : Word) (busy : s.busy = true) (ha : off.toNat % 4 = 0)
    (hin : InBuffers off.toNat) : hostWrite s 32 off v = setFaultMark s := by
  simp [hostWrite, target_buffer ha hin, busy]

/-- Settles O15: space REG by whether the offset names a register other than STATUS, and the buffers. -/
theorem busyWritesRefused : Obligations.BusyWritesRefused := by
  refine fun s off v busy ha => ⟨fun ignored => ?_, fun refused => ?_, fun hin => hostWrite_buffer_of_busy v busy ha hin⟩
  · have h : off.toNat = 0x004 ∨ off.toNat ∉ namedOffsets := by rw [mem_namedOffsets_iff ha]; omega
    exact (hostWrite_reg_of_busy v busy ha (by omega)).trans (if_pos h)
  · have h : ¬(off.toNat = 0x004 ∨ off.toNat ∉ namedOffsets) := by rw [mem_namedOffsets_iff ha]; omega
    exact (hostWrite_reg_of_busy v busy ha (by omega)).trans (if_neg h)

/-! ### The reset event (R183) -/

theorem registerWord_status (s : State) : registerWord s 0x004 = s.status := rfl

theorem resetBlock_busy (s : State) : (resetBlock s).busy = false := by
  rw [State.busy, resetBlock_status]
  decide

/-- Settles O7: the registers and marks of the reset state, the mark of s, and a block that is idle, so has no completion due. -/
theorem resetEvent : Obligations.ResetEvent := by
  rintro s _ rfl
  obtain ⟨cmd, status, bitLen, cfgInit, freq, ampl, srate, deltaRatio, tQuery, result, calcTime, qlevels, inCount,
    txCount, outCount, -, -, unmarked, -⟩ := resetValues
  have idle : (resetBlock s).busy = false := resetBlock_busy s
  exact ⟨cmd, status, bitLen, cfgInit, freq, ampl, srate, deltaRatio, tQuery, result, calcTime, qlevels, inCount,
    txCount, outCount, unmarked, resetBlock_faultMark s, (registerWord_status (resetBlock s)).trans status, idle,
    completionDue_of_idle idle⟩

end Sys2Proof.Machine
end
